-- ==== Sys2Proof/Word.lean ====
section
/-! DEFINITION. The bit-vector types of HTW (spec 00_scope.md R7, R9). -/

namespace Sys2Proof

/-- A command word or a register of the port: CMD_W = 32 bits (R7, R49). -/
abbrev Word := BitVec 32

/-- A symbol: SYM_W = 8 bits (R7). -/
abbrev Symbol := BitVec 8

/-- A byte of the encoded stream (R31, R87). -/
abbrev Byte := BitVec 8

/-- A node index: IDX_W = 9 bits (R7, R26). -/
abbrev NodeIdx := BitVec 9

/-- The bits `a[5:0]` of a host access: the byte offset in the register window (R40, R41). -/
abbrev PortAddr := BitVec 6

/-- `zext_32(v)` (R9). -/
abbrev zext32 {w : Nat} (v : BitVec w) : Word := v.setWidth 32

end Sys2Proof
end

