-- ==== Sys2Proof/Syntax.lean ====
section
/-! DEFINITION. The 14 commands of HTW with their operands (spec 30_encoding.md R71, R90). -/

namespace Sys2Proof

/-- One constructor per row of the opcode table. Operands stand in the order of R71's operand column. -/
inductive Instr where
  /-- NOP (R120). -/
  | nop
  /-- SRST, soft reset (R121). -/
  | srst
  /-- TREE_INT idx, left, right (R122). -/
  | treeInt (idx left right : NodeIdx)
  /-- TREE_LEAF idx, sym (R123). -/
  | treeLeaf (idx : NodeIdx) (sym : Symbol)
  /-- ROOT_SET idx (R124). -/
  | rootSet (idx : NodeIdx)
  /-- ROOT_CLR (R125). -/
  | rootClr
  /-- CODE_LEN sym, len (R126). -/
  | codeLen (sym : Symbol) (len : BitVec 8)
  /-- CODE_BITS sym, chunk, data (R127). -/
  | codeBits (sym : Symbol) (chunk : BitVec 4) (data : BitVec 16)
  /-- DEC_START (R160). -/
  | decStart
  /-- DEC_BITS n, data (R162). As in the assembly syntax (R90) the operand is the count N = NM1 + 1, 1 to 16
  (log 10). -/
  | decBits (n : Nat) (data : BitVec 16)
  /-- DEC_END (R163). -/
  | decEnd
  /-- ENC_START (R141). -/
  | encStart
  /-- ENC_SYM sym (R142). -/
  | encSym (sym : Symbol)
  /-- ENC_FLUSH (R143). -/
  | encFlush
  deriving DecidableEq, Repr

end Sys2Proof
end

