-- ==== Sys2Proof/WellFormed.lean ====
section
/-! DEFINITION. Which terms of Instr are commands of HTW. Every operand but one is a field of its exact width,
where every value is legal (spec 20_memory.md R55, 30_encoding.md R80). The count of DEC_BITS is the exception. -/

namespace Sys2Proof

/-- The count of DEC_BITS is 1 to 16 (R78, R90). No other operand has an illegal value. -/
def Instr.wellFormed : Instr → Bool
  | .nop => true
  | .srst => true
  | .treeInt _ _ _ => true
  | .treeLeaf _ _ => true
  | .rootSet _ => true
  | .rootClr => true
  | .codeLen _ _ => true
  | .codeBits _ _ _ => true
  | .decStart => true
  | .decBits n _ => decide (1 ≤ n) && decide (n ≤ 16)
  | .decEnd => true
  | .encStart => true
  | .encSym _ => true
  | .encFlush => true

end Sys2Proof
end

