-- ==== Sys2Proof/Decode.lean ====
section
/-! DEFINITION. The decoder, total on all 2^32 words (spec 30_encoding.md R70 to R84), and after it the encoder. -/

namespace Sys2Proof

/-- Why a word is ILLEGAL: the two classes of R82. -/
inductive Illegal where
  /-- R82 (a): OPC is 0xC to 0xF. -/
  | reservedOpcode
  /-- R82 (b): a reserved bit of a defined opcode is not 0. -/
  | reservedBits
  deriving DecidableEq, Repr

/-- What `Decode(w)` returns: a command, or ILLEGAL with its class. -/
inductive Decoded where
  | instr (i : Instr)
  | illegal (why : Illegal)
  deriving DecidableEq, Repr

/-- One row of R81's table: the mask and match of a mnemonic, and how its operands are read from the word. -/
structure EncodingRow where
  mnemonic : String
  pattern : Word
  mask : Word
  operands : Word → Instr

/-- `w AND mask = match` (R81). -/
def EncodingRow.covers (r : EncodingRow) (w : Word) : Bool := w &&& r.mask == r.pattern

/-- The field of `n` bits of `w` whose lowest bit is bit `lo` (R9). -/
def field (w : Word) (lo n : Nat) : BitVec n := w.extractLsb' lo n

/-- The control and load rows of R81, with the formats of R72 to R77. -/
def controlRows : List EncodingRow := [
  ⟨"NOP", 0x00000000#32, 0xFFFFFFFF#32, fun _ => .nop⟩,
  ⟨"SRST", 0x10000000#32, 0xFFFFFFFF#32, fun _ => .srst⟩,
  ⟨"TREE_INT", 0x20000000#32, 0xF8000000#32, fun w => .treeInt (field w 18 9) (field w 9 9) (field w 0 9)⟩,
  ⟨"TREE_LEAF", 0x28000000#32, 0xF803FF00#32, fun w => .treeLeaf (field w 18 9) (field w 0 8)⟩,
  ⟨"ROOT_SET", 0x30000000#32, 0xFFFFFE00#32, fun w => .rootSet (field w 0 9)⟩,
  ⟨"ROOT_CLR", 0x38000000#32, 0xFFFFFFFF#32, fun _ => .rootClr⟩,
  ⟨"CODE_LEN", 0x40000000#32, 0xF0000FFF#32, fun w => .codeLen (field w 20 8) (field w 12 8)⟩,
  ⟨"CODE_BITS", 0x50000000#32, 0xF0000000#32, fun w => .codeBits (field w 20 8) (field w 16 4) (field w 0 16)⟩]

/-- The decoder and encoder rows of R81, with the formats of R72, R78 and R79. -/
def sessionRows : List EncodingRow := [
  ⟨"DEC_START", 0x60000000#32, 0xFFFFFFFF#32, fun _ => .decStart⟩,
  ⟨"DEC_BITS", 0x70000000#32, 0xFFF00000#32, fun w => .decBits ((field w 16 4).toNat + 1) (field w 0 16)⟩,
  ⟨"DEC_END", 0x80000000#32, 0xFFFFFFFF#32, fun _ => .decEnd⟩,
  ⟨"ENC_START", 0x90000000#32, 0xFFFFFFFF#32, fun _ => .encStart⟩,
  ⟨"ENC_SYM", 0xA0000000#32, 0xFFFFFF00#32, fun w => .encSym (field w 0 8)⟩,
  ⟨"ENC_FLUSH", 0xB0000000#32, 0xFFFFFFFF#32, fun _ => .encFlush⟩]

/-- R81's table, in its order. -/
def encodingRows : List EncodingRow := controlRows ++ sessionRows

/-- The class of an ILLEGAL word (R82). -/
def illegalClass (w : Word) : Illegal :=
  if 0xC#4 ≤ field w 28 4 then .reservedOpcode else .reservedBits

/-- `Decode(w)`: the first row of R81 that covers `w`, or ILLEGAL. -/
def decode (w : Word) : Decoded :=
  match encodingRows.find? (fun r => r.covers w) with
  | some r => .instr (r.operands w)
  | none => .illegal (illegalClass w)

/-- The command of a decoder's answer, if it is one. -/
def Decoded.instr? : Decoded → Option Instr
  | .instr i => some i
  | .illegal _ => none

/-- The decoder on an instruction given as the opcode table numbers it. Every command is one 32-bit word (R70),
and the port has no byte order (R49), so the number's bit i is the word's bit i. More than 32 bits are no command
(log 17). -/
def decodeTableWord (nbits w : Nat) : Option Instr :=
  if nbits ≤ 32 then (decode (BitVec.ofNat 32 (w % 2 ^ nbits))).instr? else none

/-- The word of a command: the formula of the encoding line of each command's rule (R120 to R127, R141 to R143,
R160, R162, R163). -/
def encode : Instr → Word
  | .nop => 0x00000000#32
  | .srst => 0x10000000#32
  | .treeInt idx left right => 0x20000000#32 ||| zext32 idx <<< 18 ||| zext32 left <<< 9 ||| zext32 right
  | .treeLeaf idx sym => 0x28000000#32 ||| zext32 idx <<< 18 ||| zext32 sym
  | .rootSet idx => 0x30000000#32 ||| zext32 idx
  | .rootClr => 0x38000000#32
  | .codeLen sym len => 0x40000000#32 ||| zext32 sym <<< 20 ||| zext32 len <<< 12
  | .codeBits sym chunk data => 0x50000000#32 ||| zext32 sym <<< 20 ||| zext32 chunk <<< 16 ||| zext32 data
  | .decStart => 0x60000000#32
  | .decBits n data => 0x70000000#32 ||| zext32 (BitVec.ofNat 4 (n - 1)) <<< 16 ||| zext32 data
  | .decEnd => 0x80000000#32
  | .encStart => 0x90000000#32
  | .encSym sym => 0xA0000000#32 ||| zext32 sym
  | .encFlush => 0xB0000000#32

end Sys2Proof
end

