-- ==== Sys2Proof/Config.lean ====
section
/-! DEFINITION. The parameters of HTW (spec 00_scope.md R7). The three the spec leaves OPEN have no value
here: each rests on a constant with no body, so that a statement holds for every value the spec allows. -/

namespace Sys2Proof.Config

/-- NNODES: entries of the tree memory (R7, R26). -/
def nnodes : Nat := 512

/-- NSYM: symbols in the alphabet, and entries of the code table (R7, R28). -/
def nsym : Nat := 256

/-- The least DOUT_DEPTH the spec allows (R7, R30). -/
def doutMinDepth : Nat := 16

/-- The least EOUT_DEPTH the spec allows (R7, R31). -/
def eoutMinDepth : Nat := 32

/-- How far DOUT_DEPTH exceeds its minimum: OPEN (R7; log 4). -/
opaque doutExtra : Nat

/-- How far EOUT_DEPTH exceeds its minimum: OPEN (R7; log 4). -/
opaque eoutExtra : Nat

/-- DOUT_DEPTH: OPEN, at least 16 (R7, D13). -/
def doutDepth : Nat := doutMinDepth + doutExtra

/-- EOUT_DEPTH: OPEN, at least 32 (R7, D13). -/
def eoutDepth : Nat := eoutMinDepth + eoutExtra

/-- Which 64-byte window of the host's address map is HTW's: OPEN (R41, R54; log 8). -/
opaque htwWindow : Nat

/-- HTW_BASE (R7). Address bits above bit 5 select the window (R41), so the base is a multiple of 64. -/
def htwBase : Nat := 64 * htwWindow

/-- The further windows through which the platform reaches HTW, its aliases: OPEN, perhaps none (R54, 93 U9; log 8). -/
opaque htwAliases : List Nat

/-- Every window the platform's decode gives HTW: the one at HTW_BASE and its aliases (R41, R54). -/
def htwWindows : List Nat := htwWindow :: htwAliases

end Sys2Proof.Config
end

