-- ==== Sys2Proof/Machine/State.lean ====
section
/-! DEFINITION. The state of HTW as plain data (spec 10_state.md), HOST's side of it, the reset state, and the
reasons a step can stop. -/

namespace Sys2Proof.Machine

/-- A node of TREE: the document's tagged variant without weights (R26, R85; log 7). -/
inductive Node where
  | leaf (sym : Symbol)
  | internal (left right : NodeIdx)
  deriving DecidableEq, Repr

/-- An entry of CODE: its length and its bit string, position 0 first (R28, R86). -/
structure CodeEntry where
  len : BitVec 8
  bits : Vector Bool 255
  deriving DecidableEq, Repr

/-- TREE or CODE: the valid entries by index, indices strictly rising. An index that is not listed is an entry
whose valid bit is 0 (R27, R29, 93 U1, U2; log 6). -/
abbrev Memory (α : Type) := List (Nat × α)

/-- The eight error causes (R180). -/
inductive ErrCause where
  | illegalCmd
  | cmdOvf
  | missingTree
  | malformedTree
  | truncated
  | decSeq
  | unknownSymbol
  | encSeq
  deriving DecidableEq, Repr

/-- Whose step comes next, and for HOST which transaction (R33, R35, R56); the reset input is the platform's
(R200). -/
inductive Turn where
  /-- ENGINE may take its step. -/
  | engine
  /-- `HostRead(a)`. -/
  | read (a : PortAddr)
  /-- `HostWrite(a, v)`. -/
  | write (a : PortAddr) (v : Word)
  /-- The platform asserts the reset input. -/
  | resetInput
  deriving DecidableEq, Repr

/-- HOST's side, no state of HTW: the turns that have not come yet, and the words HOST's reads have returned,
oldest first (log 1, 3). -/
structure HostSide where
  script : List Turn
  received : List Word
  deriving DecidableEq, Repr

/-- Everything the spec gives HTW (10_state.md R15 to R31), and HOST's side. -/
structure State where
  /-- ERR: STATUS[15:8] (R15). Bit i here is STATUS bit 8 + i. -/
  err : BitVec 8
  /-- CMD_PEND (R16). -/
  cmdPend : Bool
  /-- CMDR (R16). -/
  cmdr : Word
  /-- ROOT (R17). -/
  root : NodeIdx
  /-- ROOT_VALID (R17). -/
  rootValid : Bool
  /-- CUR (R18). -/
  cur : NodeIdx
  /-- DEC_ACTIVE (R19). -/
  decActive : Bool
  /-- ENC_ACTIVE (R20). -/
  encActive : Bool
  /-- PBUF (R21). -/
  pbuf : BitVec 8
  /-- PCNT (R21). -/
  pcnt : BitVec 3
  /-- DEC_NBITS (R22). -/
  decNbits : Word
  /-- DEC_NSYMS (R23). -/
  decNsyms : Word
  /-- ENC_NBITS (R24). -/
  encNbits : Word
  /-- ENC_NSYMS (R25). -/
  encNsyms : Word
  /-- TREE with NODE_VALID (R26, R27). -/
  tree : Memory Node
  /-- CODE with CODE_VALID (R28, R29). -/
  code : Memory CodeEntry
  /-- DOUT, head first (R30). -/
  dout : List Symbol
  /-- EOUT, head first (R31). -/
  eout : List Byte
  /-- HOST's side (the model's own). -/
  host : HostSide
  deriving DecidableEq, Repr

/-- The machine right after reset: the table of R32. HOST's side is empty (log 12). -/
def State.reset : State where
  err := 0x00#8
  cmdPend := false
  cmdr := 0x00000000#32
  root := 0#9
  rootValid := false
  cur := 0#9
  decActive := false
  encActive := false
  pbuf := 0x00#8
  pcnt := 0#3
  decNbits := 0#32
  decNsyms := 0#32
  encNbits := 0#32
  encNsyms := 0#32
  tree := []
  code := []
  dout := []
  eout := []
  host := ⟨[], []⟩

/-- A push onto a full FIFO, which the hold of R34 rules out: the spec gives it no effect. Safe: the model stops,
and no step reaches it, since ENGINE executes no held command (log 5). -/
inductive Fault where
  /-- `push_dout` found |DOUT| = DOUT_DEPTH. Raised by DEC_BITS executed where it would be held. Safe. -/
  | doutOverflow
  /-- `push_eout` found |EOUT| = EOUT_DEPTH. Raised by ENC_SYM or ENC_FLUSH executed where it would be held. Safe. -/
  | eoutOverflow
  deriving DecidableEq, Repr

/-- Refusals of the model. -/
inductive Refusal where
  /-- An arm of exec without a meaning. No arm raises it: every command has its meaning. Safe. -/
  | notModelled (mnemonic : String)
  deriving DecidableEq, Repr

/-- What a command's meaning has come to. The raise of R11 and R181 ends a command with a state, not the machine. -/
inductive Flow where
  /-- The command goes on (or is complete) in this state. -/
  | go (s : State)
  /-- The command has raised an error and is over; this is the state it leaves. -/
  | ended (s : State)
  /-- A push found its FIFO full. -/
  | stop (f : Fault)
  deriving DecidableEq, Repr

end Sys2Proof.Machine
end

