-- ==== Sys2Proof/Machine/Operands.lean ====
section
/-! DEFINITION. The operand forms that are not a plain field, and the bit orders of streams and codes
(spec 30_encoding.md R80, R87 to R89). -/

namespace Sys2Proof.Machine

/-- `v[i] <- b`. An index outside the vector changes nothing. -/
def setBit {w : Nat} (v : BitVec w) (i : Nat) (b : Bool) : BitVec w :=
  if b then v ||| BitVec.twoPow w i else v &&& ~~~ BitVec.twoPow w i

/-- The bits a DEC_BITS command delivers, in the order they are consumed: DATA[15], DATA[14], ..., DATA[16 - N]
(R88). -/
def dataBits (n : Nat) (data : BitVec 16) : List Bool :=
  ((List.range 16).map fun j => data.getLsbD (15 - j)).take n

/-- CODE_BITS: position `16 * CHUNK + j` gets `DATA[15 - j]`; position 255 does not exist (R89, R127). -/
def writeChunk (bits : Vector Bool 255) (chunk : BitVec 4) (data : BitVec 16) : Vector Bool 255 :=
  (List.range 16).foldl (fun v j => v.setIfInBounds (16 * chunk.toNat + j) (data.getLsbD (15 - j))) bits

/-- The code of an entry as a bit string, position 0 first: `bits[0..len-1]` (R86). -/
def CodeEntry.codeString (e : CodeEntry) : List Bool := e.bits.toList.take e.len.toNat

/-- The bits of a byte in stream order: bit 7 is the earliest (R49, R87). -/
def byteBits (b : Byte) : List Bool := (List.range 8).map fun j => b.getLsbD (7 - j)

/-- The byte whose high bits are the given stream bits, first bit in bit 7, and whose other bits are 0 (R87). -/
def byteOfBits (bs : List Bool) : Byte :=
  (List.range 8).foldl (fun v j => setBit v (7 - j) (bs.getD j false)) 0#8

/-- The code bits the packer holds: PBUF[7] down to PBUF[8 - PCNT], first bit in PBUF[7] (R21). -/
def State.heldBits (s : State) : List Bool := (byteBits s.pbuf).take s.pcnt.toNat

end Sys2Proof.Machine
end

