-- ==== Sys2Proof/Machine/Flags.lean ====
section
/-! DEFINITION. STATUS: its error bits, how they are set and cleared, and the word HOST reads
(spec 10_state.md R15, 60_exceptions.md R180 to R183). -/

namespace Sys2Proof.Machine

/-- The code of a cause: its STATUS bit number (R180). -/
def ErrCause.bitNo : ErrCause → Nat
  | .illegalCmd => 8
  | .cmdOvf => 9
  | .missingTree => 10
  | .malformedTree => 11
  | .truncated => 12
  | .decSeq => 13
  | .unknownSymbol => 14
  | .encSeq => 15

/-- The causes, by rising code (R180). -/
def ErrCause.all : List ErrCause :=
  [.illegalCmd, .cmdOvf, .missingTree, .malformedTree, .truncated, .decSeq, .unknownSymbol, .encSeq]

/-- The cause's bit in ERR, which is STATUS[15:8] (R15). -/
def ErrCause.mask (e : ErrCause) : BitVec 8 := BitVec.twoPow 8 (e.bitNo - 8)

/-- `ERR[E]`. -/
def State.hasErr (s : State) (e : ErrCause) : Bool := s.err.getLsbD (e.bitNo - 8)

/-- `ERR[E] <- 1`; the other bits stay (R181, R183). -/
def State.setErr (s : State) (e : ErrCause) : State := { s with err := s.err ||| e.mask }

/-- `ERR[i] <- 0` for every bit that is 1 in `m` (R46, R182). -/
def State.clearErrs (s : State) (m : BitVec 8) : State := { s with err := s.err &&& ~~~ m }

/-- The four decoder causes, which DEC_START clears: STATUS[13:10] (R160, R182). -/
def decErrs : BitVec 8 :=
  ErrCause.missingTree.mask ||| ErrCause.malformedTree.mask ||| ErrCause.truncated.mask ||| ErrCause.decSeq.mask

/-- The two encoder causes, which ENC_START clears: STATUS[15:14] (R141, R182). -/
def encErrs : BitVec 8 := ErrCause.unknownSymbol.mask ||| ErrCause.encSeq.mask

/-- DOUT_AVAIL: |DOUT| > 0 (R15). -/
def State.doutAvail (s : State) : Bool := decide (0 < s.dout.length)

/-- EOUT_AVAIL: |EOUT| > 0 (R15). -/
def State.eoutAvail (s : State) : Bool := decide (0 < s.eout.length)

/-- A single bit at its place in a word. -/
def bitAt (i : Nat) (b : Bool) : Word := if b then BitVec.twoPow 32 i else 0#32

/-- STATUS as HOST reads it (R15): views in bits 0 to 5, ERR in bits 8 to 15, every other bit 0. -/
def State.status (s : State) : Word :=
  bitAt 0 s.cmdPend ||| bitAt 1 s.decActive ||| bitAt 2 s.encActive ||| bitAt 3 s.rootValid |||
    bitAt 4 s.doutAvail ||| bitAt 5 s.eoutAvail ||| zext32 s.err <<< 8

/-- PACK as HOST reads it: `zext_32({PCNT, PBUF})` (R21, R42). -/
def State.pack (s : State) : Word := zext32 s.pcnt <<< 8 ||| zext32 s.pbuf

end Sys2Proof.Machine
end

