-- ==== Sys2Proof/Machine/Ops.lean ====
section
/-! DEFINITION. The shared operations: TREE and CODE, the two FIFOs and the hold, raising an error and what a
command comes to, sessions, counters, and reset (spec 00_scope.md R11). -/

namespace Sys2Proof.Machine

/-! ### TREE and CODE -/

/-- The entry at an index; none where the valid bit is 0 (R27, R29). -/
def Memory.read {α : Type} : Memory α → Nat → Option α
  | [], _ => none
  | (j, v) :: m, i => if i = j then some v else Memory.read m i

/-- Write a whole entry and set its valid bit (R53). -/
def Memory.write {α : Type} : Memory α → Nat → α → Memory α
  | [], i, v => [(i, v)]
  | (j, u) :: m, i, v =>
    if i < j then (i, v) :: (j, u) :: m
    else if i = j then (i, v) :: m
    else (j, u) :: Memory.write m i v

/-- Clear the valid bit of an entry. -/
def Memory.erase {α : Type} (m : Memory α) (i : Nat) : Memory α := m.filter fun p => p.1 != i

/-- The canonical form below a bound: indices strictly rising, each less than `n`. -/
def Memory.wf {α : Type} (m : Memory α) (n : Nat) : Bool :=
  decide (m.Pairwise fun p q => p.1 < q.1) && m.all fun p => decide (p.1 < n)

/-- `NODE[i]`, none where `NODE_VALID[i] = 0` (R11, R27). -/
def State.nodeAt (s : State) (i : NodeIdx) : Option Node := s.tree.read i.toNat

/-- `NODE_VALID[i]` (R27). -/
def State.nodeValid (s : State) (i : NodeIdx) : Bool := (s.nodeAt i).isSome

/-- `NODE[i] <- n; NODE_VALID[i] <- 1` (R122, R123). -/
def State.writeNode (s : State) (i : NodeIdx) (n : Node) : State := { s with tree := s.tree.write i.toNat n }

/-- `CODE[sym]`, none where `CODE_VALID[sym] = 0` (R11, R29). -/
def State.codeAt (s : State) (sym : Symbol) : Option CodeEntry := s.code.read sym.toNat

/-- `CODE_VALID[sym]` (R29). -/
def State.codeValid (s : State) (sym : Symbol) : Bool := (s.codeAt sym).isSome

/-- Write an entry of CODE and set its valid bit (R126, R127). -/
def State.writeCode (s : State) (sym : Symbol) (e : CodeEntry) : State :=
  { s with code := s.code.write sym.toNat e }

/-- `CODE_VALID[sym] <- 0` (R126). What the entry held can never be read again, so it is dropped (93 U2; log 6). -/
def State.eraseCode (s : State) (sym : Symbol) : State := { s with code := s.code.erase sym.toNat }

/-! ### Raising an error, and what a command comes to -/

/-- Go on with `k` in the state reached, unless the command is over. -/
def Flow.andThen : Flow → (State → Flow) → Flow
  | .go s, k => k s
  | .ended s, _ => .ended s
  | .stop f, _ => .stop f

/-- A command that goes on to its end and one that raises both leave a next state: no error stops ENGINE (R183,
R186). -/
def Flow.outcome : Flow → Host.Outcome State Fault Refusal
  | .go s => .next s
  | .ended s => .next s
  | .stop f => .fault f

/-- `raise E`: set the bit and end the command. It saves nothing and transfers control nowhere (R181, R186). There is
no return from an error (R187): HOST clears the bit with `State.clearErrs`. -/
def raise (e : ErrCause) (s : State) : Flow := .ended (s.setErr e)

/-- `end_dec` (R11). -/
def State.endDec (s : State) : State := { s with decActive := false }

/-- `end_enc` (R11). -/
def State.endEnc (s : State) : State := { s with encActive := false }

/-- `Execute(ILLEGAL)` is `raise ERR_ILLEGAL_CMD` (R81, R82). -/
def executeIllegal (s : State) : Host.Outcome State Fault Refusal := (raise .illegalCmd s).outcome

/-! ### The FIFOs and the hold -/

/-- `free(DOUT) = DOUT_DEPTH - |DOUT|` (R11). -/
def State.freeDout (s : State) : Nat := Config.doutDepth - s.dout.length

/-- `free(EOUT) = EOUT_DEPTH - |EOUT|` (R11). -/
def State.freeEout (s : State) : Nat := Config.eoutDepth - s.eout.length

/-- Whether `n` more entries fit beside `used` in a FIFO of `least + extra` entries. The first comparison answers
without the open parameter wherever the least depth is enough. -/
def hasRoom (used n least extra : Nat) : Bool :=
  decide (used + n ≤ least) || decide (used + n ≤ least + extra)

/-- Whether `n` more symbols fit in DOUT. -/
def State.roomDout (s : State) (n : Nat) : Bool :=
  hasRoom s.dout.length n Config.doutMinDepth Config.doutExtra

/-- Whether `n` more bytes fit in EOUT. -/
def State.roomEout (s : State) (n : Nat) : Bool :=
  hasRoom s.eout.length n Config.eoutMinDepth Config.eoutExtra

/-- `push_dout(sym)` (R11). No rule gives a push onto a full FIFO an effect, and the hold rules it out (log 5). -/
def pushDout (sym : Symbol) (s : State) : Flow :=
  if s.roomDout 1 then .go { s with dout := s.dout ++ [sym] } else .stop .doutOverflow

/-- `push_eout(b)` (R11). -/
def pushEout (b : Byte) (s : State) : Flow :=
  if s.roomEout 1 then .go { s with eout := s.eout ++ [b] } else .stop .eoutOverflow

/-- `Held` of a command: it might need more FIFO space than there is (R34). -/
def held (i : Instr) (s : State) : Bool :=
  match i with
  | .nop => false
  | .srst => false
  | .treeInt _ _ _ => false
  | .treeLeaf _ _ => false
  | .rootSet _ => false
  | .rootClr => false
  | .codeLen _ _ => false
  | .codeBits _ _ _ => false
  | .decStart => false
  | .decBits n _ => !s.roomDout n
  | .decEnd => false
  | .encStart => false
  | .encSym _ => !s.roomEout 32
  | .encFlush => !s.roomEout 1

/-- `Held(CMDR)`: an ILLEGAL word is never held (R34). -/
def State.heldCmdr (s : State) : Bool :=
  match decode s.cmdr with
  | .instr i => held i s
  | .illegal _ => false

/-- `CMD_PEND <- 0`, ENGINE's first write in its step (R33). -/
def State.takeCommand (s : State) : State := { s with cmdPend := false }

/-- ENGINE's step is enabled (R33). -/
def State.engineEnabled (s : State) : Bool := s.cmdPend && !s.heldCmdr

/-! ### Reset -/

/-- Put every piece of HTW's state at the value of R32's table: SRST (R121) and the reset input (R200). HOST's side
is no state of HTW and stays (log 11). -/
def State.resetAll (s : State) : State := { State.reset with host := s.host }

end Sys2Proof.Machine
end

