-- ==== Sys2Proof/Machine/Control.lean ====
section
/-! DEFINITION. The control and load commands (spec 41_control_load.md R120 to R127). -/

namespace Sys2Proof.Machine

/-- NOP (R120). -/
def execNop (s : State) : Host.Outcome State Fault Refusal := .next s

/-- SRST (R121). -/
def execSrst (s : State) : Host.Outcome State Fault Refusal := .next s.resetAll

/-- TREE_INT (R122). -/
def execTreeInt (idx left right : NodeIdx) (s : State) : Host.Outcome State Fault Refusal :=
  .next (s.writeNode idx (.internal left right))

/-- TREE_LEAF (R123). -/
def execTreeLeaf (idx : NodeIdx) (sym : Symbol) (s : State) : Host.Outcome State Fault Refusal :=
  .next (s.writeNode idx (.leaf sym))

/-- ROOT_SET (R124). -/
def execRootSet (idx : NodeIdx) (s : State) : Host.Outcome State Fault Refusal :=
  .next { s with root := idx, rootValid := true }

/-- ROOT_CLR (R125). -/
def execRootClr (s : State) : Host.Outcome State Fault Refusal := .next { s with rootValid := false }

/-- CODE_LEN (R126). -/
def execCodeLen (sym : Symbol) (len : BitVec 8) (s : State) : Host.Outcome State Fault Refusal :=
  if len = 0#8 then .next (s.eraseCode sym)
  else .next (s.writeCode sym ⟨len, Vector.replicate 255 false⟩)

/-- CODE_BITS (R127). -/
def execCodeBits (sym : Symbol) (chunk : BitVec 4) (data : BitVec 16) (s : State) :
    Host.Outcome State Fault Refusal :=
  match s.codeAt sym with
  | none => .next s
  | some e => .next (s.writeCode sym { e with bits := writeChunk e.bits chunk data })

end Sys2Proof.Machine
end

