-- ==== Sys2Proof/Machine/Encoder.lean ====
section
/-! DEFINITION. The encoder: the bit packer and the commands ENC_START, ENC_SYM, ENC_FLUSH
(spec 42_encoder.md R140 to R143). -/

namespace Sys2Proof.Machine

/-- `append_bit(b)` (R140). -/
def appendBit (b : Bool) (s : State) : Flow :=
  let filled := setBit s.pbuf (7 - s.pcnt.toNat) b
  if s.pcnt = 7#3 then
    (pushEout filled s).andThen fun s => .go { s with pbuf := 0x00#8, pcnt := 0#3 }
  else .go { s with pbuf := filled, pcnt := s.pcnt + 1#3 }

/-- `append_bit` for each bit of a string in turn (R142). -/
def appendBits : List Bool → State → Flow
  | [], s => .go s
  | b :: bs, s => (appendBit b s).andThen (appendBits bs)

/-- ENC_START (R141). -/
def execEncStart (s : State) : Host.Outcome State Fault Refusal :=
  .next { s.clearErrs encErrs with
    pbuf := 0x00#8, pcnt := 0#3, encNbits := 0#32, encNsyms := 0#32, encActive := true }

/-- `inc(ENC_NBITS, L); inc(ENC_NSYMS, 1)` (R142). -/
def State.countEncoded (s : State) (len : BitVec 8) : State :=
  { s with encNbits := s.encNbits + zext32 len, encNsyms := s.encNsyms + 1#32 }

/-- ENC_SYM's rule (R142): the checks in the order of R185, then the code's bits, then the counters. -/
def encodeSymbol (sym : Symbol) (s : State) : Flow :=
  if s.encActive then
    match s.codeAt sym with
    | none => raise .unknownSymbol s.endEnc
    | some e => (appendBits e.codeString s).andThen fun s => .go (s.countEncoded e.len)
  else raise .encSeq s

/-- ENC_SYM (R142). -/
def execEncSym (sym : Symbol) (s : State) : Host.Outcome State Fault Refusal := (encodeSymbol sym s).outcome

/-- ENC_FLUSH's rule (R143). -/
def flushPacker (s : State) : Flow :=
  if s.encActive then
    if s.pcnt = 0#3 then .go s.endEnc
    else (pushEout s.pbuf s).andThen fun s => .go { s with pbuf := 0x00#8, pcnt := 0#3 }.endEnc
  else raise .encSeq s

/-- ENC_FLUSH (R143). -/
def execEncFlush (s : State) : Host.Outcome State Fault Refusal := (flushPacker s).outcome

end Sys2Proof.Machine
end

