-- ==== Sys2Proof/Machine/Walker.lean ====
section
/-! DEFINITION. The decoder: the tree walk and the commands DEC_START, DEC_BITS, DEC_END
(spec 43_decoder.md R160 to R163). -/

namespace Sys2Proof.Machine

/-- DEC_START's first writes: `STATUS[13:10] <- 0` and both counters cleared (R160). -/
def State.clearDecoder (s : State) : State :=
  { s.clearErrs decErrs with decNbits := 0#32, decNsyms := 0#32 }

/-- A decoder error: `end_dec; raise E` (R160, R161). -/
def failWalk (e : ErrCause) (s : State) : Flow := raise e s.endDec

/-- DEC_START's rule (R160). -/
def openWalk (s : State) : Flow :=
  let s := s.clearDecoder
  if s.rootValid then
    match s.nodeAt s.root with
    | none => failWalk .malformedTree s
    | some _ => .go { s with cur := s.root, decActive := true }
  else failWalk .missingTree s

/-- DEC_START (R160). -/
def execDecStart (s : State) : Host.Outcome State Fault Refusal := (openWalk s).outcome

/-- `inc(DEC_NBITS, 1)` (R161). -/
def State.countBit (s : State) : State := { s with decNbits := s.decNbits + 1#32 }

/-- `push_dout(sym); inc(DEC_NSYMS, 1); CUR <- ROOT` (R161). -/
def emitSymbol (sym : Symbol) (s : State) : Flow :=
  (pushDout sym s).andThen fun s => .go { s with decNsyms := s.decNsyms + 1#32, cur := s.root }

/-- The last part of `step_bit`: go to the child chosen, once the root and CUR are known to be internal (R161). -/
def stepTo (nxt : NodeIdx) (s : State) : Flow :=
  match s.nodeAt nxt with
  | none => failWalk .malformedTree s
  | some (.leaf sym) => emitSymbol sym s.countBit
  | some (.internal _ _) => .go { s.countBit with cur := nxt }

/-- `step_bit(b)` (R161): the checks in the order of R185, left on bit 0, right on bit 1. -/
def stepBit (b : Bool) (s : State) : Flow :=
  if s.rootValid then
    match s.nodeAt s.root with
    | none => failWalk .malformedTree s
    | some (.leaf sym) => emitSymbol sym s.countBit
    | some (.internal _ _) =>
      match s.nodeAt s.cur with
      | none => failWalk .malformedTree s
      | some (.leaf _) => failWalk .malformedTree s
      | some (.internal left right) => stepTo (if b then right else left) s
  else failWalk .missingTree s

/-- `step_bit` for each bit in turn; a raise stops the loop (R162). -/
def walkBits : List Bool → State → Flow
  | [], s => .go s
  | b :: bs, s => (stepBit b s).andThen (walkBits bs)

/-- DEC_BITS's rule (R162). -/
def consumeBits (n : Nat) (data : BitVec 16) (s : State) : Flow :=
  if s.decActive then walkBits (dataBits n data) s else raise .decSeq s

/-- DEC_BITS (R162). -/
def execDecBits (n : Nat) (data : BitVec 16) (s : State) : Host.Outcome State Fault Refusal :=
  (consumeBits n data s).outcome

/-- DEC_END's rule (R163). -/
def closeWalk (s : State) : Flow :=
  if s.decActive then
    let s := s.endDec
    if s.cur = s.root then .go s else raise .truncated s
  else raise .decSeq s

/-- DEC_END (R163). -/
def execDecEnd (s : State) : Host.Outcome State Fault Refusal := (closeWalk s).outcome

end Sys2Proof.Machine
end

