-- ==== Sys2Proof/Machine/Dispatch.lean ====
section
/-! DEFINITION. `Execute` of a decoded command: one meaning per mnemonic (spec 10_state.md R33, 30_encoding.md R71). -/

namespace Sys2Proof.Machine

def exec (i : Instr) (s : State) : Host.Outcome State Fault Refusal :=
  match i with
  | .nop => Sys2Proof.Machine.execNop s
  | .srst => Sys2Proof.Machine.execSrst s
  | .treeInt idx left right => Sys2Proof.Machine.execTreeInt idx left right s
  | .treeLeaf idx sym => Sys2Proof.Machine.execTreeLeaf idx sym s
  | .rootSet idx => Sys2Proof.Machine.execRootSet idx s
  | .rootClr => Sys2Proof.Machine.execRootClr s
  | .codeLen sym len => Sys2Proof.Machine.execCodeLen sym len s
  | .codeBits sym chunk data => Sys2Proof.Machine.execCodeBits sym chunk data s
  | .decStart => Sys2Proof.Machine.execDecStart s
  | .decBits n data => Sys2Proof.Machine.execDecBits n data s
  | .decEnd => Sys2Proof.Machine.execDecEnd s
  | .encStart => Sys2Proof.Machine.execEncStart s
  | .encSym sym => Sys2Proof.Machine.execEncSym sym s
  | .encFlush => Sys2Proof.Machine.execEncFlush s

end Sys2Proof.Machine
end

