-- ==== Sys2Proof/Machine/Port.lean ====
section
/-! DEFINITION. HOST's transactions at the register window (spec 20_memory.md R40 to R54). -/

namespace Sys2Proof.Machine

/-- The word index of an access: `a[5:2]`; `a[1:0]` is ignored (R41, R50). -/
def wordIndex (a : PortAddr) : BitVec 4 := a.extractLsb' 2 4

/-- The byte offset of the word an access names, in R42's spelling. -/
def wordOffset (a : PortAddr) : Nat := 4 * (wordIndex a).toNat

/-- `pop` of a FIFO as HOST sees it: VALID in bit 8 and the head in bits [7:0], or 0 when it is empty (R44, R45). -/
def fifoWord (q : List (BitVec 8)) : Word :=
  match q with
  | [] => 0x00000000#32
  | v :: _ => 0x100#32 ||| zext32 v

/-- What `HostRead(a)` returns: the read column of R42 (R43 to R45). -/
def readValue (a : PortAddr) (s : State) : Word :=
  match wordOffset a with
  | 0x00 => s.status
  | 0x04 => 0x00000000#32
  | 0x08 => zext32 s.root
  | 0x0C => zext32 s.cur
  | 0x10 => s.decNbits
  | 0x14 => s.decNsyms
  | 0x18 => s.encNbits
  | 0x1C => s.encNsyms
  | 0x20 => s.pack
  | 0x24 => fifoWord s.dout
  | 0x28 => fifoWord s.eout
  | _ => 0x00000000#32

/-- What `HostRead(a)` changes in HTW: reads of DOUT and EOUT pop, no other read has an effect (R43 to R45, R52). -/
def readEffect (a : PortAddr) (s : State) : State :=
  match wordOffset a with
  | 0x24 => { s with dout := s.dout.tail }
  | 0x28 => { s with eout := s.eout.tail }
  | _ => s

/-- HOST keeps the word a read returned (log 3). -/
def State.receive (s : State) (v : Word) : State :=
  { s with host := { s.host with received := s.host.received ++ [v] } }

/-- `HostRead(a)`: the value of the state before it, then its effect (R43 to R45). -/
def hostRead (a : PortAddr) (s : State) : State := (readEffect a s).receive (readValue a s)

/-- `HostWrite(0x04, v)` (R47). -/
def writeCmd (v : Word) (s : State) : State :=
  if s.cmdPend then s.setErr .cmdOvf else { s with cmdr := v, cmdPend := true }

/-- `HostWrite(a, v)` (R46 to R48). -/
def hostWrite (a : PortAddr) (v : Word) (s : State) : State :=
  match wordOffset a with
  | 0x00 => s.clearErrs (v.extractLsb' 8 8)
  | 0x04 => writeCmd v s
  | _ => s

/-- The reset input (R200). -/
def assertReset (s : State) : State := s.resetAll

/-- The turn is over: HOST's script goes on with the rest. -/
def State.withScript (s : State) (ts : List Turn) : State := { s with host := { s.host with script := ts } }

/-- The offset in HTW's window of a byte address of the host's address map, where the platform's decode selects
HTW: the address bits above bit 5 name the window at HTW_BASE or an alias of it (R41, R54; log 8). -/
def windowOffset (addr : Nat) : Option PortAddr :=
  if addr / 64 ∈ Config.htwWindows then some (BitVec.ofNat 6 addr) else none

/-- The turn of a host read at a byte address of the host's address map; none where the address is not HTW's. -/
def readAt (addr : Nat) : Option Turn := (windowOffset addr).map .read

/-- The turn of a host write at a byte address of the host's address map; none where the address is not HTW's. -/
def writeAt (addr : Nat) (v : Word) : Option Turn := (windowOffset addr).map fun a => .write a v

end Sys2Proof.Machine
end

