-- ==== Sys2Proof/Machine/Engine.lean ====
section
/-! DEFINITION. The two agents' turns: ENGINE's step and HOST's transactions (spec 10_state.md R33 to R35,
20_memory.md R56; log 1, 2). -/

namespace Sys2Proof.Machine

/-- `Execute(Decode(w))` (R33). -/
def execute (d : Decoded) (s : State) : Host.Outcome State Fault Refusal :=
  match d with
  | .instr i => exec i s
  | .illegal _ => executeIllegal s

/-- ENGINE's turn: its step where it is enabled (R33); where it is idle or held nothing changes (R34, R194; log 2). -/
def engineTurn (s : State) : Host.Outcome State Fault Refusal :=
  if s.engineEnabled then execute (decode s.cmdr) s.takeCommand else .next s

/-- Take one turn. -/
def takeTurn (t : Turn) (s : State) : Host.Outcome State Fault Refusal :=
  match t with
  | .engine => engineTurn s
  | .read a => .next (hostRead a s)
  | .write a v => .next (hostWrite a v s)
  | .resetInput => .next (assertReset s)

/-- Whose turn it is: the head of the script, ENGINE's once the script is empty. -/
def State.turn (s : State) : Turn := s.host.script.headD .engine

/-- The turn at the head has left the script. -/
def State.popTurn (s : State) : State := s.withScript s.host.script.tail

end Sys2Proof.Machine
end

