-- ==== Sys2Proof/Machine/Step.lean ====
section
/-! DEFINITION. One step of HTW: the turn at the head of HOST's script, ENGINE's where the script is empty. -/

namespace Sys2Proof.Machine

/-- One step: the turn leaves the script and is taken (10_state.md R33, R35, 20_memory.md R56). -/
def step (s : State) : Host.Outcome State Fault Refusal := takeTurn s.turn s.popTurn

/-- The command of the given word, accepted into CMDR (R47), and ENGINE's turn next: the next step executes it
(log 9). -/
def State.withFetchWord (s : State) (nbits w : Nat) : State :=
  { s with
    cmdr := BitVec.ofNat 32 (w % 2 ^ nbits), cmdPend := true,
    host := { s.host with script := .engine :: s.host.script } }

end Sys2Proof.Machine
end

