-- ==== Sys2Proof/Machine/Assembler.lean ====
section
/-! DEFINITION. Assembly lines and pseudo-commands, as pure functions to commands (spec 30_encoding.md R90, R91).
No step of HTW uses them. -/

namespace Sys2Proof.Machine

/-! ### Pseudo-commands (R91) -/

inductive Pseudo where
  | decBit (b : Bool)
  | codeInv (sym : Symbol)
  | codeWr (sym : Symbol) (c : List Bool)
  | decStream (c : List Bool)
  | encString (t : List Symbol)
  deriving DecidableEq, Repr

/-- D_k: characters `16k` to `16k + 15` of the string, the first as bit 15, padded with 0 on the right (R91). -/
def chunkData (c : List Bool) (k : Nat) : BitVec 16 :=
  (List.range 16).foldl (fun d j => setBit d (15 - j) (c.getD (16 * k + j) false)) 0#16

/-- `ceil(L / 16)`. -/
def chunkCount (c : List Bool) : Nat := (c.length + 15) / 16

/-- `CODE_WR sym, "c"` (R91): for a string of length 1 to 255. -/
def codeWrite (sym : Symbol) (c : List Bool) : List Instr :=
  .codeLen sym (BitVec.ofNat 8 c.length) ::
    (List.range (chunkCount c)).map fun k => .codeBits sym (BitVec.ofNat 4 k) (chunkData c k)

/-- `DEC_STREAM "c"` (R91). -/
def decStreamCommands (c : List Bool) : List Instr :=
  (List.range (chunkCount c)).map fun k => .decBits (min 16 (c.length - 16 * k)) (chunkData c k)

/-- The expansion of a pseudo-command; CODE_WR refuses the empty string and more than 255 bits (R91). -/
def Pseudo.expand : Pseudo → Option (List Instr)
  | .decBit b => some [.decBits 1 (setBit 0#16 15 b)]
  | .codeInv sym => some [.codeLen sym 0#8]
  | .codeWr sym c => if 1 ≤ c.length ∧ c.length ≤ 255 then some (codeWrite sym c) else none
  | .decStream c => some (decStreamCommands c)
  | .encString t => some (t.map .encSym)

/-! ### Assembly lines (R90) -/

/-- An operand as written: a number (a character literal is its number, whatever the operand; log 20), or a string in
double quotes. -/
inductive AsmOperand where
  | num (n : Nat)
  | str (cs : List Char)
  deriving DecidableEq, Repr

inductive AsmToken where
  | word (cs : List Char)
  | chr (c : Char)
  | str (cs : List Char)
  | comma
  deriving DecidableEq, Repr

/-- Where the reader of a line stands: between tokens, in a word, in a character literal before or after its
character, or in a string. The characters read so far stand in reverse. -/
inductive AsmMode where
  | idle
  | word (acc : List Char)
  | chr
  | chrEnd (c : Char)
  | str (acc : List Char)
  deriving DecidableEq, Repr

/-- The mode a character opens between tokens. -/
def openToken (c : Char) : AsmMode :=
  if c = '\'' then .chr else if c = '\"' then .str [] else .word [c]

/-- The tokens of a line; none where a literal is left open or holds not one character. -/
def tokens : AsmMode → List Char → Option (List AsmToken)
  | .idle, [] => some []
  | .word acc, [] => some [.word acc.reverse]
  | .chr, [] => none
  | .chrEnd _, [] => none
  | .str _, [] => none
  | .idle, c :: cs =>
    if c = ' ' then tokens .idle cs
    else if c = ',' then (tokens .idle cs).map (.comma :: ·)
    else tokens (openToken c) cs
  | .word acc, c :: cs =>
    if c = ' ' then (tokens .idle cs).map (.word acc.reverse :: ·)
    else if c = ',' then (tokens .idle cs).map (.word acc.reverse :: .comma :: ·)
    else tokens (.word (c :: acc)) cs
  | .chr, c :: cs => tokens (.chrEnd c) cs
  | .chrEnd c, d :: cs => if d = '\'' then (tokens .idle cs).map (.chr c :: ·) else none
  | .str acc, c :: cs =>
    if c = '\"' then (tokens .idle cs).map (.str acc.reverse :: ·) else tokens (.str (c :: acc)) cs

/-- The value of a digit. -/
def digit (c : Char) : Option Nat :=
  if '0' ≤ c ∧ c ≤ '9' then some (c.toNat - 48)
  else if 'a' ≤ c ∧ c ≤ 'f' then some (c.toNat - 87)
  else if 'A' ≤ c ∧ c ≤ 'F' then some (c.toNat - 55)
  else none

/-- A numeral in a base, most significant digit first. -/
def numeral (base : Nat) : List Char → Nat → Option Nat
  | [], n => some n
  | c :: cs, n =>
    match digit c with
    | some d => if d < base then numeral base cs (base * n + d) else none
    | none => none

/-- Decimal, or hexadecimal after 0x (R90). -/
def number : List Char → Option Nat
  | [] => none
  | ['0', 'x'] => none
  | '0' :: 'x' :: cs => numeral 16 cs 0
  | cs => numeral 10 cs 0

/-- The number of a character literal: its ASCII value (R90, G3; log 18). -/
def asciiValue (c : Char) : Option Nat := if c.toNat < 128 then some c.toNat else none

/-- One operand. DESIGN CHOICE: a character literal is taken wherever a number is, so also for an operand that is not a
symbol; R90 grants it to a symbol and says nothing of the others (log 20). -/
def operand : AsmToken → Option AsmOperand
  | .word cs => (number cs).map .num
  | .chr c => (asciiValue c).map .num
  | .str cs => some (.str cs)
  | .comma => none

/-- Operands separated by commas. -/
def operandList : List AsmToken → Option (List AsmOperand)
  | [] => some []
  | [t] => (operand t).map ([·])
  | t :: .comma :: ts =>
    if ts = [] then none
    else
      match operand t, operandList ts with
      | some x, some xs => some (x :: xs)
      | _, _ => none
  | _ :: _ :: _ => none

/-- An operand that fits a field of `w` bits; the assembler refuses any other (R90). -/
def fit (w n : Nat) : Option (BitVec w) := if n < 2 ^ w then some (BitVec.ofNat w n) else none

/-- A bit string in double quotes (R10). -/
def bitString : List Char → Option (List Bool)
  | [] => some []
  | c :: cs =>
    match bitString cs with
    | some bs => if c = '0' then some (false :: bs) else if c = '1' then some (true :: bs) else none
    | none => none

/-- The symbols of a text in double quotes (R91). -/
def symbolString : List Char → Option (List Symbol)
  | [] => some []
  | c :: cs =>
    match asciiValue c, symbolString cs with
    | some n, some ss => some (BitVec.ofNat 8 n :: ss)
    | _, _ => none

/-- The command of a mnemonic and its operands (R90). -/
def assembleCommand (mnemonic : String) (ops : List AsmOperand) : Option Instr :=
  match mnemonic, ops with
  | "NOP", [] => some .nop
  | "SRST", [] => some .srst
  | "TREE_INT", [.num i, .num l, .num r] => do return .treeInt (← fit 9 i) (← fit 9 l) (← fit 9 r)
  | "TREE_LEAF", [.num i, .num s] => do return .treeLeaf (← fit 9 i) (← fit 8 s)
  | "ROOT_SET", [.num i] => do return .rootSet (← fit 9 i)
  | "ROOT_CLR", [] => some .rootClr
  | "CODE_LEN", [.num s, .num n] => do return .codeLen (← fit 8 s) (← fit 8 n)
  | "CODE_BITS", [.num s, .num c, .num d] => do return .codeBits (← fit 8 s) (← fit 4 c) (← fit 16 d)
  | "DEC_START", [] => some .decStart
  | "DEC_BITS", [.num n, .num d] => if 1 ≤ n ∧ n ≤ 16 then do return .decBits n (← fit 16 d) else none
  | "DEC_END", [] => some .decEnd
  | "ENC_START", [] => some .encStart
  | "ENC_SYM", [.num s] => do return .encSym (← fit 8 s)
  | "ENC_FLUSH", [] => some .encFlush
  | _, _ => none

/-- How a command is written: its mnemonic and operands (R90). -/
def asmForm : Instr → String × List AsmOperand
  | .nop => ("NOP", [])
  | .srst => ("SRST", [])
  | .treeInt idx left right => ("TREE_INT", [.num idx.toNat, .num left.toNat, .num right.toNat])
  | .treeLeaf idx sym => ("TREE_LEAF", [.num idx.toNat, .num sym.toNat])
  | .rootSet idx => ("ROOT_SET", [.num idx.toNat])
  | .rootClr => ("ROOT_CLR", [])
  | .codeLen sym len => ("CODE_LEN", [.num sym.toNat, .num len.toNat])
  | .codeBits sym chunk data => ("CODE_BITS", [.num sym.toNat, .num chunk.toNat, .num data.toNat])
  | .decStart => ("DEC_START", [])
  | .decBits n data => ("DEC_BITS", [.num n, .num data.toNat])
  | .decEnd => ("DEC_END", [])
  | .encStart => ("ENC_START", [])
  | .encSym sym => ("ENC_SYM", [.num sym.toNat])
  | .encFlush => ("ENC_FLUSH", [])

/-- The pseudo-command of a mnemonic and its operands (R91). -/
def assemblePseudo (mnemonic : String) (ops : List AsmOperand) : Option Pseudo :=
  match mnemonic, ops with
  | "DEC_BIT", [.num b] => do return .decBit ((← fit 1 b) == 1#1)
  | "CODE_INV", [.num s] => do return .codeInv (← fit 8 s)
  | "CODE_WR", [.num s, .str c] => do return .codeWr (← fit 8 s) (← bitString c)
  | "DEC_STREAM", [.str c] => do return .decStream (← bitString c)
  | "ENC_STRING", [.str t] => do return .encString (← symbolString t)
  | _, _ => none

/-- One line: the mnemonic, then its operands separated by commas (R90; log 13). -/
def assembleLine (line : List Char) : Option (List Instr) :=
  match tokens .idle line with
  | some (.word m :: ts) =>
    match operandList ts with
    | some ops =>
      match assembleCommand (String.ofList m) ops with
      | some i => some [i]
      | none => (assemblePseudo (String.ofList m) ops).bind Pseudo.expand
    | none => none
  | _ => none

end Sys2Proof.Machine
end

