-- ==== Sys2Proof/Machine/HostRef.lean ====
section
/-! DEFINITION. The host-side reference functions, as pure functions (spec 40_host_reference.md R100 to R115), and the
turns with which a host that drains the FIFOs runs commands (R110, R113). None is a step of HTW (00_scope.md R5). -/

namespace Sys2Proof.Machine

/-! ### FrequencyTable (R100) -/

/-- The distinct symbols of a sequence, by first occurrence. -/
def distinct : List Symbol → List Symbol
  | [] => []
  | s :: S => s :: (distinct S).filter (· ≠ s)

/-- `freq(S)`: the distinct symbols by first occurrence, each with its number of occurrences. -/
def freq (S : List Symbol) : List (Symbol × Nat) := (distinct S).map fun s => (s, S.count s)

/-! ### TreeBuilder (R101 to R105) -/

/-- A tree of R103: each node carries its `seq` (its index in `node[]`) and its weight (log 14). -/
inductive HTree where
  | leaf (seq : Nat) (sym : Symbol) (weight : Nat)
  | node (seq : Nat) (weight : Nat) (left right : HTree)
  deriving DecidableEq, Repr

def HTree.seq : HTree → Nat
  | .leaf q _ _ => q
  | .node q _ _ _ => q

def HTree.weight : HTree → Nat
  | .leaf _ _ w => w
  | .node _ w _ _ => w

/-- The key order of R103: lower weight first, among equal weights lower seq first. -/
def keyBefore (a b : HTree) : Bool :=
  decide (a.weight < b.weight) || (decide (a.weight = b.weight) && decide (a.seq < b.seq))

/-- Insert into the collection Q, held as a list by rising key. -/
def insertKey (t : HTree) : List HTree → List HTree
  | [] => [t]
  | u :: q => if keyBefore t u then t :: u :: q else u :: insertKey t q

/-- `node[seq] <- Leaf(s, freq[s])` for each key in order, from the given seq. -/
def leavesFrom : Nat → List (Symbol × Nat) → List HTree
  | _, [] => []
  | q, (s, w) :: table => .leaf q s w :: leavesFrom (q + 1) table

/-- The merge loop of R103: the first-extracted node is the left child (R104). The first argument bounds the
rounds. -/
def mergeLoop : Nat → Nat → List HTree → Option HTree
  | _, _, [] => none
  | _, _, [t] => some t
  | 0, _, _ :: _ :: _ => none
  | rounds + 1, seq, a :: b :: q =>
    mergeLoop rounds (seq + 1) (insertKey (.node seq (a.weight + b.weight) a b) q)

/-- `build(table)` (R101 to R103). -/
def build (table : List (Symbol × Nat)) : Option HTree :=
  mergeLoop table.length table.length ((leavesFrom 0 table).foldr insertKey [])

/-- R105: every internal node weighs what its children weigh together. -/
def HTree.weightsAdd : HTree → Bool
  | .leaf _ _ _ => true
  | .node _ w l r => decide (w = l.weight + r.weight) && l.weightsAdd && r.weightsAdd

/-! ### CodeGenerator (R106 to R108) -/

/-- A CodeTable: symbols with their bit strings, position 0 first. -/
abbrev CodeTable := List (Symbol × List Bool)

/-- The traversal of R107, below the path accumulated from the root. -/
def pathCodes (path : List Bool) : HTree → CodeTable
  | .leaf _ s _ => [(s, path)]
  | .node _ _ l r => pathCodes (path ++ [false]) l ++ pathCodes (path ++ [true]) r

/-- `generate(root)` (R106, R107). -/
def generate : HTree → CodeTable
  | .leaf _ s _ => [(s, [false])]
  | .node q w l r => pathCodes [] (.node q w l r)

/-! ### Reference encode and decode (R111, R112) -/

/-- The document's errors. -/
inductive CodecError where
  | unknownSymbol
  | truncatedStream
  | missingTree
  deriving DecidableEq, Repr

/-- `enc(S, table)` (R111). -/
def enc : List Symbol → CodeTable → Except CodecError (List Bool)
  | [], _ => .ok []
  | s :: S, table =>
    match table.lookup s with
    | none => .error .unknownSymbol
    | some c =>
      match enc S table with
      | .ok bits => .ok (c ++ bits)
      | .error e => .error e

/-- The walk of R112 from a position below a root: the symbols emitted and the position reached. -/
def decFrom (root : HTree) : HTree → List Bool → List Symbol × HTree
  | cur, [] => ([], cur)
  | cur, b :: bs =>
    match root, cur with
    | .leaf _ s _, _ => (s :: (decFrom root root bs).1, (decFrom root root bs).2)
    | .node _ _ _ _, .leaf _ _ _ => ([], cur)
    | .node _ _ _ _, .node _ _ l r =>
      match (if b then r else l) with
      | .leaf _ s _ => (s :: (decFrom root root bs).1, (decFrom root root bs).2)
      | .node q w l' r' => decFrom root (.node q w l' r') bs

/-- `dec(B, root)` (R112): MissingTree where there is no tree, TruncatedStream where the walk does not end at the
root. -/
def dec (bits : List Bool) : Option HTree → Except CodecError (List Symbol)
  | none => .error .missingTree
  | some root =>
    if (decFrom root root bits).2 = root then .ok (decFrom root root bits).1 else .error .truncatedStream

/-! ### Loading (R109, R110) -/

/-- Every node of a tree. -/
def HTree.nodes : HTree → List HTree
  | .leaf q s w => [.leaf q s w]
  | .node q w l r => .node q w l r :: (l.nodes ++ r.nodes)

/-- Every node of a tree in index order: `node[0]`, `node[1]`, ... (R109). -/
def HTree.nodesInOrder (t : HTree) : List HTree :=
  (List.range (t.seq + 1)).filterMap fun q => t.nodes.find? fun n => n.seq == q

/-- The index of a node in TREE (R109). -/
def HTree.index (t : HTree) : NodeIdx := BitVec.ofNat 9 t.seq

/-- The command that writes a node at its index (R110). -/
def nodeCommand : HTree → Instr
  | .leaf q s _ => .treeLeaf (BitVec.ofNat 9 q) s
  | .node q _ l r => .treeInt (BitVec.ofNat 9 q) l.index r.index

/-- The commands of a leaf's code; leaves stand by first occurrence of their symbol (R100, R103). -/
def codeCommands (table : CodeTable) : HTree → List Instr
  | .leaf _ s _ =>
    match table.lookup s with
    | some c => codeWrite s c
    | none => []
  | .node _ _ _ _ => []

/-- `load(tree, table)` (R110). -/
def load : Option HTree → CodeTable → List Instr
  | none, _ => [.rootClr]
  | some t, table =>
    t.nodesInOrder.map nodeCommand ++ .rootSet t.index :: t.nodesInOrder.flatMap (codeCommands table)

/-- TREE holds a tree: every node of it stands valid at its index. -/
def HoldsTree (m : Memory Node) : HTree → Prop
  | .leaf q s _ => q < Config.nnodes ∧ m.read q = some (.leaf s)
  | .node q _ l r =>
    q < Config.nnodes ∧ m.read q = some (.internal l.index r.index) ∧ HoldsTree m l ∧ HoldsTree m r

/-- R115: the compression ratio a host computes from the counters, ENC_NBITS / (8 * ENC_NSYMS), as numerator and
denominator. The quotient of an empty session is stated nowhere, so the host's division is left to it. -/
def State.compressionRatio (s : State) : Nat × Nat := (s.encNbits.toNat, 8 * s.encNsyms.toNat)

/-! ### A host that waits for each command and drains the FIFOs (R113, R203, R206) -/

/-- Write a command to CMD and let ENGINE take its step. -/
def issue (i : Instr) : List Turn := [.write 0x04#6 (encode i), .engine]

/-- Pop as many bytes as one command can push. -/
def drainEout : List Turn := List.replicate 32 (.read 0x28#6)

/-- Pop as many symbols as one command can push. -/
def drainDout : List Turn := List.replicate 16 (.read 0x24#6)

/-- The commands of an encode session (R113). -/
def encodeTurns (S : List Symbol) : List Turn :=
  (Instr.encStart :: S.map Instr.encSym ++ [Instr.encFlush]).flatMap fun i => issue i ++ drainEout

/-- The commands of a decode session (R113). -/
def decodeTurns (bits : List Bool) : List Turn :=
  (Instr.decStart :: decStreamCommands bits ++ [Instr.decEnd]).flatMap fun i => issue i ++ drainDout

/-- The values HOST popped: the low bytes of the words returned with VALID = 1 (R44, R45). -/
def popped (words : List Word) : List (BitVec 8) :=
  words.filterMap fun v => if v.getLsbD 8 then some (v.extractLsb' 0 8) else none

/-- Run a script of turns to its end. -/
def runTurns (ts : List Turn) (s : State) : Host.Outcome State Fault Refusal :=
  Host.Core.run Sys2Proof.core ts.length (s.withScript ts)

end Sys2Proof.Machine
end

