-- ==== Sys2Proof/Safety.lean ====
section
/-! DEFINITION. The terms statements use: the invariant of the state, what a step does, and the host duties that a
safe run keeps (spec 10_state.md, 70_reset_and_hazards.md R203, R205). -/

namespace Sys2Proof.Machine

/-- Every piece of HTW's state at its value after reset: the table of R32. -/
structure State.AtResetTable (s : State) : Prop where
  err : s.err = 0x00#8
  cmdPend : s.cmdPend = false
  cmdr : s.cmdr = 0x00000000#32
  root : s.root = 0#9
  rootValid : s.rootValid = false
  cur : s.cur = 0#9
  decActive : s.decActive = false
  encActive : s.encActive = false
  pbuf : s.pbuf = 0x00#8
  pcnt : s.pcnt = 0#3
  decNbits : s.decNbits = 0#32
  decNsyms : s.decNsyms = 0#32
  encNbits : s.encNbits = 0#32
  encNsyms : s.encNsyms = 0#32
  nodes : ∀ i, s.nodeValid i = false
  codes : ∀ c, s.codeValid c = false
  dout : s.dout = []
  eout : s.eout = []

/-- R82 (b): a reserved bit of the word's format (R72 to R79) is not 0. TREE_INT and CODE_BITS have none. -/
def reservedBitsSet (w : Word) : Prop :=
  match (w.extractLsb' 28 4).toNat with
  | 0x0 => w.extractLsb' 0 28 ≠ 0
  | 0x1 => w.extractLsb' 0 28 ≠ 0
  | 0x2 => w.getLsbD 27 = true ∧ w.extractLsb' 8 10 ≠ 0
  | 0x3 => if w.getLsbD 27 then w.extractLsb' 0 27 ≠ 0 else w.extractLsb' 9 18 ≠ 0
  | 0x4 => w.extractLsb' 0 12 ≠ 0
  | 0x6 => w.extractLsb' 0 28 ≠ 0
  | 0x7 => w.extractLsb' 20 8 ≠ 0
  | 0x8 => w.extractLsb' 0 28 ≠ 0
  | 0x9 => w.extractLsb' 0 28 ≠ 0
  | 0xA => w.extractLsb' 8 20 ≠ 0
  | 0xB => w.extractLsb' 0 28 ≠ 0
  | _ => False

/-- R21: the low bits of PBUF, those that hold no code bit, are 0. -/
def State.packerClear (s : State) : Prop := ∀ i, i + s.pcnt.toNat < 8 → s.pbuf.getLsbD i = false

/-- What holds in every state HTW can be in: TREE and CODE in canonical form within their index range (R26 to R29),
a valid code not empty (R28), the packer's low bits 0 (R21), each FIFO within its depth (R30, R31). -/
structure State.Inv (s : State) : Prop where
  tree_wf : s.tree.wf Config.nnodes = true
  code_wf : s.code.wf Config.nsym = true
  code_len : ∀ p ∈ s.code, p.2.len ≠ 0#8
  packer : s.packerClear
  dout_depth : s.dout.length ≤ Config.doutDepth
  eout_depth : s.eout.length ≤ Config.eoutDepth

/-- The step of this state executes CMDR (R33). -/
def State.enginesStep (s : State) : Bool := decide (s.turn = .engine) && s.engineEnabled

/-- The command the step of this state executes, if it executes one. -/
def State.executing (s : State) : Option Instr :=
  if s.enginesStep then (decode s.cmdr).instr? else none

/-- The step of this state is a reset event (R200). -/
def State.isReset (s : State) : Bool := decide (s.turn = .resetInput) || decide (s.executing = some .srst)

/-- The step of this state is an accepted write of CMD (R47). -/
def State.acceptsCommand (s : State) : Bool :=
  match s.turn with
  | .write a _ => decide (wordOffset a = 0x04) && !s.cmdPend
  | _ => false

/-- R203: HOST writes CMD only while CMD_PEND = 0. -/
def State.pollsFirst (s : State) : Prop :=
  match s.turn with
  | .write a _ => wordOffset a = 0x04 → s.cmdPend = false
  | _ => True

/-- R205: no command that changes the tree executes while a decode session is open, and none that changes the code
table while an encode session is open. -/
def State.keepsTables (s : State) : Prop :=
  match s.executing with
  | some (.treeInt _ _ _) => s.decActive = false
  | some (.treeLeaf _ _) => s.decActive = false
  | some (.rootSet _) => s.decActive = false
  | some .rootClr => s.decActive = false
  | some (.codeLen _ _) => s.encActive = false
  | some (.codeBits _ _ _) => s.encActive = false
  | _ => True

/-- The state with other error bits. -/
def State.withErr (s : State) (e : BitVec 8) : State := { s with err := e }

/-- The state with everything of the encoder taken from `u`: CODE, the session, the packer, the counters, EOUT. -/
def State.withEncoderOf (s u : State) : State :=
  { s with
    code := u.code, encActive := u.encActive, pbuf := u.pbuf, pcnt := u.pcnt,
    encNbits := u.encNbits, encNsyms := u.encNsyms, eout := u.eout }

/-- The state with everything of the decoder taken from `u`: TREE, the root, CUR, the session, the counters, DOUT. -/
def State.withDecoderOf (s u : State) : State :=
  { s with
    tree := u.tree, root := u.root, rootValid := u.rootValid, cur := u.cur, decActive := u.decActive,
    decNbits := u.decNbits, decNsyms := u.decNsyms, dout := u.dout }

/-- Execute commands one after the other, each where the one before it left the machine. -/
def execAll : List Instr → State → Host.Outcome State Fault Refusal
  | [], s => .next s
  | i :: is, s =>
    match exec i s with
    | .next t => execAll is t
    | .fault f => .fault f
    | .refused r => .refused r

end Sys2Proof.Machine
end

