-- ==== Sys2Proof/Certificates/Slice0/Obligations.lean ====
section
/-! DEFINITION. The statements about HTW for the provers, one per entry of OBLIGATIONS.json. -/

open Sys2Proof Sys2Proof.Machine

/-! ### Encoding -/

/-- 30_encoding.md R70 to R81: the decoder reads every well-formed command back from its word. -/
def Obligations.DecodeOfEncode : Prop :=
  ∀ i : Instr, i.wellFormed = true → decode (encode i) = .instr i

/-- R70 to R81: every word that decodes to a command is that command's word, and the command is well formed. -/
def Obligations.EncodeOfDecode : Prop :=
  ∀ (w : Word) (i : Instr), decode w = .instr i → i.wellFormed = true ∧ encode i = w

/-- R81: no word is covered by two rows of the table, and a word that a row covers decodes by that row, so the order
of the rows does not matter. -/
def Obligations.NoWordMatchesTwoRows : Prop :=
  ∀ (w : Word), ∀ r ∈ encodingRows, r.covers w = true →
    decode w = .instr (r.operands w) ∧ ∀ r' ∈ encodingRows, r'.covers w = true → r'.mnemonic = r.mnemonic

/-- R82: which words are ILLEGAL, by class, and that executing one sets ERR_ILLEGAL_CMD and changes nothing else. -/
def Obligations.IllegalWordsRaiseIllegalCmd : Prop :=
  (∀ w : Word,
    (decode w = .illegal .reservedOpcode ↔ 0xC ≤ (w.extractLsb' 28 4).toNat) ∧
    (decode w = .illegal .reservedBits ↔ reservedBitsSet w)) ∧
  ∀ (s : State) (why : Illegal), s.turn = .engine → s.cmdPend = true → decode s.cmdr = .illegal why →
    ∃ t, step s = .next t ∧ t = { s.popTurn with cmdPend := false, err := t.err } ∧
      ∀ e, t.hasErr e = (s.hasErr e || decide (e = .illegalCmd))

/-- Words of 95_test_vectors.md 0.1 and 2.1, at least one of each family, and what they decode to. -/
def Obligations.DecodesWordsOfTheSpec : Prop :=
  decode 0x00000000#32 = .instr .nop ∧
  decode 0x20140604#32 = .instr (.treeInt 5#9 3#9 4#9) ∧
  decode 0x2FFC00FF#32 = .instr (.treeLeaf 511#9 0xFF#8) ∧
  decode 0x54308000#32 = .instr (.codeBits 0x43#8 0#4 0x8000#16) ∧
  decode 0x700F6E8A#32 = .instr (.decBits 16 0x6E8A#16) ∧
  decode 0xA0000042#32 = .instr (.encSym 0x42#8) ∧
  decode 0x2803FF00#32 = .illegal .reservedBits ∧
  decode 0xC0000000#32 = .illegal .reservedOpcode

/-! ### Steps -/

/-- 10_state.md R33: ENGINE's step is enabled exactly when a command is pending and not held. It clears CMD_PEND and
executes what CMDR decodes to; where it is not enabled ENGINE is idle. The last clause says the same of a command that
withFetchWord places. -/
def Obligations.StepRunsTheDecodedCommand : Prop :=
  (∀ s : State, s.turn = .engine →
    (∀ i, s.cmdPend = true → decode s.cmdr = .instr i → held i s = false →
      step s = exec i { s.popTurn with cmdPend := false }) ∧
    (∀ why, s.cmdPend = true → decode s.cmdr = .illegal why →
      step s = .next ({ s.popTurn with cmdPend := false }.setErr .illegalCmd)) ∧
    (∀ i, s.cmdPend = true → decode s.cmdr = .instr i → held i s = true → step s = .next s.popTurn) ∧
    (s.cmdPend = false → step s = .next s.popTurn)) ∧
  ∀ (s : State) (w : Word) (i : Instr), decode w = .instr i → held i s = false →
    step (s.withFetchWord 32 w.toNat) = exec i { s with cmdr := w, cmdPend := false }

/-- R34: when a command is held (an ILLEGAL word never is), that nothing else decides it, that a held command stays,
and that only a host pop lifts the hold. -/
def Obligations.HeldExactlyWithoutRoom : Prop :=
  (∀ (i : Instr) (s : State), i.wellFormed = true →
    (held i s = true ↔
      (∃ n data, i = .decBits n data ∧ Config.doutDepth - s.dout.length < n) ∨
      (∃ sym, i = .encSym sym ∧ Config.eoutDepth - s.eout.length < 32) ∨
      (i = .encFlush ∧ Config.eoutDepth - s.eout.length < 1))) ∧
  (∀ s : State, (∀ i, decode s.cmdr = .instr i → s.heldCmdr = held i s) ∧
    ∀ why, decode s.cmdr = .illegal why → s.heldCmdr = false) ∧
  (∀ (i : Instr) (s t : State), s.dout.length = t.dout.length → s.eout.length = t.eout.length →
    held i s = held i t) ∧
  (∀ s : State, s.turn = .engine → s.cmdPend = true → s.heldCmdr = true → step s = .next s.popTurn) ∧
  ∀ s t : State, s.cmdPend = true → s.heldCmdr = true → step s = .next t → t.cmdPend = true → t.heldCmdr = false →
    ∃ a, s.turn = .read a ∧
      (wordOffset a = 0x24 ∧ t.dout.length < s.dout.length ∨ wordOffset a = 0x28 ∧ t.eout.length < s.eout.length)

/-- The reservation of R34 suffices: whatever the state and whoever's turn it is, a step answers a next state. So no
push finds its FIFO full (42_encoder.md, 43_decoder.md) and no error stops the machine (60_exceptions.md R183). That
an idle or held turn of ENGINE answers a next state is the model's choice (log 2): R33, R34 and 93 U10 give ENGINE no
step there. -/
def Obligations.EveryStepAnswersNext : Prop :=
  ∀ s : State, ∃ t, step s = .next t

/-- 10_state.md R32: the machine right after reset, and STATUS as HOST then reads it. -/
def Obligations.ResetStateHoldsTheTable : Prop :=
  State.reset.AtResetTable ∧ readValue 0x00#6 State.reset = 0x00000000#32

/-- The invariant of the model holds right after reset. -/
def Obligations.ResetStateHasTheInvariant : Prop := State.reset.Inv

/-- 10_state.md R21, R26 to R31: every step keeps the invariant, from every state that has it. -/
def Obligations.StepKeepsInvariant : Prop :=
  ∀ s t : State, s.Inv → step s = .next t → t.Inv

/-- R16, 20_memory.md R57: CMD_PEND rises only by an accepted CMD write, which loads CMDR, and falls only when ENGINE
executes CMDR or at the reset input. CMDR changes in no other way but a reset. -/
def Obligations.CommandPendingRisesAndFalls : Prop :=
  ∀ s t : State, step s = .next t →
    (s.cmdPend = true → t.cmdPend = false → s.enginesStep = true ∨ s.turn = .resetInput) ∧
    (s.cmdPend = false → t.cmdPend = true → ∃ a v, s.turn = .write a v ∧ wordOffset a = 0x04 ∧ t.cmdr = v) ∧
    (t.cmdr ≠ s.cmdr → s.acceptsCommand = true ∨ s.isReset = true) ∧
    (s.enginesStep = true → t.cmdPend = false)

/-! ### The register port -/

/-- 20_memory.md R43, with the read column of R42: a read of a word other than DOUT and EOUT returns its register and
changes no state of HTW. -/
def Obligations.PlainReadsReturnTheirRegister : Prop :=
  (∀ a : PortAddr, wordOffset a = 4 * (a.toNat / 4)) ∧
  ∀ (s : State) (a : PortAddr), s.turn = .read a → wordOffset a ≠ 0x24 → wordOffset a ≠ 0x28 →
    ∃ v, step s = .next (s.popTurn.receive v) ∧
      (wordOffset a = 0x00 →
        v.getLsbD 0 = s.cmdPend ∧ v.getLsbD 1 = s.decActive ∧ v.getLsbD 2 = s.encActive ∧
        v.getLsbD 3 = s.rootValid ∧ v.getLsbD 4 = decide (0 < s.dout.length) ∧
        v.getLsbD 5 = decide (0 < s.eout.length) ∧ v.getLsbD 6 = false ∧ v.getLsbD 7 = false ∧
        (∀ e : ErrCause, v.getLsbD e.bitNo = s.hasErr e) ∧ ∀ i, 16 ≤ i → v.getLsbD i = false) ∧
      (wordOffset a = 0x04 → v = 0x00000000#32) ∧
      (wordOffset a = 0x08 → v.toNat = s.root.toNat) ∧
      (wordOffset a = 0x0C → v.toNat = s.cur.toNat) ∧
      (wordOffset a = 0x10 → v = s.decNbits) ∧
      (wordOffset a = 0x14 → v = s.decNsyms) ∧
      (wordOffset a = 0x18 → v = s.encNbits) ∧
      (wordOffset a = 0x1C → v = s.encNsyms) ∧
      (wordOffset a = 0x20 → v.toNat = 256 * s.pcnt.toNat + s.pbuf.toNat) ∧
      (0x2C ≤ wordOffset a → v = 0x00000000#32)

/-- R44: a read of 0x24 pops DOUT, or returns 0 where it is empty; nothing else but a reset shortens DOUT; a pop may
lift a hold. -/
def Obligations.DoutReadPops : Prop :=
  (∀ (s : State) (a : PortAddr) (x : Symbol) (q : List Symbol), s.turn = .read a → wordOffset a = 0x24 →
    s.dout = x :: q →
    ∃ v, step s = .next ({ s.popTurn with dout := q }.receive v) ∧ v.toNat = 256 + x.toNat) ∧
  (∀ (s : State) (a : PortAddr), s.turn = .read a → wordOffset a = 0x24 → s.dout = [] →
    step s = .next (s.popTurn.receive 0x00000000#32)) ∧
  (∀ s t : State, step s = .next t → t.dout.length < s.dout.length →
    (∃ a, s.turn = .read a ∧ wordOffset a = 0x24) ∨ s.isReset = true) ∧
  ∃ (s t : State) (a : PortAddr), s.turn = .read a ∧ wordOffset a = 0x24 ∧ s.cmdPend = true ∧ s.heldCmdr = true ∧
    step s = .next t ∧ t.engineEnabled = true

/-- R45: the same of 0x28 and EOUT. -/
def Obligations.EoutReadPops : Prop :=
  (∀ (s : State) (a : PortAddr) (x : Byte) (q : List Byte), s.turn = .read a → wordOffset a = 0x28 →
    s.eout = x :: q →
    ∃ v, step s = .next ({ s.popTurn with eout := q }.receive v) ∧ v.toNat = 256 + x.toNat) ∧
  (∀ (s : State) (a : PortAddr), s.turn = .read a → wordOffset a = 0x28 → s.eout = [] →
    step s = .next (s.popTurn.receive 0x00000000#32)) ∧
  (∀ s t : State, step s = .next t → t.eout.length < s.eout.length →
    (∃ a, s.turn = .read a ∧ wordOffset a = 0x28) ∨ s.isReset = true) ∧
  ∃ (s t : State) (a : PortAddr), s.turn = .read a ∧ wordOffset a = 0x28 ∧ s.cmdPend = true ∧ s.heldCmdr = true ∧
    step s = .next t ∧ t.engineEnabled = true

/-- R46 to R48: what each host write does. -/
def Obligations.HostWritesDoWhatTheMapSays : Prop :=
  (∀ (s : State) (a : PortAddr) (v : Word), s.turn = .write a v → wordOffset a = 0x00 →
    ∃ t, step s = .next t ∧ t = { s.popTurn with err := t.err } ∧
      (∀ e : ErrCause, t.hasErr e = (s.hasErr e && !v.getLsbD e.bitNo)) ∧ (v = 0 → t = s.popTurn)) ∧
  (∀ (s : State) (a : PortAddr) (v : Word), s.turn = .write a v → wordOffset a = 0x04 →
    (s.cmdPend = false → step s = .next { s.popTurn with cmdr := v, cmdPend := true }) ∧
    (s.cmdPend = true → ∃ t, step s = .next t ∧ t = { s.popTurn with err := t.err } ∧
      ∀ e, t.hasErr e = (s.hasErr e || decide (e = .cmdOvf))) ∧
    (∀ why t, s.cmdPend = false → decode v = .illegal why → step s = .next t → t.turn = .engine →
      ∃ u, step t = .next u ∧ u.hasErr .illegalCmd = true)) ∧
  ∀ (s : State) (a : PortAddr) (v : Word), s.turn = .write a v → wordOffset a ≠ 0x00 → wordOffset a ≠ 0x04 →
    step s = .next s.popTurn

/-! ### Errors -/

/-- 60_exceptions.md R182: the only ways an error bit becomes 0, and what each of them clears. -/
def Obligations.ErrorBitsClearOnlyByTheRule : Prop :=
  ∀ s t : State, step s = .next t →
    (∀ e, s.hasErr e = true → t.hasErr e = false →
      (∃ a v, s.turn = .write a v ∧ wordOffset a = 0x00 ∧ v.getLsbD e.bitNo = true) ∨
      (s.executing = some .decStart ∧ 10 ≤ e.bitNo ∧ e.bitNo ≤ 13) ∨
      (s.executing = some .encStart ∧ 14 ≤ e.bitNo) ∨
      s.isReset = true) ∧
    (∀ a v e, s.turn = .write a v → wordOffset a = 0x00 → v.getLsbD e.bitNo = true → t.hasErr e = false) ∧
    (s.executing = some .decStart →
      t.hasErr .truncated = false ∧ t.hasErr .decSeq = false ∧ t.hasErr .missingTree = !s.rootValid ∧
      t.hasErr .malformedTree = (s.rootValid && !s.nodeValid s.root)) ∧
    (s.executing = some .encStart → t.hasErr .unknownSymbol = false ∧ t.hasErr .encSeq = false) ∧
    (s.isReset = true → ∀ e, t.hasErr e = false)

/-- R180: what can set each error bit. -/
def Obligations.ErrorBitsSetOnlyByTheirCause : Prop :=
  ∀ (s t : State) (e : ErrCause), step s = .next t → s.hasErr e = false → t.hasErr e = true →
    match e with
    | .illegalCmd => s.enginesStep = true ∧ ∃ why, decode s.cmdr = .illegal why
    | .cmdOvf => (∃ a v, s.turn = .write a v ∧ wordOffset a = 0x04) ∧ s.cmdPend = true
    | .missingTree =>
      (s.executing = some .decStart ∨ ∃ n data, s.executing = some (.decBits n data)) ∧ s.rootValid = false
    | .malformedTree =>
      (s.executing = some .decStart ∧ s.nodeValid s.root = false ∨ ∃ n data, s.executing = some (.decBits n data)) ∧
        s.rootValid = true
    | .truncated => s.executing = some .decEnd ∧ s.cur ≠ s.root
    | .decSeq =>
      ((∃ n data, s.executing = some (.decBits n data)) ∨ s.executing = some .decEnd) ∧ s.decActive = false
    | .unknownSymbol => ∃ c, s.executing = some (.encSym c) ∧ s.codeValid c = false
    | .encSeq => ((∃ c, s.executing = some (.encSym c)) ∨ s.executing = some .encFlush) ∧ s.encActive = false

/-- R185: a step sets at most one error bit. -/
def Obligations.AtMostOneErrorPerStep : Prop :=
  ∀ (s t : State) (e e' : ErrCause), step s = .next t →
    s.hasErr e = false → t.hasErr e = true → s.hasErr e' = false → t.hasErr e' = true → e = e'

/-- R183: error bits stop nothing. Whatever they are, a command is held or not alike, and executes to the same state
but for the error bits; two error bits of any value end in error bits that differ only where they did before. -/
def Obligations.ErrorBitsStopNothing : Prop :=
  ∀ (i : Instr) (s t : State) (x : BitVec 8), exec i s = .next t →
    held i (s.withErr x) = held i s ∧
    ∃ t', exec i (s.withErr x) = .next t' ∧ t'.withErr t.err = t ∧
      ∀ e, s.hasErr e = (s.withErr x).hasErr e → t.hasErr e = t'.hasErr e

/-! ### Control and load commands -/

/-- 41_control_load.md R120: NOP changes nothing; its word; every other word of its opcode is ILLEGAL; written while a
command is pending it overflows like any other. -/
def Obligations.NopChangesNothing : Prop :=
  (∀ s : State, exec .nop s = .next s) ∧ encode .nop = 0x00000000#32 ∧
  (∀ w : Word, w.extractLsb' 28 4 = 0x0#4 → w ≠ 0x00000000#32 → ∃ why, decode w = .illegal why) ∧
  ∀ (s : State) (a : PortAddr), s.turn = .write a (encode .nop) → wordOffset a = 0x04 → s.cmdPend = true →
    ∃ t, step s = .next t ∧ t.hasErr .cmdOvf = true

/-- R121, 70_reset_and_hazards.md R200: SRST and the reset input put every piece of state at its value after reset, in
one step, whatever was pending, open, queued or loaded. -/
def Obligations.BothResetsReachTheResetState : Prop :=
  encode .srst = 0x10000000#32 ∧
  (∀ s : State, ∃ t, exec .srst s = .next t ∧ t.AtResetTable ∧ readValue 0x00#6 t = 0x00000000#32) ∧
  (∀ s : State, s.turn = .resetInput → ∃ t, step s = .next t ∧ t.AtResetTable) ∧
  ∀ s : State, s.executing = some .srst → ∃ t, step s = .next t ∧ t.AtResetTable

/-- R122, R123: TREE_INT and TREE_LEAF write one entry and its valid bit, for every operand value, and nothing else. -/
def Obligations.TreeCommandsWriteOneNode : Prop :=
  (∀ (s : State) (idx left right : NodeIdx), ∃ t, exec (.treeInt idx left right) s = .next t ∧
    t = { s with tree := t.tree } ∧ t.nodeValid idx = true ∧
    ∀ j, t.nodeAt j = if j = idx then some (.internal left right) else s.nodeAt j) ∧
  (∀ (s : State) (idx : NodeIdx) (sym : Symbol), ∃ t, exec (.treeLeaf idx sym) s = .next t ∧
    t = { s with tree := t.tree } ∧ t.nodeValid idx = true ∧
    ∀ j, t.nodeAt j = if j = idx then some (.leaf sym) else s.nodeAt j) ∧
  (∀ idx left right : NodeIdx, (encode (.treeInt idx left right)).toNat =
    0x20000000 + idx.toNat * 2 ^ 18 + left.toNat * 2 ^ 9 + right.toNat) ∧
  (∀ (idx : NodeIdx) (sym : Symbol), (encode (.treeLeaf idx sym)).toNat =
    0x28000000 + idx.toNat * 2 ^ 18 + sym.toNat) ∧
  ∀ w : Word, w.extractLsb' 27 5 = 0b00101#5 → w.extractLsb' 8 10 ≠ 0#10 → ∃ why, decode w = .illegal why

/-- R124, R125: ROOT_SET and ROOT_CLR, what HOST then reads, and what an open decode session then does. -/
def Obligations.RootCommandsSetAndClear : Prop :=
  (∀ (s : State) (idx : NodeIdx), ∃ t, exec (.rootSet idx) s = .next t ∧
    t = { s with root := idx, rootValid := true } ∧ (readValue 0x08#6 t).toNat = idx.toNat ∧
    (readValue 0x00#6 t).getLsbD 3 = true) ∧
  (∀ s : State, ∃ t, exec .rootClr s = .next t ∧ t = { s with rootValid := false } ∧
    (readValue 0x00#6 t).getLsbD 3 = false ∧
    (∀ n data, 1 ≤ n → n ≤ 16 → s.decActive = true →
      exec (.decBits n data) t = .next (t.endDec.setErr .missingTree)) ∧
    (exec .decStart t = .next (t.clearDecoder.endDec.setErr .missingTree)) ∧
    (s.decActive = true → s.cur = s.root → exec .decEnd t = .next t.endDec) ∧
    (s.decActive = true → s.cur ≠ s.root → exec .decEnd t = .next (t.endDec.setErr .truncated))) ∧
  (∀ idx : NodeIdx, (encode (.rootSet idx)).toNat = 0x30000000 + idx.toNat) ∧ encode .rootClr = 0x38000000#32

/-- R126: CODE_LEN deletes an entry, or replaces it by the code of LEN zeros; no other command deletes one. -/
def Obligations.CodeLenDefinesOrDeletes : Prop :=
  (∀ (s : State) (c : Symbol), ∃ t, exec (.codeLen c 0#8) s = .next t ∧ t = { s with code := t.code } ∧
    t.codeValid c = false ∧ ∀ d, d ≠ c → t.codeAt d = s.codeAt d) ∧
  (∀ (s : State) (c : Symbol) (len : BitVec 8), len ≠ 0#8 → ∃ t e, exec (.codeLen c len) s = .next t ∧
    t = { s with code := t.code } ∧ t.codeAt c = some e ∧ e.len = len ∧ (∀ p (hp : p < 255), e.bits[p] = false) ∧
    e.codeString = List.replicate len.toNat false ∧ ∀ d, d ≠ c → t.codeAt d = s.codeAt d) ∧
  (∀ (i : Instr) (s t : State) (c : Symbol), exec i s = .next t → i ≠ .srst → s.codeValid c = true →
    t.codeValid c = false → i = .codeLen c 0#8) ∧
  ∀ (c : Symbol) (len : BitVec 8), (encode (.codeLen c len)).toNat =
    0x40000000 + c.toNat * 2 ^ 20 + len.toNat * 2 ^ 12

/-- R127, 30_encoding.md R89: CODE_BITS writes 16 positions of a valid entry (15 of chunk 15, where DATA[0] has no
position) and does nothing to an invalid one. -/
def Obligations.CodeBitsWriteTheirChunk : Prop :=
  (∀ (s : State) (c : Symbol) (chunk : BitVec 4) (data : BitVec 16), s.codeValid c = false →
    exec (.codeBits c chunk data) s = .next s) ∧
  (∀ (s : State) (c : Symbol) (chunk : BitVec 4) (data : BitVec 16) (e : CodeEntry), s.codeAt c = some e →
    ∃ t e', exec (.codeBits c chunk data) s = .next t ∧ t = { s with code := t.code } ∧ t.codeAt c = some e' ∧
      e'.len = e.len ∧
      (∀ j, j < 16 → ∀ hp : 16 * chunk.toNat + j < 255,
        e'.bits[16 * chunk.toNat + j] = data.getLsbD (15 - j)) ∧
      (∀ p (hp : p < 255), p / 16 ≠ chunk.toNat → e'.bits[p] = e.bits[p]) ∧
      ∀ d, d ≠ c → t.codeAt d = s.codeAt d) ∧
  ∀ (c : Symbol) (chunk : BitVec 4) (data : BitVec 16), (encode (.codeBits c chunk data)).toNat =
    0x50000000 + c.toNat * 2 ^ 20 + chunk.toNat * 2 ^ 16 + data.toNat

/-! ### Encoder commands -/

/-- 42_encoder.md R140: `append_bit`, and what k calls of it come to: the bits held before, then the bits appended,
are the bits of the bytes pushed, then the bits held after; the low bits of PBUF stay 0. -/
def Obligations.AppendedBitsFillBytes : Prop :=
  (∀ (s : State) (b : Bool), s.pcnt ≠ 7#3 → ∃ t, appendBit b s = .go t ∧
    t = { s with pbuf := t.pbuf, pcnt := s.pcnt + 1#3 } ∧
    ∀ i, i < 8 → t.pbuf.getLsbD i = if i + s.pcnt.toNat = 7 then b else s.pbuf.getLsbD i) ∧
  (∀ (s : State) (b : Bool), s.pcnt = 7#3 → s.eout.length < Config.eoutDepth → ∃ t x, appendBit b s = .go t ∧
    t = { s with eout := s.eout ++ [x], pbuf := 0x00#8, pcnt := 0#3 } ∧
    ∀ i, i < 8 → x.getLsbD i = if i = 0 then b else s.pbuf.getLsbD i) ∧
  ∀ (s : State) (bs : List Bool), s.packerClear →
    s.eout.length + (s.pcnt.toNat + bs.length) / 8 ≤ Config.eoutDepth →
    ∃ t bytes, appendBits bs s = .go t ∧ t = { s with eout := s.eout ++ bytes, pbuf := t.pbuf, pcnt := t.pcnt } ∧
      bytes.length = (s.pcnt.toNat + bs.length) / 8 ∧ t.pcnt.toNat = (s.pcnt.toNat + bs.length) % 8 ∧
      bytes.flatMap byteBits ++ t.heldBits = s.heldBits ++ bs ∧ t.packerClear

/-- R141: ENC_START opens an encode session and discards what the packer holds; EOUT and the decoder are untouched. -/
def Obligations.EncStartOpensASession : Prop :=
  encode .encStart = 0x90000000#32 ∧
  ∀ s : State, ∃ t, exec .encStart s = .next t ∧
    t = { s with
      err := t.err, pbuf := 0x00#8, pcnt := 0#3, encNbits := 0#32, encNsyms := 0#32, encActive := true } ∧
    ∀ e, t.hasErr e = (s.hasErr e && !decide (e = .unknownSymbol) && !decide (e = .encSeq))

/-- R142: ENC_SYM, in the order of its checks. Where the command is not held and the symbol has a code, the code's bits
are appended, position 0 first; 255 bits at PCNT = 7 push 32 bytes and leave 6 bits. -/
def Obligations.EncSymAppendsTheCode : Prop :=
  (∀ c : Symbol, (encode (.encSym c)).toNat = 0xA0000000 + c.toNat) ∧
  (∀ (s : State) (c : Symbol), s.encActive = false → ∃ t, exec (.encSym c) s = .next t ∧
    t = { s with err := t.err } ∧ ∀ e, t.hasErr e = (s.hasErr e || decide (e = .encSeq))) ∧
  (∀ (s : State) (c : Symbol), s.encActive = true → s.codeValid c = false → ∃ t, exec (.encSym c) s = .next t ∧
    t = { s with err := t.err, encActive := false } ∧
    ∀ e, t.hasErr e = (s.hasErr e || decide (e = .unknownSymbol))) ∧
  ∀ (s : State) (c : Symbol) (x : CodeEntry), s.encActive = true → s.codeAt c = some x →
    32 ≤ Config.eoutDepth - s.eout.length →
    ∃ t bytes, exec (.encSym c) s = .next t ∧
      t = { s with
        eout := s.eout ++ bytes, pbuf := t.pbuf, pcnt := t.pcnt,
        encNbits := t.encNbits, encNsyms := t.encNsyms } ∧
      t.encNbits.toNat = (s.encNbits.toNat + x.len.toNat) % 2 ^ 32 ∧
      t.encNsyms.toNat = (s.encNsyms.toNat + 1) % 2 ^ 32 ∧
      bytes.flatMap byteBits ++ t.heldBits = s.heldBits ++ x.bits.toList.take x.len.toNat ∧
      bytes.length = (s.pcnt.toNat + x.len.toNat) / 8 ∧ bytes.length ≤ 32 ∧
      t.pcnt.toNat = (s.pcnt.toNat + x.len.toNat) % 8 ∧
      (s.packerClear → t.packerClear) ∧
      (x.len = 255#8 → s.pcnt = 7#3 → bytes.length = 32 ∧ t.pcnt = 6#3)

/-- R143: ENC_FLUSH pushes the partial byte, if any, and closes the session. -/
def Obligations.EncFlushPushesThePartialByte : Prop :=
  encode .encFlush = 0xB0000000#32 ∧
  (∀ s : State, s.encActive = false → ∃ t, exec .encFlush s = .next t ∧ t = { s with err := t.err } ∧
    ∀ e, t.hasErr e = (s.hasErr e || decide (e = .encSeq))) ∧
  (∀ s : State, s.encActive = true → s.pcnt = 0#3 → exec .encFlush s = .next { s with encActive := false }) ∧
  ∀ s : State, s.encActive = true → s.pcnt ≠ 0#3 → 1 ≤ Config.eoutDepth - s.eout.length →
    exec .encFlush s = .next { s with eout := s.eout ++ [s.pbuf], pbuf := 0x00#8, pcnt := 0#3, encActive := false } ∧
    (s.packerClear → s.pbuf = byteOfBits s.heldBits)

/-- R144, 30_encoding.md R87: a host that issues ENC_START, one ENC_SYM per symbol and ENC_FLUSH, and drains EOUT, has
popped exactly ceil(L / 8) bytes whose bits, most significant first, are the concatenated codes and then zeros. -/
def Obligations.EncodeSessionPacksTheStream : Prop :=
  ∀ (s : State) (S : List Symbol) (stream : List Bool), s.cmdPend = false → s.eout = [] →
    (∀ c ∈ S, s.codeValid c = true) →
    stream = S.flatMap (fun c => ((s.codeAt c).map CodeEntry.codeString).getD []) →
    ∃ t, runTurns (encodeTurns S) s = .next t ∧
      (popped (t.host.received.drop s.host.received.length)).length = (stream.length + 7) / 8 ∧
      (∃ pad, (popped (t.host.received.drop s.host.received.length)).flatMap byteBits =
        stream ++ List.replicate pad false) ∧
      t.encNbits.toNat = stream.length % 2 ^ 32 ∧ t.encNsyms.toNat = S.length % 2 ^ 32 ∧
      t.encActive = false ∧ t.eout = [] ∧ t.cmdPend = false ∧
      ∀ e, t.hasErr e = (s.hasErr e && !decide (e = .unknownSymbol) && !decide (e = .encSeq))

/-! ### Decoder commands -/

/-- 43_decoder.md R160: DEC_START, in the order of its checks. -/
def Obligations.DecStartOpensASession : Prop :=
  encode .decStart = 0x60000000#32 ∧
  ∀ s : State, ∃ t, exec .decStart s = .next t ∧
    (s.rootValid = false →
      t = { s with err := t.err, decNbits := 0#32, decNsyms := 0#32, decActive := false } ∧
      ∀ e, t.hasErr e = (decide (e = .missingTree) || s.hasErr e && !(decide (10 ≤ e.bitNo) && decide (e.bitNo ≤ 13)))) ∧
    (s.rootValid = true → s.nodeValid s.root = false →
      t = { s with err := t.err, decNbits := 0#32, decNsyms := 0#32, decActive := false } ∧
      ∀ e, t.hasErr e =
        (decide (e = .malformedTree) || s.hasErr e && !(decide (10 ≤ e.bitNo) && decide (e.bitNo ≤ 13)))) ∧
    (s.rootValid = true → s.nodeValid s.root = true →
      t = { s with err := t.err, decNbits := 0#32, decNsyms := 0#32, cur := s.root, decActive := true } ∧
      ∀ e, t.hasErr e = (s.hasErr e && !(decide (10 ≤ e.bitNo) && decide (e.bitNo ≤ 13))))

/-- R161, through DEC_BITS of one bit: every case of `step_bit`, in the order of its checks. -/
def Obligations.OneBitStepsTheWalk : Prop :=
  ∀ (s : State) (data : BitVec 16) (nxt : NodeIdx), s.decActive = true → 1 ≤ Config.doutDepth - s.dout.length →
    (s.rootValid = false → exec (.decBits 1 data) s = .next (s.endDec.setErr .missingTree)) ∧
    (s.rootValid = true → s.nodeAt s.root = none →
      exec (.decBits 1 data) s = .next (s.endDec.setErr .malformedTree)) ∧
    (∀ sym, s.rootValid = true → s.nodeAt s.root = some (.leaf sym) →
      exec (.decBits 1 data) s = .next { s with
        dout := s.dout ++ [sym], decNsyms := s.decNsyms + 1#32, decNbits := s.decNbits + 1#32, cur := s.root }) ∧
    ∀ l r, s.rootValid = true → s.nodeAt s.root = some (.internal l r) →
      (s.nodeAt s.cur = none → exec (.decBits 1 data) s = .next (s.endDec.setErr .malformedTree)) ∧
      (∀ sym, s.nodeAt s.cur = some (.leaf sym) →
        exec (.decBits 1 data) s = .next (s.endDec.setErr .malformedTree)) ∧
      ∀ left right, s.nodeAt s.cur = some (.internal left right) →
        (data.getLsbD 15 = false → nxt = left) → (data.getLsbD 15 = true → nxt = right) →
        (s.nodeAt nxt = none → exec (.decBits 1 data) s = .next (s.endDec.setErr .malformedTree)) ∧
        (∀ sym, s.nodeAt nxt = some (.leaf sym) →
          exec (.decBits 1 data) s = .next { s with
            decNbits := s.decNbits + 1#32, dout := s.dout ++ [sym], decNsyms := s.decNsyms + 1#32, cur := s.root }) ∧
        (∀ l' r', s.nodeAt nxt = some (.internal l' r') →
          exec (.decBits 1 data) s = .next { s with decNbits := s.decNbits + 1#32, cur := nxt })

/-- R162: DEC_BITS outside a session; inside one, where it is not held, it completes, its flags, that a command of n + m
bits does what n bits and then m bits do, the second part only where the first raised no error, and that DATA past the
N-th bit is ignored. -/
def Obligations.DecBitsConsumeBitByBit : Prop :=
  (∀ n (data : BitVec 16), 1 ≤ n → n ≤ 16 →
    (encode (.decBits n data)).toNat = 0x70000000 + (n - 1) * 2 ^ 16 + data.toNat) ∧
  (∀ (s : State) n data, s.decActive = false → ∃ t, exec (.decBits n data) s = .next t ∧
    t = { s with err := t.err } ∧ ∀ e, t.hasErr e = (s.hasErr e || decide (e = .decSeq))) ∧
  (∀ (s : State) n data, 1 ≤ n → n ≤ 16 → s.decActive = true → n ≤ Config.doutDepth - s.dout.length →
    ∃ t, exec (.decBits n data) s = .next t ∧
      (t.decActive = true ∧ t.err = s.err ∨
        t.decActive = false ∧ (t.err = (s.setErr .missingTree).err ∨ t.err = (s.setErr .malformedTree).err))) ∧
  (∀ (s : State) n m data, 1 ≤ n → 1 ≤ m → n + m ≤ 16 → s.decActive = true →
    n + m ≤ Config.doutDepth - s.dout.length →
    ∃ t, exec (.decBits n data) s = .next t ∧
      exec (.decBits (n + m) data) s = if t.decActive then exec (.decBits m (data <<< n)) t else .next t) ∧
  ∀ (s : State) n (data data' : BitVec 16), n ≤ 16 →
    (∀ j, j < n → data.getLsbD (15 - j) = data'.getLsbD (15 - j)) →
    exec (.decBits n data) s = exec (.decBits n data') s

/-- R163: DEC_END, in the order of its checks; an empty stream succeeds with no output, and with a single-leaf root
DEC_END never truncates. -/
def Obligations.DecEndReportsTruncation : Prop :=
  encode .decEnd = 0x80000000#32 ∧
  ∀ s : State, ∃ t, exec .decEnd s = .next t ∧
    (s.decActive = false →
      t = { s with err := t.err } ∧ ∀ e, t.hasErr e = (s.hasErr e || decide (e = .decSeq))) ∧
    (s.decActive = true → s.cur = s.root → t = { s with decActive := false }) ∧
    (s.decActive = true → s.cur ≠ s.root →
      t = { s with err := t.err, decActive := false } ∧
      ∀ e, t.hasErr e = (s.hasErr e || decide (e = .truncated))) ∧
    (s.rootValid = true → s.nodeValid s.root = true → ∃ u, execAll [.decStart, .decEnd] s = .next u ∧
      u.dout = s.dout ∧ u.hasErr .truncated = false) ∧
    ∀ sym n data u, s.rootValid = true → s.nodeAt s.root = some (.leaf sym) → s.decActive = true → s.cur = s.root →
      exec (.decBits n data) s = .next u → exec .decEnd u = .next u.endDec

/-- R165, 10_state.md R22, R23, R30: a DEC_BITS consumes at most N bits and pushes at most one symbol per bit; the
counters count exactly the bits consumed and the symbols pushed, and where it raises no error all N are consumed. -/
def Obligations.DecBitsIsBoundedAndCounted : Prop :=
  ∀ (s t : State) (n : Nat) (data : BitVec 16), n ≤ 16 → exec (.decBits n data) s = .next t →
    ∃ k out, k ≤ n ∧ out.length ≤ k ∧ t.dout = s.dout ++ out ∧
      t.decNbits.toNat = (s.decNbits.toNat + k) % 2 ^ 32 ∧
      t.decNsyms.toNat = (s.decNsyms.toNat + out.length) % 2 ^ 32 ∧
      (t.decActive = true → k = n) ∧
      t = { s with
        err := t.err, decActive := t.decActive, cur := t.cur, dout := t.dout,
        decNbits := t.decNbits, decNsyms := t.decNsyms }

/-- R164, 40_host_reference.md R112: where TREE holds a tree and CUR stands at its root or at an internal node of it,
a DEC_BITS that is not held does what the reference walk of the same bits does. -/
def Obligations.DecBitsFollowTheReferenceWalk : Prop :=
  ∀ (s : State) (root pos : HTree) (n : Nat) (data : BitVec 16),
    1 ≤ n → n ≤ 16 → n ≤ Config.doutDepth - s.dout.length →
    s.decActive = true → s.rootValid = true → HoldsTree s.tree root → s.root = root.index →
    (pos = root ∨ pos ∈ root.nodes ∧ ∃ q w l r, pos = .node q w l r) → s.cur = pos.index →
    exec (.decBits n data) s = .next { s with
      dout := s.dout ++ (decFrom root pos (dataBits n data)).1,
      cur := (decFrom root pos (dataBits n data)).2.index,
      decNbits := s.decNbits + BitVec.ofNat 32 n,
      decNsyms := s.decNsyms + BitVec.ofNat 32 (decFrom root pos (dataBits n data)).1.length }

/-- R164, 40_host_reference.md R112: a host that issues DEC_START, the bits as DEC_BITS commands and DEC_END, and drains
DOUT, has popped exactly the symbols of the reference decoder; DEC_END raises ERR_TRUNCATED exactly where the bits are
not a concatenation of whole codes. -/
def Obligations.DecodeSessionIsTheReferenceDecoder : Prop :=
  ∀ (s : State) (root : HTree) (bits : List Bool), s.cmdPend = false → s.dout = [] → s.rootValid = true →
    HoldsTree s.tree root → s.root = root.index →
    ∃ t, runTurns (decodeTurns bits) s = .next t ∧
      popped (t.host.received.drop s.host.received.length) = (decFrom root root bits).1 ∧
      (t.hasErr .truncated = false ↔
        dec bits (some root) = .ok (popped (t.host.received.drop s.host.received.length))) ∧
      (t.hasErr .truncated = true ↔ dec bits (some root) = .error .truncatedStream) ∧
      t.hasErr .missingTree = false ∧ t.hasErr .malformedTree = false ∧ t.hasErr .decSeq = false ∧
      t.decNbits.toNat = bits.length % 2 ^ 32 ∧
      t.decNsyms.toNat = (decFrom root root bits).1.length % 2 ^ 32 ∧
      t.decActive = false ∧ t.dout = [] ∧ t.cmdPend = false

/-! ### Whole-machine rules -/

/-- 43_decoder.md ("does not use the CodeTable"), 60_exceptions.md R192: a decoder command neither reads nor writes
anything of the encoder: with any other encoder state it does the same. -/
def Obligations.DecoderIgnoresTheEncoder : Prop :=
  ∀ (i : Instr) (s t u : State), (i = .decStart ∨ (∃ n data, i = .decBits n data) ∨ i = .decEnd) →
    exec i s = .next t →
    exec i (s.withEncoderOf u) = .next (t.withEncoderOf u) ∧ t = t.withEncoderOf s

/-- 60_exceptions.md R192, 42_encoder.md R141: an encoder command neither reads nor writes anything of the decoder. -/
def Obligations.EncoderIgnoresTheDecoder : Prop :=
  ∀ (i : Instr) (s t u : State), (i = .encStart ∨ (∃ c, i = .encSym c) ∨ i = .encFlush) →
    exec i s = .next t →
    exec i (s.withDecoderOf u) = .next (t.withDecoderOf u) ∧ t = t.withDecoderOf s

/-- 10_state.md R28, 93 U3: positions of a code at or past its length are never read: ENC_SYM does the same whatever
they hold. -/
def Obligations.EncSymIgnoresBitsPastTheLength : Prop :=
  ∀ (s t : State) (c d : Symbol) (x y : CodeEntry), s.codeAt d = some x → y.len = x.len →
    (∀ p (hp : p < 255), p < x.len.toNat → y.bits[p] = x.bits[p]) →
    exec (.encSym c) s = .next t →
    exec (.encSym c) (s.writeCode d y) = .next (t.writeCode d y)

/-- 10_state.md R17, R26 to R29: which commands write ROOT, TREE and CODE; valid bits of nodes fall only at a reset. -/
def Obligations.OnlyLoadCommandsWriteTheTables : Prop :=
  ∀ s t : State, step s = .next t → s.isReset = false →
    (t.tree ≠ s.tree → (∃ idx l r, s.executing = some (.treeInt idx l r)) ∨
      ∃ idx sym, s.executing = some (.treeLeaf idx sym)) ∧
    (∀ i, s.nodeValid i = true → t.nodeValid i = true) ∧
    (t.root ≠ s.root → ∃ idx, s.executing = some (.rootSet idx) ∧ t.root = idx) ∧
    (s.rootValid = false → t.rootValid = true → ∃ idx, s.executing = some (.rootSet idx)) ∧
    (s.rootValid = true → t.rootValid = false → s.executing = some .rootClr) ∧
    (t.code ≠ s.code → (∃ c len, s.executing = some (.codeLen c len)) ∨
      ∃ c chunk data, s.executing = some (.codeBits c chunk data)) ∧
    (∀ c, s.codeValid c = true → t.codeValid c = false → s.executing = some (.codeLen c 0#8)) ∧
    ∀ c, s.codeValid c = false → t.codeValid c = true → ∃ len, len ≠ 0#8 ∧ s.executing = some (.codeLen c len)

/-- 10_state.md R18, R21 to R25, R30, R31: which commands write CUR, the packer, the counters and the FIFOs. -/
def Obligations.OnlySessionCommandsWriteTheSessions : Prop :=
  ∀ s t : State, step s = .next t → s.isReset = false →
    (t.cur ≠ s.cur → s.executing = some .decStart ∨ ∃ n data, s.executing = some (.decBits n data)) ∧
    (t.decNbits ≠ s.decNbits ∨ t.decNsyms ≠ s.decNsyms →
      s.executing = some .decStart ∨ ∃ n data, s.executing = some (.decBits n data)) ∧
    (t.pbuf ≠ s.pbuf ∨ t.pcnt ≠ s.pcnt →
      s.executing = some .encStart ∨ (∃ c, s.executing = some (.encSym c)) ∨ s.executing = some .encFlush) ∧
    (t.encNbits ≠ s.encNbits ∨ t.encNsyms ≠ s.encNsyms →
      s.executing = some .encStart ∨ ∃ c, s.executing = some (.encSym c)) ∧
    (s.dout.length < t.dout.length → ∃ n data, s.executing = some (.decBits n data)) ∧
    (s.eout.length < t.eout.length → (∃ c, s.executing = some (.encSym c)) ∨ s.executing = some .encFlush)

/-- 10_state.md R19, R20: what sets and clears DEC_ACTIVE and ENC_ACTIVE, and that the commands of a session act only
inside one. -/
def Obligations.SessionsOpenAndClose : Prop :=
  (∀ s t : State, step s = .next t →
    (s.executing = some .decStart → t.decActive = (s.rootValid && s.nodeValid s.root)) ∧
    (s.executing = some .decEnd → t.decActive = false) ∧
    (∀ n data, s.executing = some (.decBits n data) → t.err ≠ s.err → t.decActive = false) ∧
    (s.isReset = true → t.decActive = false ∧ t.encActive = false) ∧
    (s.executing = some .encStart → t.encActive = true) ∧
    (s.executing = some .encFlush → t.encActive = false) ∧
    (∀ c, s.executing = some (.encSym c) → s.codeValid c = false → t.encActive = false) ∧
    (s.decActive = false → t.decActive = true → s.executing = some .decStart) ∧
    (s.decActive = true → t.decActive = false →
      s.executing = some .decStart ∨ s.executing = some .decEnd ∨ s.isReset = true ∨
      (∃ n data, s.executing = some (.decBits n data)) ∧ (t.hasErr .missingTree = true ∨ t.hasErr .malformedTree = true)) ∧
    (s.encActive = false → t.encActive = true → s.executing = some .encStart) ∧
    (s.encActive = true → t.encActive = false →
      s.executing = some .encFlush ∨ s.isReset = true ∨
      ∃ c, s.executing = some (.encSym c) ∧ s.codeValid c = false ∧ t.hasErr .unknownSymbol = true)) ∧
  ∀ s : State,
    (s.decActive = false → (∀ n data, exec (.decBits n data) s = .next (s.setErr .decSeq)) ∧
      exec .decEnd s = .next (s.setErr .decSeq)) ∧
    (s.encActive = false → (∀ c, exec (.encSym c) s = .next (s.setErr .encSeq)) ∧
      exec .encFlush s = .next (s.setErr .encSeq))

/-- 70_reset_and_hazards.md R203, R205: a host that polls before it writes never sets ERR_CMD_OVF; where the host does
not change the tables inside a session, TREE, ROOT and ROOT_VALID stay through a decode session and CODE through an
encode session, but for a reset. -/
def Obligations.HostDutiesKeepTheTables : Prop :=
  ∀ s t : State, step s = .next t →
    (s.pollsFirst → s.hasErr .cmdOvf = false → t.hasErr .cmdOvf = false) ∧
    (s.keepsTables → s.isReset = false → s.decActive = true →
      t.tree = s.tree ∧ t.root = s.root ∧ t.rootValid = s.rootValid) ∧
    (s.keepsTables → s.isReset = false → s.encActive = true → t.code = s.code)

/-! ### Assembler and pseudo-commands -/

/-- 30_encoding.md R90: the assembler takes exactly the commands in the form the syntax gives them, each operand within
its field and the count of DEC_BITS 1 to 16, and refuses everything else. -/
def Obligations.AssemblerTakesExactlyTheSyntax : Prop :=
  ∀ (mnemonic : String) (ops : List AsmOperand) (i : Instr),
    assembleCommand mnemonic ops = some i ↔ i.wellFormed = true ∧ asmForm i = (mnemonic, ops)

/-- R91, R88: the commands of DEC_STREAM deliver exactly the bits of the string, in order. -/
def Obligations.DecStreamDeliversTheString : Prop :=
  ∀ c : List Bool,
    (decStreamCommands c).flatMap (fun i => match i with | .decBits n data => dataBits n data | _ => []) = c ∧
    (decStreamCommands c).length = (c.length + 15) / 16 ∧
    ∀ i ∈ decStreamCommands c, i.wellFormed = true ∧ ∃ n data, i = .decBits n data

/-- R91, R89: the commands of CODE_WR give the symbol exactly the code of the string, in any state, and change nothing
but that entry. -/
def Obligations.CodeWriteStoresTheString : Prop :=
  ∀ (s : State) (sym : Symbol) (c : List Bool), 1 ≤ c.length → c.length ≤ 255 →
    ∃ t e, execAll (codeWrite sym c) s = .next t ∧ t = { s with code := t.code } ∧ t.codeAt sym = some e ∧
      e.codeString = c ∧ ∀ d, d ≠ sym → t.codeAt d = s.codeAt d

/-! ### Host reference -/

/-- 40_host_reference.md R100: the keys of `freq(S)` are exactly the distinct symbols of S by first occurrence, each
with its number of occurrences. -/
def Obligations.FreqCountsOccurrences : Prop :=
  ∀ S : List Symbol,
    (∀ s n, (s, n) ∈ freq S ↔ s ∈ S ∧ n = S.count s) ∧ ((freq S).map Prod.fst).Nodup ∧
    ((freq S).map Prod.fst).Pairwise (fun a b => S.idxOf a < S.idxOf b) ∧ freq [] = []

/-- R101, R102, R103, R105: what `build` returns. The node count is 00_scope.md R8's, which marks it as general
knowledge; that a tree carries its nodes' numbers and weights is the model's choice (log 14). -/
def Obligations.BuildMakesAWeightedTree : Prop :=
  build [] = none ∧ (∀ s w, build [(s, w)] = some (.leaf 0 s w)) ∧
  ∀ table : List (Symbol × Nat), table ≠ [] → ∃ t, build table = some t ∧
    t.weightsAdd = true ∧ t.seq = 2 * table.length - 2 ∧
    (t.nodes.map HTree.seq).Perm (List.range (2 * table.length - 1)) ∧
    (t.nodes.filterMap fun n => match n with | .leaf _ s w => some (s, w) | .node _ _ _ _ => none).Perm table

/-- R108: every symbol of S has exactly one code, codes are non-empty and prefix-free, and for k ≥ 2 symbols none is
longer than k - 1 bits, which is at most 255. -/
def Obligations.GenerateIsPrefixFree : Prop :=
  ∀ S : List Symbol, S ≠ [] → ∃ t, build (freq S) = some t ∧
    (∀ s, s ∈ (generate t).map Prod.fst ↔ s ∈ S) ∧ ((generate t).map Prod.fst).Nodup ∧
    (∀ p ∈ generate t, p.2 ≠ []) ∧
    (∀ p ∈ generate t, ∀ p' ∈ generate t, p.1 ≠ p'.1 → ¬ p.2 <+: p'.2) ∧
    (2 ≤ (distinct S).length → ∀ p ∈ generate t, p.2.length ≤ (distinct S).length - 1) ∧
    (distinct S).length - 1 ≤ 255

/-- R109, R110: after reset, the commands of `load` leave the tree in TREE with ROOT at its root, and in CODE exactly
the codes of the table; nothing else changes. -/
def Obligations.LoadPlacesTreeAndTable : Prop :=
  ∀ S : List Symbol, S ≠ [] → ∃ tree t, build (freq S) = some tree ∧
    execAll (load (some tree) (generate tree)) State.reset = .next t ∧
    HoldsTree t.tree tree ∧ t.root = tree.index ∧ t.rootValid = true ∧
    (∀ s c, (s, c) ∈ generate tree ↔ ∃ e, t.codeAt s = some e ∧ e.codeString = c) ∧
    t = { State.reset with tree := t.tree, root := t.root, rootValid := true, code := t.code }

/-- R113, the document's software form: decoding the encoding of S with the tree built from S gives S. -/
def Obligations.SoftwareRoundTrip : Prop :=
  ∀ S : List Symbol, S ≠ [] → ∃ t bits, build (freq S) = some t ∧ enc S (generate t) = .ok bits ∧
    dec bits (some t) = .ok S

/-- R113 over HTW: from reset, load, encode S, and decode the first ENC_NBITS bits of the bytes popped. The symbols
popped are S, no error bit is set, and the counters agree. R113 itself counts modulo 2^32; the premise that the stream
is shorter than 2^32 bits is the model's (log 15), since ENC_NBITS names a longer stream's length only modulo 2^32. -/
def Obligations.RoundTripOverHtw : Prop :=
  ∀ S : List Symbol, S ≠ [] → ∃ tree bits, build (freq S) = some tree ∧ enc S (generate tree) = .ok bits ∧
    (bits.length < 2 ^ 32 → ∃ t u,
      runTurns ((load (some tree) (generate tree)).flatMap issue ++ encodeTurns S) State.reset = .next t ∧
      runTurns (decodeTurns (((popped t.host.received).flatMap byteBits).take t.encNbits.toNat)) t = .next u ∧
      popped (u.host.received.drop t.host.received.length) = S ∧ u.err = 0x00#8 ∧
      u.decNsyms.toNat = S.length ∧ u.encNsyms.toNat = S.length ∧
      u.decNbits.toNat = bits.length ∧ u.encNbits.toNat = bits.length)

/-- R114: the empty input, on the host's side and through HTW, with and without a tree. -/
def Obligations.EmptyInputGivesEmptyOutput : Prop :=
  freq [] = [] ∧ build (freq []) = none ∧ (∀ t, dec [] (some t) = .ok []) ∧
  (∀ s : State, ∃ t, execAll [.encStart, .encFlush] s = .next t ∧ t.encNbits = 0#32 ∧ t.eout = s.eout) ∧
  (∀ (s : State) (table : CodeTable), ∃ t, execAll (load none table ++ [.decStart]) s = .next t ∧
    t.hasErr .missingTree = true ∧ t.decActive = false) ∧
  ∀ s : State, s.rootValid = true → s.nodeValid s.root = true →
    ∃ t, execAll [.decStart, .decEnd] s = .next t ∧ t.dout = s.dout ∧
      ∀ e, t.hasErr e = (s.hasErr e && !(decide (10 ≤ e.bitNo) && decide (e.bitNo ≤ 13)))
end

