-- ==== Sys2Proof/Laws/State.lean ====
section
/-! SUPPORT. One lemma per field per named update of State: what the update leaves in that field. -/

namespace Sys2Proof.Machine

variable (s : State)

/-! ### setErr -/

@[simp] theorem State.setErr_err (e : ErrCause) : (s.setErr e).err = s.err ||| e.mask := rfl
@[simp] theorem State.setErr_cmdPend (e : ErrCause) : (s.setErr e).cmdPend = s.cmdPend := rfl
@[simp] theorem State.setErr_cmdr (e : ErrCause) : (s.setErr e).cmdr = s.cmdr := rfl
@[simp] theorem State.setErr_root (e : ErrCause) : (s.setErr e).root = s.root := rfl
@[simp] theorem State.setErr_rootValid (e : ErrCause) : (s.setErr e).rootValid = s.rootValid := rfl
@[simp] theorem State.setErr_cur (e : ErrCause) : (s.setErr e).cur = s.cur := rfl
@[simp] theorem State.setErr_decActive (e : ErrCause) : (s.setErr e).decActive = s.decActive := rfl
@[simp] theorem State.setErr_encActive (e : ErrCause) : (s.setErr e).encActive = s.encActive := rfl
@[simp] theorem State.setErr_pbuf (e : ErrCause) : (s.setErr e).pbuf = s.pbuf := rfl
@[simp] theorem State.setErr_pcnt (e : ErrCause) : (s.setErr e).pcnt = s.pcnt := rfl
@[simp] theorem State.setErr_decNbits (e : ErrCause) : (s.setErr e).decNbits = s.decNbits := rfl
@[simp] theorem State.setErr_decNsyms (e : ErrCause) : (s.setErr e).decNsyms = s.decNsyms := rfl
@[simp] theorem State.setErr_encNbits (e : ErrCause) : (s.setErr e).encNbits = s.encNbits := rfl
@[simp] theorem State.setErr_encNsyms (e : ErrCause) : (s.setErr e).encNsyms = s.encNsyms := rfl
@[simp] theorem State.setErr_tree (e : ErrCause) : (s.setErr e).tree = s.tree := rfl
@[simp] theorem State.setErr_code (e : ErrCause) : (s.setErr e).code = s.code := rfl
@[simp] theorem State.setErr_dout (e : ErrCause) : (s.setErr e).dout = s.dout := rfl
@[simp] theorem State.setErr_eout (e : ErrCause) : (s.setErr e).eout = s.eout := rfl
@[simp] theorem State.setErr_host (e : ErrCause) : (s.setErr e).host = s.host := rfl

/-! ### clearErrs -/

@[simp] theorem State.clearErrs_err (m : BitVec 8) : (s.clearErrs m).err = s.err &&& ~~~ m := rfl
@[simp] theorem State.clearErrs_cmdPend (m : BitVec 8) : (s.clearErrs m).cmdPend = s.cmdPend := rfl
@[simp] theorem State.clearErrs_cmdr (m : BitVec 8) : (s.clearErrs m).cmdr = s.cmdr := rfl
@[simp] theorem State.clearErrs_root (m : BitVec 8) : (s.clearErrs m).root = s.root := rfl
@[simp] theorem State.clearErrs_rootValid (m : BitVec 8) : (s.clearErrs m).rootValid = s.rootValid := rfl
@[simp] theorem State.clearErrs_cur (m : BitVec 8) : (s.clearErrs m).cur = s.cur := rfl
@[simp] theorem State.clearErrs_decActive (m : BitVec 8) : (s.clearErrs m).decActive = s.decActive := rfl
@[simp] theorem State.clearErrs_encActive (m : BitVec 8) : (s.clearErrs m).encActive = s.encActive := rfl
@[simp] theorem State.clearErrs_pbuf (m : BitVec 8) : (s.clearErrs m).pbuf = s.pbuf := rfl
@[simp] theorem State.clearErrs_pcnt (m : BitVec 8) : (s.clearErrs m).pcnt = s.pcnt := rfl
@[simp] theorem State.clearErrs_decNbits (m : BitVec 8) : (s.clearErrs m).decNbits = s.decNbits := rfl
@[simp] theorem State.clearErrs_decNsyms (m : BitVec 8) : (s.clearErrs m).decNsyms = s.decNsyms := rfl
@[simp] theorem State.clearErrs_encNbits (m : BitVec 8) : (s.clearErrs m).encNbits = s.encNbits := rfl
@[simp] theorem State.clearErrs_encNsyms (m : BitVec 8) : (s.clearErrs m).encNsyms = s.encNsyms := rfl
@[simp] theorem State.clearErrs_tree (m : BitVec 8) : (s.clearErrs m).tree = s.tree := rfl
@[simp] theorem State.clearErrs_code (m : BitVec 8) : (s.clearErrs m).code = s.code := rfl
@[simp] theorem State.clearErrs_dout (m : BitVec 8) : (s.clearErrs m).dout = s.dout := rfl
@[simp] theorem State.clearErrs_eout (m : BitVec 8) : (s.clearErrs m).eout = s.eout := rfl
@[simp] theorem State.clearErrs_host (m : BitVec 8) : (s.clearErrs m).host = s.host := rfl

/-! ### endDec -/

@[simp] theorem State.endDec_err : s.endDec.err = s.err := rfl
@[simp] theorem State.endDec_cmdPend : s.endDec.cmdPend = s.cmdPend := rfl
@[simp] theorem State.endDec_cmdr : s.endDec.cmdr = s.cmdr := rfl
@[simp] theorem State.endDec_root : s.endDec.root = s.root := rfl
@[simp] theorem State.endDec_rootValid : s.endDec.rootValid = s.rootValid := rfl
@[simp] theorem State.endDec_cur : s.endDec.cur = s.cur := rfl
@[simp] theorem State.endDec_decActive : s.endDec.decActive = false := rfl
@[simp] theorem State.endDec_encActive : s.endDec.encActive = s.encActive := rfl
@[simp] theorem State.endDec_pbuf : s.endDec.pbuf = s.pbuf := rfl
@[simp] theorem State.endDec_pcnt : s.endDec.pcnt = s.pcnt := rfl
@[simp] theorem State.endDec_decNbits : s.endDec.decNbits = s.decNbits := rfl
@[simp] theorem State.endDec_decNsyms : s.endDec.decNsyms = s.decNsyms := rfl
@[simp] theorem State.endDec_encNbits : s.endDec.encNbits = s.encNbits := rfl
@[simp] theorem State.endDec_encNsyms : s.endDec.encNsyms = s.encNsyms := rfl
@[simp] theorem State.endDec_tree : s.endDec.tree = s.tree := rfl
@[simp] theorem State.endDec_code : s.endDec.code = s.code := rfl
@[simp] theorem State.endDec_dout : s.endDec.dout = s.dout := rfl
@[simp] theorem State.endDec_eout : s.endDec.eout = s.eout := rfl
@[simp] theorem State.endDec_host : s.endDec.host = s.host := rfl

/-! ### endEnc -/

@[simp] theorem State.endEnc_err : s.endEnc.err = s.err := rfl
@[simp] theorem State.endEnc_cmdPend : s.endEnc.cmdPend = s.cmdPend := rfl
@[simp] theorem State.endEnc_cmdr : s.endEnc.cmdr = s.cmdr := rfl
@[simp] theorem State.endEnc_root : s.endEnc.root = s.root := rfl
@[simp] theorem State.endEnc_rootValid : s.endEnc.rootValid = s.rootValid := rfl
@[simp] theorem State.endEnc_cur : s.endEnc.cur = s.cur := rfl
@[simp] theorem State.endEnc_decActive : s.endEnc.decActive = s.decActive := rfl
@[simp] theorem State.endEnc_encActive : s.endEnc.encActive = false := rfl
@[simp] theorem State.endEnc_pbuf : s.endEnc.pbuf = s.pbuf := rfl
@[simp] theorem State.endEnc_pcnt : s.endEnc.pcnt = s.pcnt := rfl
@[simp] theorem State.endEnc_decNbits : s.endEnc.decNbits = s.decNbits := rfl
@[simp] theorem State.endEnc_decNsyms : s.endEnc.decNsyms = s.decNsyms := rfl
@[simp] theorem State.endEnc_encNbits : s.endEnc.encNbits = s.encNbits := rfl
@[simp] theorem State.endEnc_encNsyms : s.endEnc.encNsyms = s.encNsyms := rfl
@[simp] theorem State.endEnc_tree : s.endEnc.tree = s.tree := rfl
@[simp] theorem State.endEnc_code : s.endEnc.code = s.code := rfl
@[simp] theorem State.endEnc_dout : s.endEnc.dout = s.dout := rfl
@[simp] theorem State.endEnc_eout : s.endEnc.eout = s.eout := rfl
@[simp] theorem State.endEnc_host : s.endEnc.host = s.host := rfl

/-! ### takeCommand -/

@[simp] theorem State.takeCommand_err : s.takeCommand.err = s.err := rfl
@[simp] theorem State.takeCommand_cmdPend : s.takeCommand.cmdPend = false := rfl
@[simp] theorem State.takeCommand_cmdr : s.takeCommand.cmdr = s.cmdr := rfl
@[simp] theorem State.takeCommand_root : s.takeCommand.root = s.root := rfl
@[simp] theorem State.takeCommand_rootValid : s.takeCommand.rootValid = s.rootValid := rfl
@[simp] theorem State.takeCommand_cur : s.takeCommand.cur = s.cur := rfl
@[simp] theorem State.takeCommand_decActive : s.takeCommand.decActive = s.decActive := rfl
@[simp] theorem State.takeCommand_encActive : s.takeCommand.encActive = s.encActive := rfl
@[simp] theorem State.takeCommand_pbuf : s.takeCommand.pbuf = s.pbuf := rfl
@[simp] theorem State.takeCommand_pcnt : s.takeCommand.pcnt = s.pcnt := rfl
@[simp] theorem State.takeCommand_decNbits : s.takeCommand.decNbits = s.decNbits := rfl
@[simp] theorem State.takeCommand_decNsyms : s.takeCommand.decNsyms = s.decNsyms := rfl
@[simp] theorem State.takeCommand_encNbits : s.takeCommand.encNbits = s.encNbits := rfl
@[simp] theorem State.takeCommand_encNsyms : s.takeCommand.encNsyms = s.encNsyms := rfl
@[simp] theorem State.takeCommand_tree : s.takeCommand.tree = s.tree := rfl
@[simp] theorem State.takeCommand_code : s.takeCommand.code = s.code := rfl
@[simp] theorem State.takeCommand_dout : s.takeCommand.dout = s.dout := rfl
@[simp] theorem State.takeCommand_eout : s.takeCommand.eout = s.eout := rfl
@[simp] theorem State.takeCommand_host : s.takeCommand.host = s.host := rfl

/-! ### writeNode -/

@[simp] theorem State.writeNode_err (i : NodeIdx) (n : Node) : (s.writeNode i n).err = s.err := rfl
@[simp] theorem State.writeNode_cmdPend (i : NodeIdx) (n : Node) : (s.writeNode i n).cmdPend = s.cmdPend := rfl
@[simp] theorem State.writeNode_cmdr (i : NodeIdx) (n : Node) : (s.writeNode i n).cmdr = s.cmdr := rfl
@[simp] theorem State.writeNode_root (i : NodeIdx) (n : Node) : (s.writeNode i n).root = s.root := rfl
@[simp] theorem State.writeNode_rootValid (i : NodeIdx) (n : Node) : (s.writeNode i n).rootValid = s.rootValid := rfl
@[simp] theorem State.writeNode_cur (i : NodeIdx) (n : Node) : (s.writeNode i n).cur = s.cur := rfl
@[simp] theorem State.writeNode_decActive (i : NodeIdx) (n : Node) : (s.writeNode i n).decActive = s.decActive := rfl
@[simp] theorem State.writeNode_encActive (i : NodeIdx) (n : Node) : (s.writeNode i n).encActive = s.encActive := rfl
@[simp] theorem State.writeNode_pbuf (i : NodeIdx) (n : Node) : (s.writeNode i n).pbuf = s.pbuf := rfl
@[simp] theorem State.writeNode_pcnt (i : NodeIdx) (n : Node) : (s.writeNode i n).pcnt = s.pcnt := rfl
@[simp] theorem State.writeNode_decNbits (i : NodeIdx) (n : Node) : (s.writeNode i n).decNbits = s.decNbits := rfl
@[simp] theorem State.writeNode_decNsyms (i : NodeIdx) (n : Node) : (s.writeNode i n).decNsyms = s.decNsyms := rfl
@[simp] theorem State.writeNode_encNbits (i : NodeIdx) (n : Node) : (s.writeNode i n).encNbits = s.encNbits := rfl
@[simp] theorem State.writeNode_encNsyms (i : NodeIdx) (n : Node) : (s.writeNode i n).encNsyms = s.encNsyms := rfl
@[simp] theorem State.writeNode_tree (i : NodeIdx) (n : Node) : (s.writeNode i n).tree = s.tree.write i.toNat n := rfl
@[simp] theorem State.writeNode_code (i : NodeIdx) (n : Node) : (s.writeNode i n).code = s.code := rfl
@[simp] theorem State.writeNode_dout (i : NodeIdx) (n : Node) : (s.writeNode i n).dout = s.dout := rfl
@[simp] theorem State.writeNode_eout (i : NodeIdx) (n : Node) : (s.writeNode i n).eout = s.eout := rfl
@[simp] theorem State.writeNode_host (i : NodeIdx) (n : Node) : (s.writeNode i n).host = s.host := rfl

/-! ### writeCode -/

@[simp] theorem State.writeCode_err (c : Symbol) (e : CodeEntry) : (s.writeCode c e).err = s.err := rfl
@[simp] theorem State.writeCode_cmdPend (c : Symbol) (e : CodeEntry) : (s.writeCode c e).cmdPend = s.cmdPend := rfl
@[simp] theorem State.writeCode_cmdr (c : Symbol) (e : CodeEntry) : (s.writeCode c e).cmdr = s.cmdr := rfl
@[simp] theorem State.writeCode_root (c : Symbol) (e : CodeEntry) : (s.writeCode c e).root = s.root := rfl
@[simp] theorem State.writeCode_rootValid (c : Symbol) (e : CodeEntry) : (s.writeCode c e).rootValid = s.rootValid := rfl
@[simp] theorem State.writeCode_cur (c : Symbol) (e : CodeEntry) : (s.writeCode c e).cur = s.cur := rfl
@[simp] theorem State.writeCode_decActive (c : Symbol) (e : CodeEntry) : (s.writeCode c e).decActive = s.decActive := rfl
@[simp] theorem State.writeCode_encActive (c : Symbol) (e : CodeEntry) : (s.writeCode c e).encActive = s.encActive := rfl
@[simp] theorem State.writeCode_pbuf (c : Symbol) (e : CodeEntry) : (s.writeCode c e).pbuf = s.pbuf := rfl
@[simp] theorem State.writeCode_pcnt (c : Symbol) (e : CodeEntry) : (s.writeCode c e).pcnt = s.pcnt := rfl
@[simp] theorem State.writeCode_decNbits (c : Symbol) (e : CodeEntry) : (s.writeCode c e).decNbits = s.decNbits := rfl
@[simp] theorem State.writeCode_decNsyms (c : Symbol) (e : CodeEntry) : (s.writeCode c e).decNsyms = s.decNsyms := rfl
@[simp] theorem State.writeCode_encNbits (c : Symbol) (e : CodeEntry) : (s.writeCode c e).encNbits = s.encNbits := rfl
@[simp] theorem State.writeCode_encNsyms (c : Symbol) (e : CodeEntry) : (s.writeCode c e).encNsyms = s.encNsyms := rfl
@[simp] theorem State.writeCode_tree (c : Symbol) (e : CodeEntry) : (s.writeCode c e).tree = s.tree := rfl
@[simp] theorem State.writeCode_code (c : Symbol) (e : CodeEntry) : (s.writeCode c e).code = s.code.write c.toNat e := rfl
@[simp] theorem State.writeCode_dout (c : Symbol) (e : CodeEntry) : (s.writeCode c e).dout = s.dout := rfl
@[simp] theorem State.writeCode_eout (c : Symbol) (e : CodeEntry) : (s.writeCode c e).eout = s.eout := rfl
@[simp] theorem State.writeCode_host (c : Symbol) (e : CodeEntry) : (s.writeCode c e).host = s.host := rfl

/-! ### eraseCode -/

@[simp] theorem State.eraseCode_err (c : Symbol) : (s.eraseCode c).err = s.err := rfl
@[simp] theorem State.eraseCode_cmdPend (c : Symbol) : (s.eraseCode c).cmdPend = s.cmdPend := rfl
@[simp] theorem State.eraseCode_cmdr (c : Symbol) : (s.eraseCode c).cmdr = s.cmdr := rfl
@[simp] theorem State.eraseCode_root (c : Symbol) : (s.eraseCode c).root = s.root := rfl
@[simp] theorem State.eraseCode_rootValid (c : Symbol) : (s.eraseCode c).rootValid = s.rootValid := rfl
@[simp] theorem State.eraseCode_cur (c : Symbol) : (s.eraseCode c).cur = s.cur := rfl
@[simp] theorem State.eraseCode_decActive (c : Symbol) : (s.eraseCode c).decActive = s.decActive := rfl
@[simp] theorem State.eraseCode_encActive (c : Symbol) : (s.eraseCode c).encActive = s.encActive := rfl
@[simp] theorem State.eraseCode_pbuf (c : Symbol) : (s.eraseCode c).pbuf = s.pbuf := rfl
@[simp] theorem State.eraseCode_pcnt (c : Symbol) : (s.eraseCode c).pcnt = s.pcnt := rfl
@[simp] theorem State.eraseCode_decNbits (c : Symbol) : (s.eraseCode c).decNbits = s.decNbits := rfl
@[simp] theorem State.eraseCode_decNsyms (c : Symbol) : (s.eraseCode c).decNsyms = s.decNsyms := rfl
@[simp] theorem State.eraseCode_encNbits (c : Symbol) : (s.eraseCode c).encNbits = s.encNbits := rfl
@[simp] theorem State.eraseCode_encNsyms (c : Symbol) : (s.eraseCode c).encNsyms = s.encNsyms := rfl
@[simp] theorem State.eraseCode_tree (c : Symbol) : (s.eraseCode c).tree = s.tree := rfl
@[simp] theorem State.eraseCode_code (c : Symbol) : (s.eraseCode c).code = s.code.erase c.toNat := rfl
@[simp] theorem State.eraseCode_dout (c : Symbol) : (s.eraseCode c).dout = s.dout := rfl
@[simp] theorem State.eraseCode_eout (c : Symbol) : (s.eraseCode c).eout = s.eout := rfl
@[simp] theorem State.eraseCode_host (c : Symbol) : (s.eraseCode c).host = s.host := rfl

/-! ### countBit -/

@[simp] theorem State.countBit_err : s.countBit.err = s.err := rfl
@[simp] theorem State.countBit_cmdPend : s.countBit.cmdPend = s.cmdPend := rfl
@[simp] theorem State.countBit_cmdr : s.countBit.cmdr = s.cmdr := rfl
@[simp] theorem State.countBit_root : s.countBit.root = s.root := rfl
@[simp] theorem State.countBit_rootValid : s.countBit.rootValid = s.rootValid := rfl
@[simp] theorem State.countBit_cur : s.countBit.cur = s.cur := rfl
@[simp] theorem State.countBit_decActive : s.countBit.decActive = s.decActive := rfl
@[simp] theorem State.countBit_encActive : s.countBit.encActive = s.encActive := rfl
@[simp] theorem State.countBit_pbuf : s.countBit.pbuf = s.pbuf := rfl
@[simp] theorem State.countBit_pcnt : s.countBit.pcnt = s.pcnt := rfl
@[simp] theorem State.countBit_decNbits : s.countBit.decNbits = s.decNbits + 1#32 := rfl
@[simp] theorem State.countBit_decNsyms : s.countBit.decNsyms = s.decNsyms := rfl
@[simp] theorem State.countBit_encNbits : s.countBit.encNbits = s.encNbits := rfl
@[simp] theorem State.countBit_encNsyms : s.countBit.encNsyms = s.encNsyms := rfl
@[simp] theorem State.countBit_tree : s.countBit.tree = s.tree := rfl
@[simp] theorem State.countBit_code : s.countBit.code = s.code := rfl
@[simp] theorem State.countBit_dout : s.countBit.dout = s.dout := rfl
@[simp] theorem State.countBit_eout : s.countBit.eout = s.eout := rfl
@[simp] theorem State.countBit_host : s.countBit.host = s.host := rfl

/-! ### countEncoded -/

@[simp] theorem State.countEncoded_err (len : BitVec 8) : (s.countEncoded len).err = s.err := rfl
@[simp] theorem State.countEncoded_cmdPend (len : BitVec 8) : (s.countEncoded len).cmdPend = s.cmdPend := rfl
@[simp] theorem State.countEncoded_cmdr (len : BitVec 8) : (s.countEncoded len).cmdr = s.cmdr := rfl
@[simp] theorem State.countEncoded_root (len : BitVec 8) : (s.countEncoded len).root = s.root := rfl
@[simp] theorem State.countEncoded_rootValid (len : BitVec 8) : (s.countEncoded len).rootValid = s.rootValid := rfl
@[simp] theorem State.countEncoded_cur (len : BitVec 8) : (s.countEncoded len).cur = s.cur := rfl
@[simp] theorem State.countEncoded_decActive (len : BitVec 8) : (s.countEncoded len).decActive = s.decActive := rfl
@[simp] theorem State.countEncoded_encActive (len : BitVec 8) : (s.countEncoded len).encActive = s.encActive := rfl
@[simp] theorem State.countEncoded_pbuf (len : BitVec 8) : (s.countEncoded len).pbuf = s.pbuf := rfl
@[simp] theorem State.countEncoded_pcnt (len : BitVec 8) : (s.countEncoded len).pcnt = s.pcnt := rfl
@[simp] theorem State.countEncoded_decNbits (len : BitVec 8) : (s.countEncoded len).decNbits = s.decNbits := rfl
@[simp] theorem State.countEncoded_decNsyms (len : BitVec 8) : (s.countEncoded len).decNsyms = s.decNsyms := rfl
@[simp] theorem State.countEncoded_encNbits (len : BitVec 8) : (s.countEncoded len).encNbits = s.encNbits + zext32 len := rfl
@[simp] theorem State.countEncoded_encNsyms (len : BitVec 8) : (s.countEncoded len).encNsyms = s.encNsyms + 1#32 := rfl
@[simp] theorem State.countEncoded_tree (len : BitVec 8) : (s.countEncoded len).tree = s.tree := rfl
@[simp] theorem State.countEncoded_code (len : BitVec 8) : (s.countEncoded len).code = s.code := rfl
@[simp] theorem State.countEncoded_dout (len : BitVec 8) : (s.countEncoded len).dout = s.dout := rfl
@[simp] theorem State.countEncoded_eout (len : BitVec 8) : (s.countEncoded len).eout = s.eout := rfl
@[simp] theorem State.countEncoded_host (len : BitVec 8) : (s.countEncoded len).host = s.host := rfl

/-! ### clearDecoder -/

@[simp] theorem State.clearDecoder_err : s.clearDecoder.err = s.err &&& ~~~ decErrs := rfl
@[simp] theorem State.clearDecoder_cmdPend : s.clearDecoder.cmdPend = s.cmdPend := rfl
@[simp] theorem State.clearDecoder_cmdr : s.clearDecoder.cmdr = s.cmdr := rfl
@[simp] theorem State.clearDecoder_root : s.clearDecoder.root = s.root := rfl
@[simp] theorem State.clearDecoder_rootValid : s.clearDecoder.rootValid = s.rootValid := rfl
@[simp] theorem State.clearDecoder_cur : s.clearDecoder.cur = s.cur := rfl
@[simp] theorem State.clearDecoder_decActive : s.clearDecoder.decActive = s.decActive := rfl
@[simp] theorem State.clearDecoder_encActive : s.clearDecoder.encActive = s.encActive := rfl
@[simp] theorem State.clearDecoder_pbuf : s.clearDecoder.pbuf = s.pbuf := rfl
@[simp] theorem State.clearDecoder_pcnt : s.clearDecoder.pcnt = s.pcnt := rfl
@[simp] theorem State.clearDecoder_decNbits : s.clearDecoder.decNbits = 0#32 := rfl
@[simp] theorem State.clearDecoder_decNsyms : s.clearDecoder.decNsyms = 0#32 := rfl
@[simp] theorem State.clearDecoder_encNbits : s.clearDecoder.encNbits = s.encNbits := rfl
@[simp] theorem State.clearDecoder_encNsyms : s.clearDecoder.encNsyms = s.encNsyms := rfl
@[simp] theorem State.clearDecoder_tree : s.clearDecoder.tree = s.tree := rfl
@[simp] theorem State.clearDecoder_code : s.clearDecoder.code = s.code := rfl
@[simp] theorem State.clearDecoder_dout : s.clearDecoder.dout = s.dout := rfl
@[simp] theorem State.clearDecoder_eout : s.clearDecoder.eout = s.eout := rfl
@[simp] theorem State.clearDecoder_host : s.clearDecoder.host = s.host := rfl

/-! ### receive -/

@[simp] theorem State.receive_err (v : Word) : (s.receive v).err = s.err := rfl
@[simp] theorem State.receive_cmdPend (v : Word) : (s.receive v).cmdPend = s.cmdPend := rfl
@[simp] theorem State.receive_cmdr (v : Word) : (s.receive v).cmdr = s.cmdr := rfl
@[simp] theorem State.receive_root (v : Word) : (s.receive v).root = s.root := rfl
@[simp] theorem State.receive_rootValid (v : Word) : (s.receive v).rootValid = s.rootValid := rfl
@[simp] theorem State.receive_cur (v : Word) : (s.receive v).cur = s.cur := rfl
@[simp] theorem State.receive_decActive (v : Word) : (s.receive v).decActive = s.decActive := rfl
@[simp] theorem State.receive_encActive (v : Word) : (s.receive v).encActive = s.encActive := rfl
@[simp] theorem State.receive_pbuf (v : Word) : (s.receive v).pbuf = s.pbuf := rfl
@[simp] theorem State.receive_pcnt (v : Word) : (s.receive v).pcnt = s.pcnt := rfl
@[simp] theorem State.receive_decNbits (v : Word) : (s.receive v).decNbits = s.decNbits := rfl
@[simp] theorem State.receive_decNsyms (v : Word) : (s.receive v).decNsyms = s.decNsyms := rfl
@[simp] theorem State.receive_encNbits (v : Word) : (s.receive v).encNbits = s.encNbits := rfl
@[simp] theorem State.receive_encNsyms (v : Word) : (s.receive v).encNsyms = s.encNsyms := rfl
@[simp] theorem State.receive_tree (v : Word) : (s.receive v).tree = s.tree := rfl
@[simp] theorem State.receive_code (v : Word) : (s.receive v).code = s.code := rfl
@[simp] theorem State.receive_dout (v : Word) : (s.receive v).dout = s.dout := rfl
@[simp] theorem State.receive_eout (v : Word) : (s.receive v).eout = s.eout := rfl
@[simp] theorem State.receive_host (v : Word) : (s.receive v).host = ⟨s.host.script, s.host.received ++ [v]⟩ := rfl

/-! ### withScript -/

@[simp] theorem State.withScript_err (ts : List Turn) : (s.withScript ts).err = s.err := rfl
@[simp] theorem State.withScript_cmdPend (ts : List Turn) : (s.withScript ts).cmdPend = s.cmdPend := rfl
@[simp] theorem State.withScript_cmdr (ts : List Turn) : (s.withScript ts).cmdr = s.cmdr := rfl
@[simp] theorem State.withScript_root (ts : List Turn) : (s.withScript ts).root = s.root := rfl
@[simp] theorem State.withScript_rootValid (ts : List Turn) : (s.withScript ts).rootValid = s.rootValid := rfl
@[simp] theorem State.withScript_cur (ts : List Turn) : (s.withScript ts).cur = s.cur := rfl
@[simp] theorem State.withScript_decActive (ts : List Turn) : (s.withScript ts).decActive = s.decActive := rfl
@[simp] theorem State.withScript_encActive (ts : List Turn) : (s.withScript ts).encActive = s.encActive := rfl
@[simp] theorem State.withScript_pbuf (ts : List Turn) : (s.withScript ts).pbuf = s.pbuf := rfl
@[simp] theorem State.withScript_pcnt (ts : List Turn) : (s.withScript ts).pcnt = s.pcnt := rfl
@[simp] theorem State.withScript_decNbits (ts : List Turn) : (s.withScript ts).decNbits = s.decNbits := rfl
@[simp] theorem State.withScript_decNsyms (ts : List Turn) : (s.withScript ts).decNsyms = s.decNsyms := rfl
@[simp] theorem State.withScript_encNbits (ts : List Turn) : (s.withScript ts).encNbits = s.encNbits := rfl
@[simp] theorem State.withScript_encNsyms (ts : List Turn) : (s.withScript ts).encNsyms = s.encNsyms := rfl
@[simp] theorem State.withScript_tree (ts : List Turn) : (s.withScript ts).tree = s.tree := rfl
@[simp] theorem State.withScript_code (ts : List Turn) : (s.withScript ts).code = s.code := rfl
@[simp] theorem State.withScript_dout (ts : List Turn) : (s.withScript ts).dout = s.dout := rfl
@[simp] theorem State.withScript_eout (ts : List Turn) : (s.withScript ts).eout = s.eout := rfl
@[simp] theorem State.withScript_host (ts : List Turn) : (s.withScript ts).host = ⟨ts, s.host.received⟩ := rfl

/-! ### popTurn -/

@[simp] theorem State.popTurn_err : s.popTurn.err = s.err := rfl
@[simp] theorem State.popTurn_cmdPend : s.popTurn.cmdPend = s.cmdPend := rfl
@[simp] theorem State.popTurn_cmdr : s.popTurn.cmdr = s.cmdr := rfl
@[simp] theorem State.popTurn_root : s.popTurn.root = s.root := rfl
@[simp] theorem State.popTurn_rootValid : s.popTurn.rootValid = s.rootValid := rfl
@[simp] theorem State.popTurn_cur : s.popTurn.cur = s.cur := rfl
@[simp] theorem State.popTurn_decActive : s.popTurn.decActive = s.decActive := rfl
@[simp] theorem State.popTurn_encActive : s.popTurn.encActive = s.encActive := rfl
@[simp] theorem State.popTurn_pbuf : s.popTurn.pbuf = s.pbuf := rfl
@[simp] theorem State.popTurn_pcnt : s.popTurn.pcnt = s.pcnt := rfl
@[simp] theorem State.popTurn_decNbits : s.popTurn.decNbits = s.decNbits := rfl
@[simp] theorem State.popTurn_decNsyms : s.popTurn.decNsyms = s.decNsyms := rfl
@[simp] theorem State.popTurn_encNbits : s.popTurn.encNbits = s.encNbits := rfl
@[simp] theorem State.popTurn_encNsyms : s.popTurn.encNsyms = s.encNsyms := rfl
@[simp] theorem State.popTurn_tree : s.popTurn.tree = s.tree := rfl
@[simp] theorem State.popTurn_code : s.popTurn.code = s.code := rfl
@[simp] theorem State.popTurn_dout : s.popTurn.dout = s.dout := rfl
@[simp] theorem State.popTurn_eout : s.popTurn.eout = s.eout := rfl
@[simp] theorem State.popTurn_host : s.popTurn.host = ⟨s.host.script.tail, s.host.received⟩ := rfl

/-! ### resetAll -/

@[simp] theorem State.resetAll_err : s.resetAll.err = 0x00#8 := rfl
@[simp] theorem State.resetAll_cmdPend : s.resetAll.cmdPend = false := rfl
@[simp] theorem State.resetAll_cmdr : s.resetAll.cmdr = 0#32 := rfl
@[simp] theorem State.resetAll_root : s.resetAll.root = 0#9 := rfl
@[simp] theorem State.resetAll_rootValid : s.resetAll.rootValid = false := rfl
@[simp] theorem State.resetAll_cur : s.resetAll.cur = 0#9 := rfl
@[simp] theorem State.resetAll_decActive : s.resetAll.decActive = false := rfl
@[simp] theorem State.resetAll_encActive : s.resetAll.encActive = false := rfl
@[simp] theorem State.resetAll_pbuf : s.resetAll.pbuf = 0x00#8 := rfl
@[simp] theorem State.resetAll_pcnt : s.resetAll.pcnt = 0#3 := rfl
@[simp] theorem State.resetAll_decNbits : s.resetAll.decNbits = 0#32 := rfl
@[simp] theorem State.resetAll_decNsyms : s.resetAll.decNsyms = 0#32 := rfl
@[simp] theorem State.resetAll_encNbits : s.resetAll.encNbits = 0#32 := rfl
@[simp] theorem State.resetAll_encNsyms : s.resetAll.encNsyms = 0#32 := rfl
@[simp] theorem State.resetAll_tree : s.resetAll.tree = [] := rfl
@[simp] theorem State.resetAll_code : s.resetAll.code = [] := rfl
@[simp] theorem State.resetAll_dout : s.resetAll.dout = [] := rfl
@[simp] theorem State.resetAll_eout : s.resetAll.eout = [] := rfl
@[simp] theorem State.resetAll_host : s.resetAll.host = s.host := rfl

end Sys2Proof.Machine
end

