-- ==== Sys2Proof/Laws/Flags.lean ====
section
/-! SUPPORT. The error bits and the STATUS word: one bit at a time. -/

namespace Sys2Proof.Machine

theorem getLsbD_setBit {w : Nat} (v : BitVec w) (i j : Nat) (b : Bool) (hj : j < w) :
    (setBit v i b).getLsbD j = if j = i then b else v.getLsbD j := by
  unfold setBit
  by_cases h : j = i
  · subst h
    cases b <;> simp [hj]
  · cases b <;> simp [hj, h]

theorem ErrCause.bitNo_bounds (e : ErrCause) : 8 ≤ e.bitNo ∧ e.bitNo < 16 := by cases e <;> decide

theorem ErrCause.bitNo_inj {e e' : ErrCause} (h : e.bitNo = e'.bitNo) : e = e' := by
  cases e <;> cases e' <;> first | rfl | (exact absurd h (by decide))

/-- A cause's bit in ERR is its own and no other's. -/
@[simp] theorem ErrCause.mask_bit (e e' : ErrCause) : e.mask.getLsbD (e'.bitNo - 8) = decide (e' = e) := by
  cases e <;> cases e' <;> decide

@[simp] theorem State.hasErr_setErr (s : State) (e e' : ErrCause) :
    (s.setErr e).hasErr e' = (s.hasErr e' || decide (e' = e)) := by
  cases e <;> cases e' <;> simp [State.hasErr, State.setErr, ErrCause.mask, ErrCause.bitNo]

@[simp] theorem State.hasErr_clearErrs (s : State) (m : BitVec 8) (e : ErrCause) :
    (s.clearErrs m).hasErr e = (s.hasErr e && !m.getLsbD (e.bitNo - 8)) := by
  have h : e.bitNo - 8 < 8 := by have := e.bitNo_bounds; omega
  simp [State.hasErr, State.clearErrs, h]

theorem decErrs_bit (e : ErrCause) : decErrs.getLsbD (e.bitNo - 8) =
    (decide (e = .missingTree) || decide (e = .malformedTree) || decide (e = .truncated) || decide (e = .decSeq)) := by
  cases e <;> decide

theorem encErrs_bit (e : ErrCause) :
    encErrs.getLsbD (e.bitNo - 8) = (decide (e = .unknownSymbol) || decide (e = .encSeq)) := by
  cases e <;> decide

/-- `hasErr` reads ERR alone. -/
theorem State.hasErr_congr {s t : State} (h : s.err = t.err) (e : ErrCause) : s.hasErr e = t.hasErr e := by
  simp [State.hasErr, h]

theorem getLsbD_bitAt (i j : Nat) (b : Bool) (hi : i < 32) : (bitAt i b).getLsbD j = (decide (j = i) && b) := by
  cases b <;> simp only [bitAt, Bool.false_eq_true, if_false, if_true, BitVec.getLsbD_zero, BitVec.getLsbD_twoPow, hi,
    decide_true, Bool.true_and, Bool.and_true, Bool.and_false]
  exact decide_eq_decide.2 eq_comm

/-- Every bit of STATUS (R15). -/
theorem State.status_bit (s : State) (i : Nat) : s.status.getLsbD i =
    (decide (i = 0) && s.cmdPend || decide (i = 1) && s.decActive || decide (i = 2) && s.encActive ||
      decide (i = 3) && s.rootValid || decide (i = 4) && s.doutAvail || decide (i = 5) && s.eoutAvail ||
      decide (i < 32) && !decide (i < 8) && s.err.getLsbD (i - 8)) := by
  by_cases h : i < 32
  · have h' : i - 8 < 32 := by omega
    simp [State.status, getLsbD_bitAt, zext32, BitVec.getLsbD_shiftLeft, h']
  · simp [State.status, getLsbD_bitAt, zext32, h]

end Sys2Proof.Machine
end

