-- ==== Sys2Proof/Laws/Memory.lean ====
section
/-! SUPPORT. TREE and CODE as memories: read after write and erase, and that both keep the canonical form. -/

namespace Sys2Proof.Machine

variable {α : Type}

@[simp] theorem Memory.read_nil (i : Nat) : Memory.read ([] : Memory α) i = none := rfl

theorem Memory.read_write (m : Memory α) (i j : Nat) (v : α) :
    (m.write i v).read j = if j = i then some v else m.read j := by
  induction m with
  | nil => simp [Memory.write, Memory.read]
  | cons p m ih =>
    obtain ⟨k, u⟩ := p
    simp only [Memory.write]
    split
    · simp only [Memory.read]
    · split
      · subst_vars
        simp only [Memory.read]
        split <;> rfl
      · simp only [Memory.read, ih]
        split
        · rw [if_neg (by omega)]
        · rfl

@[simp] theorem Memory.read_write_same (m : Memory α) (i : Nat) (v : α) : (m.write i v).read i = some v := by
  simp [Memory.read_write]

theorem Memory.read_write_other (m : Memory α) {i j : Nat} (v : α) (h : j ≠ i) :
    (m.write i v).read j = m.read j := by
  simp [Memory.read_write, h]

theorem Memory.read_erase (m : Memory α) (i j : Nat) :
    (m.erase i).read j = if j = i then none else m.read j := by
  induction m with
  | nil => simp [Memory.erase, Memory.read]
  | cons p m ih =>
    obtain ⟨k, u⟩ := p
    simp only [Memory.erase, List.filter_cons] at ih ⊢
    by_cases hk : k = i
    · subst hk
      simp only [bne_self_eq_false, Bool.false_eq_true, if_false, ih, Memory.read]
      split <;> rfl
    · simp only [bne_iff_ne, ne_eq, hk, not_false_eq_true, if_true, Memory.read, ih]
      split
      · rw [if_neg (by omega)]
      · rfl

theorem Memory.wf_iff (m : Memory α) (n : Nat) :
    m.wf n = true ↔ m.Pairwise (fun p q => p.1 < q.1) ∧ ∀ p ∈ m, p.1 < n := by
  simp [Memory.wf]

@[simp] theorem Memory.wf_nil (n : Nat) : Memory.wf ([] : Memory α) n = true := rfl

theorem Memory.mem_write {m : Memory α} {i : Nat} {v : α} {p : Nat × α} (h : p ∈ m.write i v) :
    p = (i, v) ∨ p ∈ m := by
  induction m with
  | nil => simpa [Memory.write] using h
  | cons q m ih =>
    obtain ⟨k, u⟩ := q
    simp only [Memory.write] at h
    split at h
    · simpa using h
    · split at h
      · rcases List.mem_cons.1 h with h | h
        · exact .inl h
        · exact .inr (List.mem_cons_of_mem _ h)
      · rcases List.mem_cons.1 h with h | h
        · exact .inr (h ▸ List.mem_cons_self)
        · exact (ih h).imp_right (List.mem_cons_of_mem _)

theorem Memory.wf_write {m : Memory α} {n : Nat} (hm : m.wf n = true) {i : Nat} (hi : i < n) (v : α) :
    (m.write i v).wf n = true := by
  rw [Memory.wf_iff] at hm ⊢
  refine ⟨?_, fun p hp => ?_⟩
  · have hp := hm.1
    clear hm
    induction m with
    | nil => simp [Memory.write]
    | cons q m ih =>
      obtain ⟨k, u⟩ := q
      have hq := List.pairwise_cons.1 hp
      simp only [Memory.write]
      split
      · refine List.pairwise_cons.2 ⟨fun p hp' => ?_, hp⟩
        rcases List.mem_cons.1 hp' with rfl | hp'
        · assumption
        · exact Nat.lt_trans ‹_› (hq.1 p hp')
      · split
        · subst_vars
          exact List.pairwise_cons.2 ⟨hq.1, hq.2⟩
        · refine List.pairwise_cons.2 ⟨fun p hp' => ?_, ih hq.2⟩
          rcases Memory.mem_write hp' with rfl | hp'
          · exact Nat.lt_of_le_of_ne (Nat.le_of_not_lt ‹_›) (Ne.symm ‹_›)
          · exact hq.1 p hp'
  · rcases Memory.mem_write hp with rfl | hp
    · exact hi
    · exact hm.2 p hp

theorem Memory.wf_erase {m : Memory α} {n : Nat} (hm : m.wf n = true) (i : Nat) : (m.erase i).wf n = true := by
  rw [Memory.wf_iff] at hm ⊢
  exact ⟨hm.1.filter _, fun p hp => hm.2 p (List.mem_of_mem_filter hp)⟩

theorem Memory.mem_of_read {m : Memory α} {i : Nat} {v : α} (h : m.read i = some v) : (i, v) ∈ m := by
  induction m with
  | nil => simp at h
  | cons p m ih =>
    obtain ⟨k, u⟩ := p
    simp only [Memory.read] at h
    split at h
    · simp_all
    · exact List.mem_cons_of_mem _ (ih h)

/-- In canonical form a memory is determined by what it reads as. -/
theorem Memory.ext_of_wf {m m' : Memory α} {n : Nat} (hm : m.wf n = true) (hm' : m'.wf n = true)
    (h : ∀ i, m.read i = m'.read i) : m = m' := by
  rw [Memory.wf_iff] at hm hm'
  have low : ∀ {k : Nat} {l : Memory α}, (∀ p ∈ l, k < p.1) → ∀ j, j ≤ k → l.read j = none := by
    intro k l hl j hj
    cases hr : l.read j with
    | none => rfl
    | some v =>
      have := hl _ (Memory.mem_of_read hr)
      simp only at this
      omega
  replace hm := hm.1
  replace hm' := hm'.1
  induction m generalizing m' with
  | nil =>
    cases m' with
    | nil => rfl
    | cons q l' =>
      have := h q.1
      simp [Memory.read] at this
  | cons p l ih =>
    cases m' with
    | nil =>
      have := h p.1
      simp [Memory.read] at this
    | cons q l' =>
      obtain ⟨i, u⟩ := p
      obtain ⟨j, v⟩ := q
      have hp := List.pairwise_cons.1 hm
      have hq := List.pairwise_cons.1 hm'
      have hij : i = j := by
        have h1 := h i
        have h2 := h j
        simp only [Memory.read, if_true] at h1 h2
        rcases Nat.lt_trichotomy i j with hlt | heq | hgt
        · rw [if_neg (by omega), low hq.1 i (by omega)] at h1
          cases h1
        · exact heq
        · rw [if_neg (by omega), low hp.1 j (by omega)] at h2
          cases h2
      subst hij
      have hv : u = v := by simpa [Memory.read] using h i
      subst hv
      rw [ih ?_ hp.2 hq.2]
      intro k
      have := h k
      simp only [Memory.read] at this
      split at this
      · subst_vars
        rw [low hp.1 _ (Nat.le_refl _), low hq.1 _ (Nat.le_refl _)]
      · exact this

end Sys2Proof.Machine
end

