-- ==== Sys2Proof/Laws/Ops.lean ====
section
/-! SUPPORT. The shared operations: room in the FIFOs, pushes, and how a command's parts follow each other. -/

namespace Sys2Proof.Machine

/-! ### Room -/

@[simp] theorem hasRoom_iff (used n least extra : Nat) :
    hasRoom used n least extra = true ↔ used + n ≤ least + extra := by
  simp only [hasRoom, Bool.or_eq_true, decide_eq_true_eq]
  omega

theorem State.roomDout_iff (s : State) (n : Nat) :
    s.roomDout n = true ↔ s.dout.length + n ≤ Config.doutDepth := hasRoom_iff ..

theorem State.roomEout_iff (s : State) (n : Nat) :
    s.roomEout n = true ↔ s.eout.length + n ≤ Config.eoutDepth := hasRoom_iff ..

/-- In the spec's words: `n` entries fit where `free(DOUT)` is at least `n`. -/
theorem State.roomDout_iff_free (s : State) {n : Nat} (hn : 1 ≤ n) : s.roomDout n = true ↔ n ≤ s.freeDout := by
  rw [State.roomDout_iff, State.freeDout]
  omega

theorem State.roomEout_iff_free (s : State) {n : Nat} (hn : 1 ≤ n) : s.roomEout n = true ↔ n ≤ s.freeEout := by
  rw [State.roomEout_iff, State.freeEout]
  omega

theorem doutDepth_ge : 16 ≤ Config.doutDepth := Nat.le_add_right 16 _

theorem eoutDepth_ge : 32 ≤ Config.eoutDepth := Nat.le_add_right 32 _

/-! ### Pushes -/

theorem pushDout_go {s : State} (sym : Symbol) (h : s.dout.length < Config.doutDepth) :
    pushDout sym s = .go { s with dout := s.dout ++ [sym] } := if_pos ((s.roomDout_iff 1).2 h)

theorem pushEout_go {s : State} (b : Byte) (h : s.eout.length < Config.eoutDepth) :
    pushEout b s = .go { s with eout := s.eout ++ [b] } := if_pos ((s.roomEout_iff 1).2 h)

/-- All a push onto DOUT can do. -/
theorem pushDout_cases (sym : Symbol) (s : State) :
    (s.dout.length < Config.doutDepth ∧ pushDout sym s = .go { s with dout := s.dout ++ [sym] }) ∨
      (Config.doutDepth ≤ s.dout.length ∧ pushDout sym s = .stop .doutOverflow) := by
  by_cases h : s.dout.length < Config.doutDepth
  · exact .inl ⟨h, pushDout_go sym h⟩
  · exact .inr ⟨by omega, if_neg fun h' => h ((s.roomDout_iff 1).1 h')⟩

/-- All a push onto EOUT can do. -/
theorem pushEout_cases (b : Byte) (s : State) :
    (s.eout.length < Config.eoutDepth ∧ pushEout b s = .go { s with eout := s.eout ++ [b] }) ∨
      (Config.eoutDepth ≤ s.eout.length ∧ pushEout b s = .stop .eoutOverflow) := by
  by_cases h : s.eout.length < Config.eoutDepth
  · exact .inl ⟨h, pushEout_go b h⟩
  · exact .inr ⟨by omega, if_neg fun h' => h ((s.roomEout_iff 1).1 h')⟩

/-! ### Flow -/

@[simp] theorem Flow.andThen_go (s : State) (k : State → Flow) : (Flow.go s).andThen k = k s := rfl

@[simp] theorem Flow.andThen_ended (s : State) (k : State → Flow) : (Flow.ended s).andThen k = .ended s := rfl

@[simp] theorem Flow.andThen_stop (f : Fault) (k : State → Flow) : (Flow.stop f).andThen k = .stop f := rfl

@[simp] theorem Flow.outcome_go (s : State) : (Flow.go s).outcome = .next s := rfl

@[simp] theorem Flow.outcome_ended (s : State) : (Flow.ended s).outcome = .next s := rfl

@[simp] theorem Flow.outcome_stop (f : Fault) : (Flow.stop f).outcome = .fault f := rfl

theorem Flow.andThen_assoc (f : Flow) (k l : State → Flow) :
    (f.andThen k).andThen l = f.andThen fun s => (k s).andThen l := by cases f <;> rfl

/-- A command leaves a next state exactly where it does not stop. -/
theorem Flow.outcome_next_iff (f : Flow) (t : State) : f.outcome = .next t ↔ f = .go t ∨ f = .ended t := by
  cases f <;> simp

/-- A raise leaves the state with the cause's bit set, and ends the command. -/
@[simp] theorem raise_eq (e : ErrCause) (s : State) : raise e s = .ended (s.setErr e) := rfl

/-! ### Nodes and codes -/

@[simp] theorem State.nodeAt_writeNode (s : State) (i j : NodeIdx) (n : Node) :
    (s.writeNode i n).nodeAt j = if j = i then some n else s.nodeAt j := by
  simp [State.nodeAt, Memory.read_write, BitVec.toNat_inj]

@[simp] theorem State.codeAt_writeCode (s : State) (c d : Symbol) (e : CodeEntry) :
    (s.writeCode c e).codeAt d = if d = c then some e else s.codeAt d := by
  simp [State.codeAt, Memory.read_write, BitVec.toNat_inj]

@[simp] theorem State.codeAt_eraseCode (s : State) (c d : Symbol) :
    (s.eraseCode c).codeAt d = if d = c then none else s.codeAt d := by
  simp [State.codeAt, Memory.read_erase, BitVec.toNat_inj]

end Sys2Proof.Machine
end

