-- ==== Sys2Proof/Laws/Encoder.lean ====
section
/-! SUPPORT. The packer: what one `append_bit` can do, and how strings of bits follow each other. -/

namespace Sys2Proof.Machine

@[simp] theorem byteBits_length (b : Byte) : (byteBits b).length = 8 := by simp [byteBits]

/-- Stream position `j` of a byte is its bit `7 - j` (R87). -/
@[simp] theorem byteBits_getElem (b : Byte) (j : Nat) (hj : j < (byteBits b).length) :
    (byteBits b)[j] = b.getLsbD (7 - j) := by simp [byteBits]

theorem pcnt_lt (s : State) : s.pcnt.toNat < 8 := s.pcnt.isLt

@[simp] theorem heldBits_length (s : State) : s.heldBits.length = s.pcnt.toNat := by
  have := pcnt_lt s
  simp [State.heldBits]
  omega

/-- Writing the next bit of PBUF lengthens what the packer holds by that bit. -/
theorem byteBits_setBit_take (v : Byte) (k : Nat) (hk : k < 8) (b : Bool) :
    (byteBits (setBit v (7 - k) b)).take (k + 1) = (byteBits v).take k ++ [b] := by
  apply List.ext_getElem
  · simp; omega
  · intro j h1 h2
    simp only [List.length_take, byteBits_length] at h1
    simp only [List.getElem_take, byteBits_getElem, List.getElem_append, List.length_take, byteBits_length,
      List.getElem_singleton]
    rw [getLsbD_setBit _ _ _ _ (by omega)]
    split <;> split <;> first | rfl | omega

/-- All one `append_bit` can do (R140): it stays in the byte, or it pushes a full one. -/
theorem appendBit_cases (b : Bool) (s : State) :
    (s.pcnt ≠ 7#3 ∧
      appendBit b s = .go { s with pbuf := setBit s.pbuf (7 - s.pcnt.toNat) b, pcnt := s.pcnt + 1#3 }) ∨
    (s.pcnt = 7#3 ∧ s.eout.length < Config.eoutDepth ∧
      appendBit b s = .go { s with eout := s.eout ++ [setBit s.pbuf 0 b], pbuf := 0x00#8, pcnt := 0#3 }) ∨
    (s.pcnt = 7#3 ∧ Config.eoutDepth ≤ s.eout.length ∧ appendBit b s = .stop .eoutOverflow) := by
  unfold appendBit
  by_cases h : s.pcnt = 7#3
  · have h7 : 7 - s.pcnt.toNat = 0 := by rw [h]; rfl
    simp only [h7, if_pos h]
    rcases pushEout_cases (setBit s.pbuf 0 b) s with ⟨hr, hp⟩ | ⟨hr, hp⟩
    · exact .inr (.inl ⟨h, hr, by rw [hp]; rfl⟩)
    · exact .inr (.inr ⟨h, hr, by rw [hp]; rfl⟩)
  · exact .inl ⟨h, by simp only [if_neg h]⟩

theorem appendBits_append (bs cs : List Bool) (s : State) :
    appendBits (bs ++ cs) s = (appendBits bs s).andThen (appendBits cs) := by
  induction bs generalizing s with
  | nil => rfl
  | cons b bs ih =>
    simp only [List.cons_append, appendBits, Flow.andThen_assoc]
    cases appendBit b s <;> simp [ih]

/-- All a string of bits can do: the bits held before, then the string, are the bits of the bytes pushed, then the
bits held after; or a push found EOUT full. -/
theorem appendBits_cases (bs : List Bool) (s : State) :
    (∃ p c new, appendBits bs s = .go { s with pbuf := p, pcnt := c, eout := s.eout ++ new } ∧
      c.toNat = (s.pcnt.toNat + bs.length) % 8 ∧ new.length = (s.pcnt.toNat + bs.length) / 8 ∧
      new.flatMap byteBits ++ (byteBits p).take c.toNat = s.heldBits ++ bs ∧
      ((∀ i, i + s.pcnt.toNat < 8 → s.pbuf.getLsbD i = false) → ∀ i, i + c.toNat < 8 → p.getLsbD i = false) ∧
      (s.eout ++ new).length ≤ max s.eout.length Config.eoutDepth) ∨
    (Config.eoutDepth < s.eout.length + (s.pcnt.toNat + bs.length) / 8 ∧ appendBits bs s = .stop .eoutOverflow) := by
  induction bs generalizing s with
  | nil =>
    have := s.pcnt.isLt
    exact .inl ⟨s.pbuf, s.pcnt, [], by simp [appendBits], by simp; omega, by simp; omega, by simp [State.heldBits],
      fun h => h, by simp⟩
  | cons b bs ih =>
    have hlt := s.pcnt.isLt
    simp only [appendBits]
    rcases appendBit_cases b s with ⟨h7, he⟩ | ⟨h7, hr, he⟩ | ⟨h7, hr, he⟩
    · rw [he, Flow.andThen_go]
      have h7' : s.pcnt.toNat < 7 := by
        rcases Nat.lt_or_ge s.pcnt.toNat 7 with h | h
        · exact h
        · exact absurd (BitVec.eq_of_toNat_eq (by simp; omega)) h7
      have hp : (s.pcnt + 1#3).toNat = s.pcnt.toNat + 1 := by simp [BitVec.toNat_add]; omega
      rcases ih { s with pbuf := setBit s.pbuf (7 - s.pcnt.toNat) b, pcnt := s.pcnt + 1#3 } with
        ⟨p, c, new, h, hm, hl, hb, hc, hd⟩ | ⟨hf, h⟩
      · simp only [hp] at hm hl hc
        refine .inl ⟨p, c, new, h, ?_, ?_, ?_, fun hs => hc fun i hi => ?_, hd⟩
        · rw [hm, List.length_cons]; congr 1; omega
        · rw [hl, List.length_cons]; congr 1; omega
        · rw [hb]
          simp only [State.heldBits, hp]
          rw [byteBits_setBit_take _ _ (by omega)]
          simp
        · rw [getLsbD_setBit _ _ _ _ (by omega), if_neg (by omega)]
          exact hs i (by omega)
      · refine .inr ⟨?_, h⟩
        simp only [hp] at hf
        rw [List.length_cons]
        have : s.pcnt.toNat + 1 + bs.length = s.pcnt.toNat + (bs.length + 1) := by omega
        rwa [this] at hf
    · rw [he, Flow.andThen_go]
      have h7n : s.pcnt.toNat = 7 := by rw [h7]; rfl
      have e7 : s.pcnt.toNat + (b :: bs).length = 8 + bs.length := by simp [h7n]; omega
      rcases ih { s with eout := s.eout ++ [setBit s.pbuf 0 b], pbuf := 0x00#8, pcnt := 0#3 } with
        ⟨p, c, new, h, hm, hl, hb, hc, hd⟩ | ⟨hf, h⟩
      · refine .inl ⟨p, c, setBit s.pbuf 0 b :: new, ?_, ?_, ?_, ?_, fun _ => hc fun i _ => ?_, ?_⟩
        · rw [h]; simp
        · rw [hm, e7]; simp
        · rw [e7, List.length_cons, hl]; simp
        · have e2 := byteBits_setBit_take s.pbuf 7 (by omega) b
          simp only [Nat.sub_self, List.take_of_length_le (show (byteBits (setBit s.pbuf 0 b)).length ≤ 7 + 1 by simp)]
            at e2
          have e3 : (byteBits s.pbuf).take 7 = s.heldBits := by simp [State.heldBits, h7n]
          simp only [List.flatMap_cons, List.append_assoc, hb, e2, e3]
          simp [State.heldBits]
        · simp
        · simp only [List.length_append, List.length_cons, List.length_nil] at hd ⊢; omega
      · refine .inr ⟨?_, h⟩
        rw [e7]
        simp at hf
        omega
    · refine .inr ⟨?_, by rw [he, Flow.andThen_stop]⟩
      have : s.pcnt.toNat = 7 := by rw [h7]; rfl
      simp [this]; omega

theorem codeString_length (e : CodeEntry) : e.codeString.length = e.len.toNat := by
  have := e.len.isLt
  simp [CodeEntry.codeString]
  omega

/-- All ENC_SYM's rule can do (R142). -/
theorem encodeSymbol_cases (sym : Symbol) (s : State) :
    (s.encActive = false ∧ encodeSymbol sym s = .ended (s.setErr .encSeq)) ∨
    (s.encActive = true ∧ s.codeAt sym = none ∧ encodeSymbol sym s = .ended (s.endEnc.setErr .unknownSymbol)) ∨
    (∃ e, s.encActive = true ∧ s.codeAt sym = some e ∧
      encodeSymbol sym s = (appendBits e.codeString s).andThen fun t => .go (t.countEncoded e.len)) := by
  unfold encodeSymbol
  cases ha : s.encActive
  · exact .inl ⟨rfl, by simp⟩
  · cases hc : s.codeAt sym with
    | none => exact .inr (.inl ⟨rfl, rfl, by simp⟩)
    | some e => exact .inr (.inr ⟨e, rfl, rfl, by simp⟩)

/-- All ENC_FLUSH's rule can do (R143). -/
theorem flushPacker_cases (s : State) :
    (s.encActive = false ∧ flushPacker s = .ended (s.setErr .encSeq)) ∨
    (s.encActive = true ∧ s.pcnt = 0#3 ∧ flushPacker s = .go s.endEnc) ∨
    (s.encActive = true ∧ s.pcnt ≠ 0#3 ∧ s.eout.length < Config.eoutDepth ∧
      flushPacker s = .go { s with eout := s.eout ++ [s.pbuf], pbuf := 0x00#8, pcnt := 0#3, encActive := false }) ∨
    (s.encActive = true ∧ s.pcnt ≠ 0#3 ∧ Config.eoutDepth ≤ s.eout.length ∧ flushPacker s = .stop .eoutOverflow) := by
  unfold flushPacker
  cases ha : s.encActive
  · exact .inl ⟨rfl, by simp⟩
  · by_cases hp : s.pcnt = 0#3
    · exact .inr (.inl ⟨rfl, hp, by simp [hp]⟩)
    · rcases pushEout_cases s.pbuf s with ⟨hr, h⟩ | ⟨hr, h⟩
      · exact .inr (.inr (.inl ⟨rfl, hp, hr, by simp [hp, h, State.endEnc]⟩))
      · exact .inr (.inr (.inr ⟨rfl, hp, hr, by simp [hp, h]⟩))

end Sys2Proof.Machine
end

