-- ==== Sys2Proof/Laws/Walker.lean ====
section
/-! SUPPORT. The tree walk: what one `step_bit` can do, and how strings of bits follow each other. -/

namespace Sys2Proof.Machine

@[simp] theorem failWalk_eq (e : ErrCause) (s : State) : failWalk e s = .ended (s.endDec.setErr e) := rfl

/-- All `emitSymbol` can do. -/
theorem emitSymbol_cases (sym : Symbol) (s : State) :
    (s.dout.length < Config.doutDepth ∧ emitSymbol sym s =
      .go { s with dout := s.dout ++ [sym], decNsyms := s.decNsyms + 1#32, cur := s.root }) ∨
    (Config.doutDepth ≤ s.dout.length ∧ emitSymbol sym s = .stop .doutOverflow) := by
  rcases pushDout_cases sym s with ⟨hr, h⟩ | ⟨hr, h⟩
  · exact .inl ⟨hr, by rw [emitSymbol, h]; rfl⟩
  · exact .inr ⟨hr, by rw [emitSymbol, h]; rfl⟩

/-- What a bit that is consumed leads to: the symbol it emits, or the internal node CUR moves to (R161). -/
inductive BitResult where
  | emit (sym : Symbol)
  | move (nxt : NodeIdx)

/-- What the bit leads to in this state, or the cause it raises (R161). -/
def bitResult (b : Bool) (s : State) : Except ErrCause BitResult :=
  if s.rootValid = false then .error .missingTree
  else
    match s.nodeAt s.root, s.nodeAt s.cur with
    | none, _ => .error .malformedTree
    | some (.leaf sym), _ => .ok (.emit sym)
    | some (.internal _ _), some (.internal left right) =>
      match s.nodeAt (if b then right else left) with
      | none => .error .malformedTree
      | some (.leaf sym) => .ok (.emit sym)
      | some (.internal _ _) => .ok (.move (if b then right else left))
    | some (.internal _ _), _ => .error .malformedTree

/-- All one `step_bit` can do: it raises and changes nothing else but the session, it emits, or it moves. -/
theorem stepBit_eq (b : Bool) (s : State) :
    stepBit b s =
      match bitResult b s with
      | .error e => .ended (s.endDec.setErr e)
      | .ok (.emit sym) => emitSymbol sym s.countBit
      | .ok (.move nxt) => .go { s.countBit with cur := nxt } := by
  unfold stepBit bitResult stepTo
  cases hv : s.rootValid
  · rfl
  · simp only [if_true, Bool.true_eq_false, if_false]
    rcases hr : s.nodeAt s.root with _ | (sym | ⟨l, r⟩)
    · rfl
    · rfl
    · rcases hc : s.nodeAt s.cur with _ | (sym | ⟨left, right⟩)
      · rfl
      · rfl
      · simp only
        rcases s.nodeAt (if b then right else left) with _ | (sym | ⟨l', r'⟩) <;> rfl

theorem bitResult_error {b : Bool} {s : State} {e : ErrCause} (h : bitResult b s = .error e) :
    e = .missingTree ∧ s.rootValid = false ∨ e = .malformedTree ∧ s.rootValid = true := by
  unfold bitResult at h
  cases hv : s.rootValid
  · simp [hv] at h; exact .inl ⟨h.symm, rfl⟩
  · simp only [hv, Bool.true_eq_false, if_false] at h
    refine .inr ⟨?_, rfl⟩
    split at h
    · simpa using h.symm
    · cases h
    · split at h
      · simpa using h.symm
      · cases h
      · cases h
    · simpa using h.symm

theorem walkBits_append (bs cs : List Bool) (s : State) :
    walkBits (bs ++ cs) s = (walkBits bs s).andThen (walkBits cs) := by
  induction bs generalizing s with
  | nil => rfl
  | cons b bs ih =>
    simp only [List.cons_append, walkBits, Flow.andThen_assoc]
    cases stepBit b s <;> simp [ih]

/-- All a string of bits can do: every bit is consumed; or one raises, after `k` of them were consumed; or a push
found DOUT full, which room for one symbol per bit rules out. -/
theorem walkBits_cases (bs : List Bool) (s : State) :
    (∃ c out, out.length ≤ bs.length ∧ (s.dout ++ out).length ≤ max s.dout.length Config.doutDepth ∧
      walkBits bs s = .go { s with
        cur := c, dout := s.dout ++ out,
        decNbits := s.decNbits + BitVec.ofNat 32 bs.length, decNsyms := s.decNsyms + BitVec.ofNat 32 out.length }) ∨
    (∃ c out k e, k < bs.length ∧ out.length ≤ k ∧ (s.dout ++ out).length ≤ max s.dout.length Config.doutDepth ∧
      (e = ErrCause.missingTree ∧ s.rootValid = false ∨ e = .malformedTree ∧ s.rootValid = true) ∧
      walkBits bs s = .ended { s with
        err := s.err ||| e.mask, decActive := false, cur := c, dout := s.dout ++ out,
        decNbits := s.decNbits + BitVec.ofNat 32 k, decNsyms := s.decNsyms + BitVec.ofNat 32 out.length }) ∨
    (Config.doutDepth < s.dout.length + bs.length ∧ walkBits bs s = .stop .doutOverflow) := by
  induction bs generalizing s with
  | nil => exact .inl ⟨s.cur, [], by simp, by simp, by simp [walkBits]⟩
  | cons b bs ih =>
    simp only [walkBits, stepBit_eq]
    cases hb : bitResult b s with
    | error e =>
      exact .inr (.inl ⟨s.cur, [], 0, e, by simp, by simp, by simp, bitResult_error hb,
        by simp [State.setErr, State.endDec]⟩)
    | ok r =>
      cases r with
      | emit sym =>
        rcases emitSymbol_cases sym s.countBit with ⟨hr, he⟩ | ⟨hr, he⟩
        · have hr : s.dout.length < Config.doutDepth := hr
          simp only [he, Flow.andThen_go]
          rcases ih { s with
              decNbits := s.decNbits + 1#32, dout := s.dout ++ [sym], decNsyms := s.decNsyms + 1#32, cur := s.root } with
            ⟨c, out, hl, hd, h⟩ | ⟨c, out, k, e, hk, hl, hd, hh, h⟩ | ⟨hf, h⟩
          · refine .inl ⟨c, sym :: out, by simp; omega, by
              simp only [List.length_append, List.length_cons, List.length_nil] at hd ⊢; omega, ?_⟩
            refine h.trans ?_
            simp [BitVec.ofNat_add, BitVec.add_assoc, BitVec.add_comm 1#32]
          · refine .inr (.inl ⟨c, sym :: out, k + 1, e, by simp; omega, by simp; omega, by
              simp only [List.length_append, List.length_cons, List.length_nil] at hd ⊢; omega, hh, ?_⟩)
            refine h.trans ?_
            simp [BitVec.ofNat_add, BitVec.add_assoc, BitVec.add_comm 1#32]
          · exact .inr (.inr ⟨by simp at hf ⊢; omega, h⟩)
        · exact .inr (.inr ⟨by simp at hr ⊢; omega, by simp [he]⟩)
      | move nxt =>
        simp only [Flow.andThen_go]
        rcases ih { s with decNbits := s.decNbits + 1#32, cur := nxt } with
          ⟨c, out, hl, hd, h⟩ | ⟨c, out, k, e, hk, hl, hd, hh, h⟩ | ⟨hf, h⟩
        · refine .inl ⟨c, out, by simp; omega, hd, ?_⟩
          refine h.trans ?_
          simp [BitVec.ofNat_add, BitVec.add_assoc, BitVec.add_comm 1#32]
        · refine .inr (.inl ⟨c, out, k + 1, e, by simp; omega, by omega, hd, hh, ?_⟩)
          refine h.trans ?_
          simp [BitVec.ofNat_add, BitVec.add_assoc, BitVec.add_comm 1#32]
        · exact .inr (.inr ⟨by simp at hf ⊢; omega, h⟩)

/-- All DEC_START's rule can do (R160). -/
theorem openWalk_cases (s : State) :
    (s.rootValid = false ∧ openWalk s = .ended (s.clearDecoder.endDec.setErr .missingTree)) ∨
    (s.rootValid = true ∧ s.nodeAt s.root = none ∧ openWalk s = .ended (s.clearDecoder.endDec.setErr .malformedTree)) ∨
    (∃ n, s.rootValid = true ∧ s.nodeAt s.root = some n ∧
      openWalk s = .go { s.clearDecoder with cur := s.root, decActive := true }) := by
  have hn : s.clearDecoder.nodeAt s.root = s.nodeAt s.root := rfl
  unfold openWalk
  cases hv : s.rootValid
  · exact .inl ⟨rfl, by simp [hv]⟩
  · cases hr : s.nodeAt s.root with
    | none => exact .inr (.inl ⟨rfl, rfl, by simp [hv, hn, hr]⟩)
    | some n => exact .inr (.inr ⟨n, rfl, rfl, by simp [hv, hn, hr]⟩)

/-- All DEC_END's rule can do (R163). -/
theorem closeWalk_cases (s : State) :
    (s.decActive = false ∧ closeWalk s = .ended (s.setErr .decSeq)) ∨
    (s.decActive = true ∧ s.cur = s.root ∧ closeWalk s = .go s.endDec) ∨
    (s.decActive = true ∧ s.cur ≠ s.root ∧ closeWalk s = .ended (s.endDec.setErr .truncated)) := by
  unfold closeWalk
  cases ha : s.decActive
  · exact .inl ⟨rfl, by simp⟩
  · by_cases hc : s.cur = s.root
    · exact .inr (.inl ⟨rfl, hc, by simp [hc]⟩)
    · exact .inr (.inr ⟨rfl, hc, by simp [hc]⟩)

end Sys2Proof.Machine
end

