-- ==== Sys2Proof/Laws/Exec.lean ====
section
/-! SUPPORT. All a command can do when it leaves a next state, one lemma per command that branches. -/

namespace Sys2Proof.Machine

theorem dataBits_length {n : Nat} (hn : n ≤ 16) (data : BitVec 16) : (dataBits n data).length = n := by
  simp [dataBits]
  omega

theorem dataBits_length_le (n : Nat) (data : BitVec 16) : (dataBits n data).length ≤ n := by simp [dataBits]

theorem execCodeLen_next {c : Symbol} {len : BitVec 8} {s t : State} (h : exec (.codeLen c len) s = .next t) :
    (len = 0#8 ∧ t = s.eraseCode c) ∨ (len ≠ 0#8 ∧ t = s.writeCode c ⟨len, Vector.replicate 255 false⟩) := by
  simp only [exec, execCodeLen] at h
  split at h <;> simp only [Host.Outcome.next.injEq] at h
  · exact .inl ⟨‹_›, h.symm⟩
  · exact .inr ⟨‹_›, h.symm⟩

theorem execCodeBits_next {c : Symbol} {k : BitVec 4} {data : BitVec 16} {s t : State}
    (h : exec (.codeBits c k data) s = .next t) :
    (s.codeAt c = none ∧ t = s) ∨
    ∃ e, s.codeAt c = some e ∧ t = s.writeCode c { e with bits := writeChunk e.bits k data } := by
  simp only [exec, execCodeBits] at h
  split at h <;> simp only [Host.Outcome.next.injEq] at h
  · exact .inl ⟨‹_›, h.symm⟩
  · exact .inr ⟨_, ‹_›, h.symm⟩

theorem execDecStart_next {s t : State} (h : exec .decStart s = .next t) :
    (s.rootValid = false ∧ t = s.clearDecoder.endDec.setErr .missingTree) ∨
    (s.rootValid = true ∧ s.nodeAt s.root = none ∧ t = s.clearDecoder.endDec.setErr .malformedTree) ∨
    (∃ n, s.rootValid = true ∧ s.nodeAt s.root = some n ∧
      t = { s.clearDecoder with cur := s.root, decActive := true }) := by
  simp only [exec, execDecStart] at h
  rcases openWalk_cases s with ⟨ha, he⟩ | ⟨ha, hc, he⟩ | ⟨n, ha, hc, he⟩ <;> rw [he] at h <;>
    simp only [Flow.outcome_go, Flow.outcome_ended, Host.Outcome.next.injEq] at h
  · exact .inl ⟨ha, h.symm⟩
  · exact .inr (.inl ⟨ha, hc, h.symm⟩)
  · exact .inr (.inr ⟨n, ha, hc, h.symm⟩)

theorem execDecBits_next {n : Nat} {data : BitVec 16} {s t : State} (h : exec (.decBits n data) s = .next t) :
    (s.decActive = false ∧ t = s.setErr .decSeq) ∨
    (s.decActive = true ∧ ∃ c out, out.length ≤ (dataBits n data).length ∧
      (s.dout ++ out).length ≤ max s.dout.length Config.doutDepth ∧
      t = { s with
        cur := c, dout := s.dout ++ out, decNbits := s.decNbits + BitVec.ofNat 32 (dataBits n data).length,
        decNsyms := s.decNsyms + BitVec.ofNat 32 out.length }) ∨
    (s.decActive = true ∧ ∃ c out k e, k < (dataBits n data).length ∧ out.length ≤ k ∧
      (s.dout ++ out).length ≤ max s.dout.length Config.doutDepth ∧
      (e = ErrCause.missingTree ∧ s.rootValid = false ∨ e = .malformedTree ∧ s.rootValid = true) ∧
      t = { s with
        err := s.err ||| e.mask, decActive := false, cur := c, dout := s.dout ++ out,
        decNbits := s.decNbits + BitVec.ofNat 32 k, decNsyms := s.decNsyms + BitVec.ofNat 32 out.length }) := by
  simp only [exec, execDecBits, consumeBits] at h
  cases ha : s.decActive
  · simp only [ha, Bool.false_eq_true, if_false, raise_eq, Flow.outcome_ended, Host.Outcome.next.injEq] at h
    exact .inl ⟨rfl, h.symm⟩
  · simp only [ha, if_true] at h
    rcases walkBits_cases (dataBits n data) s with ⟨c, out, hl, hd, hw⟩ | ⟨c, out, k, e, hk, hl, hd, hh, hw⟩ | ⟨_, hw⟩ <;>
      rw [hw] at h <;> simp only [Flow.outcome_go, Flow.outcome_ended, Flow.outcome_stop, Host.Outcome.next.injEq] at h
    · exact .inr (.inl ⟨rfl, c, out, hl, hd, by rw [← h, ha]⟩)
    · exact .inr (.inr ⟨rfl, c, out, k, e, hk, hl, hd, hh, h.symm⟩)
    · cases h

theorem execDecEnd_next {s t : State} (h : exec .decEnd s = .next t) :
    (s.decActive = false ∧ t = s.setErr .decSeq) ∨
    (s.decActive = true ∧ s.cur = s.root ∧ t = s.endDec) ∨
    (s.decActive = true ∧ s.cur ≠ s.root ∧ t = s.endDec.setErr .truncated) := by
  simp only [exec, execDecEnd] at h
  rcases closeWalk_cases s with ⟨ha, he⟩ | ⟨ha, hc, he⟩ | ⟨ha, hc, he⟩ <;> rw [he] at h <;>
    simp only [Flow.outcome_go, Flow.outcome_ended, Host.Outcome.next.injEq] at h
  · exact .inl ⟨ha, h.symm⟩
  · exact .inr (.inl ⟨ha, hc, h.symm⟩)
  · exact .inr (.inr ⟨ha, hc, h.symm⟩)

theorem execEncSym_next {c : Symbol} {s t : State} (h : exec (.encSym c) s = .next t) :
    (s.encActive = false ∧ t = s.setErr .encSeq) ∨
    (s.encActive = true ∧ s.codeAt c = none ∧ t = s.endEnc.setErr .unknownSymbol) ∨
    (s.encActive = true ∧ ∃ x p k new, s.codeAt c = some x ∧
      k.toNat = (s.pcnt.toNat + x.len.toNat) % 8 ∧ new.length = (s.pcnt.toNat + x.len.toNat) / 8 ∧
      new.flatMap byteBits ++ (byteBits p).take k.toNat = s.heldBits ++ x.codeString ∧
      ((∀ i, i + s.pcnt.toNat < 8 → s.pbuf.getLsbD i = false) → ∀ i, i + k.toNat < 8 → p.getLsbD i = false) ∧
      (s.eout ++ new).length ≤ max s.eout.length Config.eoutDepth ∧
      t = { s with pbuf := p, pcnt := k, eout := s.eout ++ new }.countEncoded x.len) := by
  simp only [exec, execEncSym] at h
  rcases encodeSymbol_cases c s with ⟨ha, he⟩ | ⟨ha, hc, he⟩ | ⟨x, ha, hc, he⟩ <;> rw [he] at h
  · simp only [Flow.outcome_ended, Host.Outcome.next.injEq] at h
    exact .inl ⟨ha, h.symm⟩
  · simp only [Flow.outcome_ended, Host.Outcome.next.injEq] at h
    exact .inr (.inl ⟨ha, hc, h.symm⟩)
  · rcases appendBits_cases x.codeString s with ⟨p, k, new, hw, hk, hn, hb, hp, hd⟩ | ⟨_, hw⟩ <;> rw [hw] at h
    · simp only [Flow.andThen_go, Flow.outcome_go, Host.Outcome.next.injEq] at h
      rw [codeString_length] at hk hn
      exact .inr (.inr ⟨ha, x, p, k, new, hc, hk, hn, hb, hp, hd, h.symm⟩)
    · simp only [Flow.andThen_stop, Flow.outcome_stop] at h
      cases h

theorem execEncFlush_next {s t : State} (h : exec .encFlush s = .next t) :
    (s.encActive = false ∧ t = s.setErr .encSeq) ∨
    (s.encActive = true ∧ s.pcnt = 0#3 ∧ t = s.endEnc) ∨
    (s.encActive = true ∧ s.pcnt ≠ 0#3 ∧ s.eout.length < Config.eoutDepth ∧
      t = { s with eout := s.eout ++ [s.pbuf], pbuf := 0x00#8, pcnt := 0#3, encActive := false }) := by
  simp only [exec, execEncFlush] at h
  rcases flushPacker_cases s with ⟨ha, he⟩ | ⟨ha, hc, he⟩ | ⟨ha, hc, hr, he⟩ | ⟨ha, hc, hr, he⟩ <;> rw [he] at h <;>
    simp only [Flow.outcome_go, Flow.outcome_ended, Flow.outcome_stop, Host.Outcome.next.injEq] at h
  · exact .inl ⟨ha, h.symm⟩
  · exact .inr (.inl ⟨ha, hc, h.symm⟩)
  · exact .inr (.inr ⟨ha, hc, hr, h.symm⟩)
  · cases h

end Sys2Proof.Machine
end

