-- ==== Sys2Proof/Laws/PerInstr.lean ====
section
/-! SUPPORT. Per instruction: the word of a command is covered by a row of R81 that reads the command back. -/

namespace Sys2Proof.Laws.RowReadsBack

-- Elaborating these proofs side by side only costs threads.
set_option Elab.async false

/-- Some row of the table covers the command's word, and where the command is well formed reads its operands. -/
def Statement (i : Instr) : Prop :=
  ∃ r ∈ encodingRows, r.covers (encode i) = true ∧ (i.wellFormed = true → r.operands (encode i) = i)

theorem row {r : EncodingRow} {i : Instr} (n : Nat) (hr : encodingRows[n]? = some r)
    (hc : r.covers (encode i) = true) (ho : i.wellFormed = true → r.operands (encode i) = i) : Statement i :=
  ⟨r, List.mem_of_getElem? hr, hc, ho⟩

theorem nop : Statement .nop := row 0 rfl rfl fun _ => rfl

theorem srst : Statement .srst := row 1 rfl rfl fun _ => rfl

theorem rootClr : Statement .rootClr := row 5 rfl rfl fun _ => rfl

theorem decStart : Statement .decStart := row 8 rfl rfl fun _ => rfl

theorem decEnd : Statement .decEnd := row 10 rfl rfl fun _ => rfl

theorem encStart : Statement .encStart := row 11 rfl rfl fun _ => rfl

theorem encFlush : Statement .encFlush := row 13 rfl rfl fun _ => rfl

theorem treeInt (idx left right : NodeIdx) : Statement (.treeInt idx left right) := by
  refine row 2 rfl ?_ fun _ => ?_
  · simp only [EncodingRow.covers, encode, zext32, beq_iff_eq]
    ext k hk
    simp only [BitVec.getElem_and, BitVec.getElem_or, BitVec.getElem_shiftLeft, BitVec.getElem_setWidth]
    interval_cases k <;> simp
  · simp only [encode, field, zext32, Instr.treeInt.injEq]
    refine ⟨?_, ?_, ?_⟩ <;> ext k hk <;>
      simp only [BitVec.getElem_extractLsb', BitVec.getLsbD_or, BitVec.getLsbD_shiftLeft, BitVec.getLsbD_setWidth] <;>
      interval_cases k <;> simp

theorem treeLeaf (idx : NodeIdx) (sym : Symbol) : Statement (.treeLeaf idx sym) := by
  refine row 3 rfl ?_ fun _ => ?_
  · simp only [EncodingRow.covers, encode, zext32, beq_iff_eq]
    ext k hk
    simp only [BitVec.getElem_and, BitVec.getElem_or, BitVec.getElem_shiftLeft, BitVec.getElem_setWidth]
    interval_cases k <;> simp
  · simp only [encode, field, zext32, Instr.treeLeaf.injEq]
    refine ⟨?_, ?_⟩ <;> ext k hk <;>
      simp only [BitVec.getElem_extractLsb', BitVec.getLsbD_or, BitVec.getLsbD_shiftLeft, BitVec.getLsbD_setWidth] <;>
      interval_cases k <;> simp

theorem rootSet (idx : NodeIdx) : Statement (.rootSet idx) := by
  refine row 4 rfl ?_ fun _ => ?_
  · simp only [EncodingRow.covers, encode, zext32, beq_iff_eq]
    ext k hk
    simp only [BitVec.getElem_and, BitVec.getElem_or, BitVec.getElem_setWidth]
    interval_cases k <;> simp
  · simp only [encode, field, zext32, Instr.rootSet.injEq]
    ext k hk
    simp only [BitVec.getElem_extractLsb', BitVec.getLsbD_or, BitVec.getLsbD_setWidth]
    interval_cases k <;> simp

theorem codeLen (sym : Symbol) (len : BitVec 8) : Statement (.codeLen sym len) := by
  refine row 6 rfl ?_ fun _ => ?_
  · simp only [EncodingRow.covers, encode, zext32, beq_iff_eq]
    ext k hk
    simp only [BitVec.getElem_and, BitVec.getElem_or, BitVec.getElem_shiftLeft, BitVec.getElem_setWidth]
    interval_cases k <;> simp
  · simp only [encode, field, zext32, Instr.codeLen.injEq]
    refine ⟨?_, ?_⟩ <;> ext k hk <;>
      simp only [BitVec.getElem_extractLsb', BitVec.getLsbD_or, BitVec.getLsbD_shiftLeft, BitVec.getLsbD_setWidth] <;>
      interval_cases k <;> simp

theorem codeBits (sym : Symbol) (chunk : BitVec 4) (data : BitVec 16) : Statement (.codeBits sym chunk data) := by
  refine row 7 rfl ?_ fun _ => ?_
  · simp only [EncodingRow.covers, encode, zext32, beq_iff_eq]
    ext k hk
    simp only [BitVec.getElem_and, BitVec.getElem_or, BitVec.getElem_shiftLeft, BitVec.getElem_setWidth]
    interval_cases k <;> simp
  · simp only [encode, field, zext32, Instr.codeBits.injEq]
    refine ⟨?_, ?_, ?_⟩ <;> ext k hk <;>
      simp only [BitVec.getElem_extractLsb', BitVec.getLsbD_or, BitVec.getLsbD_shiftLeft, BitVec.getLsbD_setWidth] <;>
      interval_cases k <;> simp

theorem decBits (n : Nat) (data : BitVec 16) : Statement (.decBits n data) := by
  refine row 9 rfl ?_ fun hn => ?_
  · simp only [EncodingRow.covers, encode, zext32, beq_iff_eq]
    ext k hk
    simp only [BitVec.getElem_and, BitVec.getElem_or, BitVec.getElem_shiftLeft, BitVec.getElem_setWidth]
    interval_cases k <;> simp
  · simp only [Instr.wellFormed, Bool.and_eq_true, decide_eq_true_eq] at hn
    have hc : field (encode (.decBits n data)) 16 4 = BitVec.ofNat 4 (n - 1) := by
      simp only [encode, field, zext32]
      generalize BitVec.ofNat 4 (n - 1) = c
      ext k hk
      simp only [BitVec.getElem_extractLsb', BitVec.getLsbD_or, BitVec.getLsbD_shiftLeft, BitVec.getLsbD_setWidth]
      interval_cases k <;> simp
    have hd : field (encode (.decBits n data)) 0 16 = data := by
      simp only [encode, field, zext32]
      ext k hk
      simp only [BitVec.getElem_extractLsb', BitVec.getLsbD_or, BitVec.getLsbD_shiftLeft, BitVec.getLsbD_setWidth]
      interval_cases k <;> simp
    simp only [hc, hd, Instr.decBits.injEq, BitVec.toNat_ofNat, and_true]
    omega

theorem encSym (sym : Symbol) : Statement (.encSym sym) := by
  refine row 12 rfl ?_ fun _ => ?_
  · simp only [EncodingRow.covers, encode, zext32, beq_iff_eq]
    ext k hk
    simp only [BitVec.getElem_and, BitVec.getElem_or, BitVec.getElem_setWidth]
    interval_cases k <;> simp
  · simp only [encode, field, zext32, Instr.encSym.injEq]
    ext k hk
    simp only [BitVec.getElem_extractLsb', BitVec.getLsbD_or, BitVec.getLsbD_setWidth]
    interval_cases k <;> simp

end Sys2Proof.Laws.RowReadsBack
end

