-- ==== Sys2Proof/Laws/Port.lean ====
section
/-! SUPPORT. HOST's transactions: all a read and a write can do, and where the window lies. -/

namespace Sys2Proof.Machine

/-- All a host read can change: the FIFO it pops, and what HOST has received. -/
theorem hostRead_cases (a : PortAddr) (s : State) :
    (wordOffset a = 0x24 ∧ hostRead a s = { s with dout := s.dout.tail }.receive (fifoWord s.dout)) ∨
    (wordOffset a = 0x28 ∧ hostRead a s = { s with eout := s.eout.tail }.receive (fifoWord s.eout)) ∨
    (wordOffset a ≠ 0x24 ∧ wordOffset a ≠ 0x28 ∧ hostRead a s = s.receive (readValue a s)) := by
  by_cases h4 : wordOffset a = 0x24
  · exact .inl ⟨h4, by simp only [hostRead, readEffect, readValue, h4]⟩
  · by_cases h8 : wordOffset a = 0x28
    · exact .inr (.inl ⟨h8, by simp only [hostRead, readEffect, readValue, h8]⟩)
    · refine .inr (.inr ⟨h4, h8, ?_⟩)
      unfold hostRead readEffect
      split
      · exact absurd ‹_› h4
      · exact absurd ‹_› h8
      · rfl

/-- All a host write can do. -/
theorem hostWrite_cases (a : PortAddr) (v : Word) (s : State) :
    (wordOffset a = 0x00 ∧ hostWrite a v s = s.clearErrs (v.extractLsb' 8 8)) ∨
    (wordOffset a = 0x04 ∧ s.cmdPend = true ∧ hostWrite a v s = s.setErr .cmdOvf) ∨
    (wordOffset a = 0x04 ∧ s.cmdPend = false ∧ hostWrite a v s = { s with cmdr := v, cmdPend := true }) ∨
    (wordOffset a ≠ 0x00 ∧ wordOffset a ≠ 0x04 ∧ hostWrite a v s = s) := by
  unfold hostWrite writeCmd
  split
  · exact .inl ⟨‹_›, rfl⟩
  · cases hp : s.cmdPend
    · exact .inr (.inr (.inl ⟨‹_›, rfl, by simp⟩))
    · exact .inr (.inl ⟨‹_›, rfl, by simp⟩)
  · exact .inr (.inr (.inr ⟨‹_›, ‹_›, rfl⟩))

theorem fifoWord_cons (x : BitVec 8) (q : List (BitVec 8)) : (fifoWord (x :: q)).toNat = 256 + x.toNat := by
  have hx : (zext32 x).toNat = x.toNat := by
    simp only [zext32, BitVec.toNat_setWidth]
    exact Nat.mod_eq_of_lt (by have := x.isLt; omega)
  have h : (0x100#32 &&& zext32 x) = 0#32 := by
    apply BitVec.eq_of_getLsbD_eq
    intro i hi
    simp only [zext32, BitVec.getLsbD_and, BitVec.getLsbD_setWidth, BitVec.getLsbD_zero]
    by_cases h8 : i < 8
    · have : (0x100#32).getLsbD i = false := by interval_cases i <;> rfl
      simp [this]
    · rw [BitVec.getLsbD_of_ge x i (by omega)]
      simp
  show (0x100#32 ||| zext32 x).toNat = _
  rw [← BitVec.add_eq_or_of_and_eq_zero _ _ h, BitVec.toNat_add, hx]
  have := x.isLt
  simp
  omega

/-- The 64 bytes of a window of HTW are its offsets, whichever window it is (R41, R54). -/
theorem windowOffset_window {w : Nat} (hw : w ∈ Config.htwWindows) {k : Nat} (hk : k < 64) :
    windowOffset (64 * w + k) = some (BitVec.ofNat 6 k) := by
  have hd : (64 * w + k) / 64 = w := by omega
  have hm : BitVec.ofNat 6 (64 * w + k) = BitVec.ofNat 6 k := by
    apply BitVec.eq_of_toNat_eq
    simp
  rw [windowOffset, hd, if_pos hw, hm]

/-- The window at HTW_BASE. -/
theorem windowOffset_base {k : Nat} (hk : k < 64) : windowOffset (Config.htwBase + k) = some (BitVec.ofNat 6 k) :=
  windowOffset_window (List.mem_cons_self ..) hk

/-- An address of no window is not HTW's. -/
theorem windowOffset_outside {addr : Nat} (h : addr / 64 ∉ Config.htwWindows) : windowOffset addr = none := if_neg h

/-- An access through an alias is the access at HTW_BASE with the same offset (R54). -/
theorem access_alias {w : Nat} (hw : w ∈ Config.htwAliases) {k : Nat} (hk : k < 64) (v : Word) :
    readAt (64 * w + k) = readAt (Config.htwBase + k) ∧ writeAt (64 * w + k) v = writeAt (Config.htwBase + k) v := by
  simp only [readAt, writeAt, windowOffset_base hk, windowOffset_window (List.mem_cons_of_mem _ hw) hk, and_self]

end Sys2Proof.Machine
end

