-- ==== Sys2Proof/Laws/Step.lean ====
section
/-! SUPPORT. One step, by whose turn it is. -/

namespace Sys2Proof.Machine

theorem step_read {s : State} {a : PortAddr} (h : s.turn = .read a) : step s = .next (hostRead a s.popTurn) := by
  simp [step, h, takeTurn]

theorem step_write {s : State} {a : PortAddr} {v : Word} (h : s.turn = .write a v) :
    step s = .next (hostWrite a v s.popTurn) := by
  simp [step, h, takeTurn]

theorem step_resetInput {s : State} (h : s.turn = .resetInput) : step s = .next s.popTurn.resetAll := by
  simp [step, h, takeTurn, assertReset]

/-- ENGINE is idle or held: nothing changes but the turn. -/
theorem step_idle {s : State} (h : s.turn = .engine) (he : s.engineEnabled = false) : step s = .next s.popTurn := by
  have : s.popTurn.engineEnabled = false := he
  simp [step, h, takeTurn, engineTurn, this]

/-- ENGINE executes CMDR. -/
theorem step_execute {s : State} (h : s.turn = .engine) (he : s.engineEnabled = true) :
    step s = execute (decode s.cmdr) s.popTurn.takeCommand := by
  have : s.popTurn.engineEnabled = true := he
  simp [step, h, takeTurn, engineTurn, this]

/-- Where ENGINE executes a command, the command is pending and not held. -/
theorem State.executing_iff (s : State) (i : Instr) :
    s.executing = some i ↔
      s.turn = .engine ∧ s.cmdPend = true ∧ held i s = false ∧ decode s.cmdr = .instr i := by
  unfold State.executing State.enginesStep State.engineEnabled State.heldCmdr
  cases hd : decode s.cmdr <;> simp [Decoded.instr?]
  · rename_i j
    constructor
    · rintro ⟨⟨ht, hp, hh⟩, rfl⟩
      exact ⟨ht, hp, hh, rfl⟩
    · rintro ⟨ht, hp, hh, rfl⟩
      exact ⟨⟨ht, hp, hh⟩, rfl⟩

/-- The step of a state that executes a command. -/
theorem step_of_executing {s : State} {i : Instr} (h : s.executing = some i) :
    step s = exec i s.popTurn.takeCommand := by
  obtain ⟨ht, hp, hh, hd⟩ := (s.executing_iff i).1 h
  have he : s.engineEnabled = true := by simp [State.engineEnabled, State.heldCmdr, hp, hd, hh]
  rw [step_execute ht he, hd, execute]

/-- All one step can be. -/
theorem step_cases (s : State) :
    (∃ a, s.turn = .read a ∧ step s = .next (hostRead a s.popTurn)) ∨
    (∃ a v, s.turn = .write a v ∧ step s = .next (hostWrite a v s.popTurn)) ∨
    (s.turn = .resetInput ∧ step s = .next s.popTurn.resetAll) ∨
    (s.turn = .engine ∧ s.engineEnabled = false ∧ step s = .next s.popTurn) ∨
    (∃ why, s.turn = .engine ∧ s.engineEnabled = true ∧ decode s.cmdr = .illegal why ∧
      step s = .next (s.popTurn.takeCommand.setErr .illegalCmd)) ∨
    (∃ i, s.executing = some i ∧ step s = exec i s.popTurn.takeCommand) := by
  cases ht : s.turn with
  | read a => exact .inl ⟨a, rfl, step_read ht⟩
  | write a v => exact .inr (.inl ⟨a, v, rfl, step_write ht⟩)
  | resetInput => exact .inr (.inr (.inl ⟨rfl, step_resetInput ht⟩))
  | engine =>
    cases he : s.engineEnabled with
    | false => exact .inr (.inr (.inr (.inl ⟨rfl, rfl, step_idle ht he⟩)))
    | true =>
      cases hd : decode s.cmdr with
      | illegal why =>
        exact .inr (.inr (.inr (.inr (.inl ⟨why, rfl, rfl, rfl, by rw [step_execute ht he, hd]; rfl⟩))))
      | instr i =>
        have hx : s.executing = some i := by
          simp [State.executing, State.enginesStep, ht, he, hd, Decoded.instr?]
        exact .inr (.inr (.inr (.inr (.inr ⟨i, hx, step_of_executing hx⟩))))

/-- HTW executes a command only on ENGINE's turn. -/
theorem State.executing_of_turn {s : State} (h : s.turn ≠ .engine) : s.executing = none := by
  simp [State.executing, State.enginesStep, h]

/-- Which steps execute a command, and all the others can leave. -/
theorem step_next {s t : State} (h : step s = .next t) :
    (∃ a, s.turn = .read a ∧ s.executing = none ∧ t = hostRead a s.popTurn) ∨
    (∃ a v, s.turn = .write a v ∧ s.executing = none ∧ t = hostWrite a v s.popTurn) ∨
    (s.turn = .resetInput ∧ s.executing = none ∧ t = s.popTurn.resetAll) ∨
    (s.turn = .engine ∧ s.executing = none ∧ s.engineEnabled = false ∧ t = s.popTurn) ∨
    (∃ why, s.turn = .engine ∧ s.executing = none ∧ s.engineEnabled = true ∧ decode s.cmdr = .illegal why ∧
      t = s.popTurn.takeCommand.setErr .illegalCmd) ∨
    (∃ i, s.turn = .engine ∧ s.executing = some i ∧ s.engineEnabled = true ∧ decode s.cmdr = .instr i ∧
      exec i s.popTurn.takeCommand = .next t) := by
  rcases step_cases s with ⟨a, ht, h'⟩ | ⟨a, v, ht, h'⟩ | ⟨ht, h'⟩ | ⟨ht, he, h'⟩ | ⟨w, ht, he, hd, h'⟩ | ⟨i, hx, h'⟩ <;>
    rw [h'] at h <;> try simp only [Host.Outcome.next.injEq] at h
  · exact .inl ⟨a, ht, State.executing_of_turn (by simp [ht]), h.symm⟩
  · exact .inr (.inl ⟨a, v, ht, State.executing_of_turn (by simp [ht]), h.symm⟩)
  · exact .inr (.inr (.inl ⟨ht, State.executing_of_turn (by simp [ht]), h.symm⟩))
  · exact .inr (.inr (.inr (.inl ⟨ht, by simp [State.executing, State.enginesStep, he], he, h.symm⟩)))
  · exact .inr (.inr (.inr (.inr (.inl ⟨w, ht, by simp [State.executing, hd, Decoded.instr?], he, hd, h.symm⟩))))
  · obtain ⟨ht, hp, hh, hd⟩ := (s.executing_iff i).1 hx
    exact .inr (.inr (.inr (.inr (.inr ⟨i, ht, hx, by simp [State.engineEnabled, State.heldCmdr, hp, hd, hh], hd, h⟩))))

/-- A step that executes a command is a reset exactly where the command is SRST. -/
theorem State.isReset_of_executing {s : State} {i : Instr} (h : s.executing = some i) :
    s.isReset = decide (i = .srst) := by
  have ht := ((s.executing_iff i).1 h).1
  simp [State.isReset, h, ht]

/-! ### What reads a state's tables and error bits does not read its turns, nor CMD_PEND -/

@[simp] theorem State.nodeAt_popTurn (s : State) (i : NodeIdx) : s.popTurn.nodeAt i = s.nodeAt i := rfl
@[simp] theorem State.codeAt_popTurn (s : State) (c : Symbol) : s.popTurn.codeAt c = s.codeAt c := rfl
@[simp] theorem State.hasErr_popTurn (s : State) (e : ErrCause) : s.popTurn.hasErr e = s.hasErr e := rfl
@[simp] theorem State.nodeAt_takeCommand (s : State) (i : NodeIdx) : s.takeCommand.nodeAt i = s.nodeAt i := rfl
@[simp] theorem State.codeAt_takeCommand (s : State) (c : Symbol) : s.takeCommand.codeAt c = s.codeAt c := rfl
@[simp] theorem State.hasErr_takeCommand (s : State) (e : ErrCause) : s.takeCommand.hasErr e = s.hasErr e := rfl
@[simp] theorem State.hasErr_resetAll (s : State) (e : ErrCause) : s.resetAll.hasErr e = false := by
  simp [State.hasErr]

end Sys2Proof.Machine
end

