-- ==== Sys2Proof/Tests/Slice0.lean ====
section
/-! SUPPORT. The model's own tests. Expected values are the spec's: the vector of 95_test_vectors.md or the rule named
in each docstring. Then, for each obligation with hypotheses, a state and operands that meet them. -/

namespace Sys2Proof.Tests
open Sys2Proof Sys2Proof.Machine

-- Each kernel evaluation waits for the declarations before it, so elaborating them side by side only costs threads.
set_option Elab.async false

/-! ### Well-formedness (R78, R90) -/

theorem test_wellFormed_refuses_count_zero : (Instr.decBits 0 0x0000#16).wellFormed = false := by decide
theorem test_wellFormed_refuses_count_seventeen : (Instr.decBits 17 0x0000#16).wellFormed = false := by decide
theorem test_wellFormed_takes_counts_one_and_sixteen :
    (Instr.decBits 1 0x0000#16).wellFormed = true ∧ (Instr.decBits 16 0x0000#16).wellFormed = true := by decide

/-! ### Decoding: words of 95_test_vectors.md 0.1, 2.1 and of the examples of R120 to R163 -/

theorem test_decode_nop : decode 0x00000000#32 = .instr .nop := by decide +kernel
theorem test_decode_srst : decode 0x10000000#32 = .instr .srst := by decide +kernel
theorem test_decode_treeInt : decode 0x20140604#32 = .instr (.treeInt 5#9 3#9 4#9) := by decide +kernel
theorem test_decode_treeLeaf : decode 0x280C0043#32 = .instr (.treeLeaf 3#9 0x43#8) := by decide +kernel
theorem test_decode_rootSet : decode 0x300001FF#32 = .instr (.rootSet 511#9) := by decide +kernel
theorem test_decode_rootClr : decode 0x38000000#32 = .instr .rootClr := by decide +kernel
theorem test_decode_codeLen : decode 0x45203000#32 = .instr (.codeLen 0x52#8 3#8) := by decide +kernel
theorem test_decode_codeBits : decode 0x501F0003#32 = .instr (.codeBits 0x01#8 15#4 0x0003#16) := by decide +kernel
theorem test_decode_decStart : decode 0x60000000#32 = .instr .decStart := by decide +kernel
theorem test_decode_decBits : decode 0x7006DC00#32 = .instr (.decBits 7 0xDC00#16) := by decide +kernel
theorem test_decode_decEnd : decode 0x80000000#32 = .instr .decEnd := by decide +kernel
theorem test_decode_encStart : decode 0x90000000#32 = .instr .encStart := by decide +kernel
theorem test_decode_encSym : decode 0xA000005A#32 = .instr (.encSym 0x5A#8) := by decide +kernel
theorem test_decode_encFlush : decode 0xB0000000#32 = .instr .encFlush := by decide +kernel

/-- 95 2.1: a reserved bit of each format. -/
theorem test_decode_refuses_reserved_bits :
    [0x00000001#32, 0x10000001#32, 0x2803FF00#32, 0x30000200#32, 0x38000001#32, 0x3C000000#32, 0x40000001#32,
      0x60000001#32, 0x70100000#32, 0x90000001#32, 0xA0000100#32].all
      (fun w => decode w == .illegal .reservedBits) = true := by decide +kernel

/-- 95 2.1: the reserved opcodes. -/
theorem test_decode_refuses_reserved_opcodes :
    [0xC0000000#32, 0xDEADBEEF#32, 0xE0000000#32, 0xFFFFFFFF#32].all
      (fun w => decode w == .illegal .reservedOpcode) = true := by decide +kernel

theorem test_decodeTableWord : decodeTableWord 32 0x700F6E8A = some (.decBits 16 0x6E8A#16) := by decide +kernel

/-- 95 0.1, L_ABR: encoding. -/
theorem test_encode_load_words :
    encode (.treeInt 8#9 0#9 7#9) = 0x20200007#32 ∧ encode (.codeBits 0x44#8 0#4 0xA000#16) = 0x5440A000#32 := by decide

/-! ### Small states -/

/-- T_ABR of 95 0.1, as TREE holds it. -/
def treeABR : Memory Node := [
  (0, .leaf 0x41#8), (1, .leaf 0x42#8), (2, .leaf 0x52#8), (3, .leaf 0x43#8), (4, .leaf 0x44#8),
  (5, .internal 3#9 4#9), (6, .internal 1#9 2#9), (7, .internal 5#9 6#9), (8, .internal 0#9 7#9)]

/-- The entry of a code written as a string. -/
def entry (c : List Bool) : CodeEntry := ⟨BitVec.ofNat 8 c.length, Vector.ofFn fun p => c.getD p false⟩

/-- A "0" and B "110" of 95 0.1. -/
def codeAB : Memory CodeEntry := [(0x41, entry [false]), (0x42, entry [true, true, false])]

/-- Reset, then T_ABR and two of its codes. -/
def abr : State := { State.reset with tree := treeABR, code := codeAB, root := 8#9, rootValid := true }

/-- Both sessions open on `abr`, nothing consumed. -/
def open_ : State := { abr with decActive := true, cur := 8#9, encActive := true }

/-- The single leaf T_A of 95 0.2, decode session open. -/
def leafA : State := { State.reset with tree := [(0, .leaf 0x41#8)], rootValid := true, decActive := true }

/-- A field of the state a command leaves. -/
def after {α : Type} (i : Instr) (s : State) (f : State → α) : Option α :=
  match exec i s with
  | .next t => some (f t)
  | _ => none

/-- A field of the state a step leaves. -/
def stepped {α : Type} (s : State) (f : State → α) : Option α :=
  match step s with
  | .next t => some (f t)
  | _ => none

/-- The state on HOST's turn. -/
def withTurn (t : Turn) (s : State) : State := s.withScript [t]

/-! ### Commands -/

/-- K1. -/
theorem test_nop : exec .nop open_ = .next open_ := rfl

/-- K10. -/
theorem test_srst : after .srst { open_ with pbuf := 0xC0#8, pcnt := 3#3, eout := [0x6E#8] }
    (fun t => (t.status, t.root, t.pack, t.nodeValid 8#9, t.codeValid 0x41#8)) =
    some (0x00#32, 0#9, 0x00#32, false, false) := by decide +kernel

/-- K11. -/
theorem test_treeInt : after (.treeInt 5#9 3#9 4#9) State.reset (fun t => (t.nodeAt 5#9, t.nodeValid 3#9)) =
    some (some (.internal 3#9 4#9), false) := by decide

/-- Q13's TREE_LEAF: a valid node is replaced. -/
theorem test_treeLeaf : after (.treeLeaf 7#9 0x58#8) abr (fun t => (t.nodeAt 7#9, t.nodeAt 8#9)) =
    some (some (.leaf 0x58#8), some (.internal 0#9 7#9)) := by decide +kernel

/-- K2. -/
theorem test_rootSet : after (.rootSet 511#9) State.reset (fun t => (t.root, t.status)) =
    some (0x1FF#9, 0x08#32) := by decide

/-- K3. -/
theorem test_rootClr : after .rootClr { State.reset with root := 0x1FF#9, rootValid := true }
    (fun t => (t.root, t.status)) = some (0x1FF#9, 0x00#32) := by decide

/-- K6's second CODE_LEN: the old bits are cleared. -/
theorem test_codeLen_replaces : after (.codeLen 0x42#8 3#8) abr (fun t => (t.codeAt 0x42#8).map (·.codeString)) =
    some (some [false, false, false]) := by decide +kernel

/-- K7's CODE_LEN 'X', 0. -/
theorem test_codeLen_deletes : after (.codeLen 0x42#8 0#8) abr (fun t => (t.codeValid 0x42#8, t.codeValid 0x41#8)) =
    some (false, true) := by decide +kernel

/-- K8: position 253 is 0, position 254 is 1, DATA[0] is ignored. -/
theorem test_codeBits_last_chunk : after (.codeBits 0x41#8 15#4 0x0003#16) abr
    (fun t => (t.codeAt 0x41#8).map fun e => (e.len, e.bits[253], e.bits[254])) =
    some (some (1#8, false, true)) := by decide +kernel

/-- K5: an invalid entry ignores CODE_BITS. -/
theorem test_codeBits_invalid : after (.codeBits 0x58#8 0#4 0xFFFF#16) abr (fun t => t.codeValid 0x58#8) =
    some false := by decide +kernel

/-- Q3. -/
theorem test_decStart_missing : after .decStart State.reset (fun t => (t.status, t.decActive)) =
    some (0x400#32, false) := by decide

/-- Q10's second DEC_START. -/
theorem test_decStart_abandons : after .decStart { open_ with cur := 7#9, decNbits := 1#32 }
    (fun t => (t.cur, t.decNbits, t.err, t.decActive)) = some (8#9, 0#32, 0#8, true) := by decide +kernel

/-- Q6: "ABRACADA". -/
theorem test_decBits : after (.decBits 16 0x6E8A#16) open_ (fun t => (t.dout, t.cur, t.decNbits, t.decNsyms)) =
    some ([0x41#8, 0x42#8, 0x52#8, 0x41#8, 0x43#8, 0x41#8, 0x44#8, 0x41#8], 8#9, 16#32, 8#32) := by decide +kernel

/-- Q11: bit 3 reaches node 300, which is invalid. -/
theorem test_decBits_malformed :
    after (.decBits 4 0x3000#16) (open_.writeNode 7#9 (.internal 5#9 300#9))
      (fun t => (t.dout, t.cur, t.decNbits, t.decNsyms, t.err, t.decActive)) =
    some ([0x41#8, 0x41#8], 7#9, 3#32, 2#32, 0x08#8, false) := by decide +kernel

/-- Q16: a single leaf emits on a 1 bit too. -/
theorem test_decBits_leaf : after (.decBits 4 0x5000#16) leafA (fun t => (t.dout, t.cur, t.decNbits)) =
    some ([0x41#8, 0x41#8, 0x41#8, 0x41#8], 0#9, 4#32) := by decide +kernel

/-- W6. -/
theorem test_decEnd_truncated : after .decEnd { open_ with cur := 6#9, encActive := false } (fun t => t.status) =
    some 0x1008#32 := by decide +kernel

/-- Q2. -/
theorem test_decEnd_sequence : after .decEnd abr (fun t => t.status) = some 0x2008#32 := by decide +kernel

/-- X9. -/
theorem test_encStart : after .encStart { abr with err := 0xA0#8, pbuf := 0x60#8, pcnt := 4#3 }
    (fun t => (t.status, t.pack)) = some (0x200C#32, 0#32) := by decide +kernel

/-- 2.4, ENC_SYM 'B' at PCNT = 1. -/
theorem test_encSym : after (.encSym 0x42#8) { open_ with pcnt := 1#3, encNbits := 1#32 }
    (fun t => (t.pbuf, t.pcnt, t.encNbits, t.eout)) = some (0x60#8, 4#3, 4#32, []) := by decide +kernel

/-- N4: 'Z' has no entry. -/
theorem test_encSym_unknown : after (.encSym 0x5A#8) { open_ with pbuf := 0x60#8, pcnt := 4#3, decActive := false }
    (fun t => (t.status, t.pack)) = some (0x4008#32, 0x460#32) := by decide +kernel

/-- 2.4, ENC_SYM 'A' at PCNT = 7: a byte is full. -/
theorem test_encSym_fills : after (.encSym 0x41#8) { open_ with pbuf := 0x6E#8, pcnt := 7#3 }
    (fun t => (t.eout, t.pack)) = some ([0x6E#8], 0#32) := by decide +kernel

/-- R143's example. -/
theorem test_encFlush : after .encFlush { open_ with eout := [0x6E#8, 0x8A#8], pbuf := 0xDC#8, pcnt := 7#3 }
    (fun t => (t.eout, t.pack, t.encActive)) = some ([0x6E#8, 0x8A#8, 0xDC#8], 0#32, false) := by decide +kernel

/-- N2. -/
theorem test_encFlush_sequence : after .encFlush abr (fun t => t.status) = some 0x8008#32 := by decide +kernel

/-! ### Steps and the port -/

/-- M4: the second write is dropped. -/
theorem test_write_overflows :
    stepped (withTurn (.write 0x04#6 0x90000000#32) { State.reset with cmdPend := true, cmdr := 0x60000000#32 })
      (fun t => (t.status, t.cmdr)) = some (0x201#32, 0x60000000#32) := by decide

/-- M6 and M7. -/
theorem test_write_clears :
    stepped (withTurn (.write 0x00#6 0x00000200#32) { State.reset with err := 0x06#8 }) (fun t => t.status) =
      some 0x400#32 ∧
    stepped (withTurn (.write 0x00#6 0x000000FF#32) { State.reset with err := 0x04#8 }) (fun t => t.status) =
      some 0x400#32 := by decide

/-- M9: VALID and 'A'. -/
theorem test_read_pops :
    stepped (withTurn (.read 0x24#6) { State.reset with dout := [0x41#8] }) (fun t => (t.host.received, t.dout)) =
      some ([0x00000141#32], []) := by decide

/-- M2: address bits 1 and 0 are ignored. -/
theorem test_read_unaligned :
    stepped (withTurn (.read 0x0B#6) { State.reset with root := 8#9 }) (fun t => t.host.received) =
      some [0x00000008#32] := by decide

/-- M15. -/
theorem test_reset_discards_command :
    stepped (withTurn .resetInput { State.reset with cmdPend := true, cmdr := 0x28000041#32 })
      (fun t => (t.cmdPend, t.nodeValid 0#9)) = some (false, false) := by decide

/-- M5, by withFetchWord. -/
theorem test_fetch_word : stepped (State.reset.withFetchWord 32 0x60000000) (fun t => t.status) =
    some 0x400#32 := by decide +kernel

/-! ### Assembler and host reference -/

/-- R91, and Q7's three words for the stream of W3. -/
theorem test_assemble_stream :
    assembleLine "DEC_STREAM \"01101110100010101101110\"".toList =
      some [.decBits 16 0x6E8A#16, .decBits 7 0xDC00#16] := by decide +kernel

/-- R127's example as a line, and R90's refusal of an operand that does not fit. -/
theorem test_assemble_lines :
    assembleLine "CODE_BITS 'C', 0, 0x8000".toList = some [.codeBits 0x43#8 0#4 0x8000#16] ∧
      assembleLine "TREE_LEAF 512, 0".toList = none ∧ assembleLine "DEC_BITS 17, 0".toList = none := by decide +kernel

/-- "ABRACADABRA" as symbols. -/
def abracadabra : List Symbol :=
  [0x41#8, 0x42#8, 0x52#8, 0x41#8, 0x43#8, 0x41#8, 0x44#8, 0x41#8, 0x42#8, 0x52#8, 0x41#8]

/-- 95 0.1: the codes of A, B, R, C, D, and the root's index. -/
theorem test_generate :
    (build (freq abracadabra)).map (fun t => (t.seq, generate t)) =
      some (8, [(0x41#8, [false]), (0x43#8, [true, false, false]), (0x44#8, [true, false, true]),
        (0x42#8, [true, true, false]), (0x52#8, [true, true, true])]) := by decide +kernel

/-- W1: a tree of one symbol. -/
theorem test_generate_single :
    (build (freq [0x41#8, 0x41#8, 0x41#8, 0x41#8])).map generate = some [(0x41#8, [false])] := by decide +kernel

/-! ### Witnesses: what each obligation with hypotheses assumes can be met, clause by clause -/

/-- A room hypothesis of the decoder, at its boundary. -/
theorem room_dout (n : Nat) (hn : n ≤ 16) (s : State) (h : s.dout = []) : n ≤ Config.doutDepth - s.dout.length := by
  have := doutDepth_ge
  simp [h]
  omega

/-- A room hypothesis of the encoder, at its boundary. -/
theorem room_eout (n : Nat) (hn : n ≤ 32) (s : State) (h : s.eout = []) : n ≤ Config.eoutDepth - s.eout.length := by
  have := eoutDepth_ge
  simp [h]
  omega

/-- A command pending on ENGINE's turn. -/
def pending (w : Word) (s : State) : State := { s with cmdr := w, cmdPend := true }

/-- DEC_BITS of 16 bits held by one symbol too many, DOUT's next read on its way. -/
def heldDec : State :=
  { withTurn (.read 0x24#6) (pending 0x700F0000#32 abr) with dout := List.replicate (Config.doutDepth - 15) 0x41#8 }

/-- ENC_SYM held by one byte too many, EOUT's next read on its way. -/
def heldEnc : State :=
  { withTurn (.read 0x28#6) (pending 0xA0000041#32 abr) with eout := List.replicate (Config.eoutDepth - 31) 0x00#8 }

theorem decode_heldDec : decode 0x700F0000#32 = .instr (.decBits 16 0x0000#16) := by decide +kernel

theorem decode_heldEnc : decode 0xA0000041#32 = .instr (.encSym 0x41#8) := by decide +kernel

/-- A command of 16 bits is held exactly where DOUT holds more than DOUT_DEPTH - 16 symbols. -/
theorem held_sixteen (s : State) (h : s.cmdr = 0x700F0000#32) :
    s.heldCmdr = true ↔ Config.doutDepth < s.dout.length + 16 := by
  simp [State.heldCmdr, h, decode_heldDec, held, ← Bool.not_eq_true, State.roomDout_iff]

/-- ENC_SYM is held exactly where EOUT holds more than EOUT_DEPTH - 32 bytes. -/
theorem held_encSym (s : State) (h : s.cmdr = 0xA0000041#32) :
    s.heldCmdr = true ↔ Config.eoutDepth < s.eout.length + 32 := by
  simp [State.heldCmdr, h, decode_heldEnc, held, ← Bool.not_eq_true, State.roomEout_iff]

theorem meets_DecodeOfEncode :
    (Instr.decBits 1 0xFFFF#16).wellFormed = true ∧ (Instr.decBits 16 0x0000#16).wellFormed = true ∧
      (Instr.treeInt 511#9 0#9 511#9).wellFormed = true := by decide

theorem meets_EncodeOfDecode : decode 0x700FFFFF#32 = .instr (.decBits 16 0xFFFF#16) := by decide +kernel

theorem meets_NoWordMatchesTwoRows :
    ∃ r ∈ encodingRows, r.covers 0x27FFFFFF#32 = true :=
  ⟨_, .tail _ (.tail _ (.head _)), by decide +kernel⟩

theorem meets_IllegalWordsRaiseIllegalCmd :
    (pending 0xC0000000#32 abr).turn = .engine ∧ (pending 0xC0000000#32 abr).cmdPend = true ∧
      decode (pending 0xC0000000#32 abr).cmdr = .illegal .reservedOpcode ∧
      decode (pending 0x70100000#32 abr).cmdr = .illegal .reservedBits := by decide +kernel

/-- The four clauses: a command that runs, an ILLEGAL word, a held command, and no command; then withFetchWord. -/
theorem meets_StepRunsTheDecodedCommand :
    (decode (pending 0xA0000041#32 abr).cmdr = .instr (.encSym 0x41#8) ∧ held (.encSym 0x41#8) abr = false) ∧
    (∃ why, decode (pending 0x70100000#32 abr).cmdr = .illegal why) ∧
    (decode heldDec.cmdr = .instr (.decBits 16 0x0000#16) ∧ held (.decBits 16 0x0000#16) heldDec = true ∧
      (heldDec.withScript []).turn = .engine) ∧
    (abr.turn = .engine ∧ abr.cmdPend = false) ∧
    (decode 0x60000000#32 = .instr .decStart ∧ held .decStart State.reset = false) := by
  refine ⟨⟨decode_heldEnc, rfl⟩, ⟨.reservedBits, by decide +kernel⟩, ⟨decode_heldDec, ?_, rfl⟩, ⟨rfl, rfl⟩,
    by decide +kernel, rfl⟩
  have := doutDepth_ge
  simp [held, ← Bool.not_eq_true, State.roomDout_iff, heldDec]
  omega

/-- A hold that a read of DOUT lifts, and one that a read of EOUT lifts. -/
theorem meets_HeldExactlyWithoutRoom :
    (Instr.decBits 16 0x0000#16).wellFormed = true ∧ (heldDec.withScript []).turn = .engine ∧
    (∃ t, heldDec.cmdPend = true ∧ heldDec.heldCmdr = true ∧ step heldDec = .next t ∧ t.cmdPend = true ∧
      t.heldCmdr = false) ∧
    ∃ t, heldEnc.cmdPend = true ∧ heldEnc.heldCmdr = true ∧ step heldEnc = .next t ∧ t.cmdPend = true ∧
      t.heldCmdr = false := by
  have hd := doutDepth_ge
  have he := eoutDepth_ge
  refine ⟨by decide, rfl, ⟨_, rfl, ?_, rfl, rfl, ?_⟩, ⟨_, rfl, ?_, rfl, rfl, ?_⟩⟩
  · rw [held_sixteen _ rfl]
    simp [heldDec]
    omega
  · rw [← Bool.not_eq_true, held_sixteen _ rfl]
    simp [hostRead, readEffect, wordOffset, wordIndex, State.receive, State.popTurn, State.withScript, heldDec]
    omega
  · rw [held_encSym _ rfl]
    simp [heldEnc]
    omega
  · rw [← Bool.not_eq_true, held_encSym _ rfl]
    simp [hostRead, readEffect, wordOffset, wordIndex, State.receive, State.popTurn, State.withScript, heldEnc]
    omega

theorem meets_StepKeepsInvariant : State.reset.Inv ∧ step State.reset = .next State.reset :=
  ⟨⟨rfl, rfl, by simp [State.reset], by intro i _; simp [State.reset], by simp [State.reset], by simp [State.reset]⟩,
    rfl⟩

/-- An accepted write, ENGINE's step, and the reset input. -/
theorem meets_CommandPendingRisesAndFalls :
    (abr.cmdPend = false ∧ stepped (withTurn (.write 0x07#6 0x00000000#32) abr) (·.cmdPend) = some true) ∧
    ((pending 0x00000000#32 abr).enginesStep = true ∧
      stepped (pending 0x00000000#32 abr) (·.cmdPend) = some false) ∧
    stepped (withTurn .resetInput (pending 0x00000000#32 abr)) (fun t => (t.cmdPend, t.cmdr)) =
      some (false, 0x00000000#32) := by decide +kernel

/-- Every word of the map that does not pop, at the last byte of each. -/
theorem meets_PlainReadsReturnTheirRegister :
    (withTurn (.read 0x3F#6) abr).turn = .read 0x3F#6 ∧
    [0x03#6, 0x07#6, 0x0B#6, 0x0F#6, 0x13#6, 0x17#6, 0x1B#6, 0x1F#6, 0x23#6, 0x2C#6, 0x3F#6].map wordOffset =
      [0x00, 0x04, 0x08, 0x0C, 0x10, 0x14, 0x18, 0x1C, 0x20, 0x2C, 0x3C] := by decide

theorem meets_DoutReadPops :
    (withTurn (.read 0x27#6) leafA).turn = .read 0x27#6 ∧ wordOffset 0x27#6 = 0x24 ∧ leafA.dout = [] ∧
      stepped (withTurn (.read 0x24#6) { leafA with dout := [0x41#8] }) (·.dout.length) = some 0 := by decide

theorem meets_EoutReadPops :
    (withTurn (.read 0x2B#6) leafA).turn = .read 0x2B#6 ∧ wordOffset 0x2B#6 = 0x28 ∧ leafA.eout = [] ∧
      stepped (withTurn (.read 0x28#6) { leafA with eout := [0x6E#8] }) (·.eout.length) = some 0 := by decide

/-- STATUS, CMD in both states of CMD_PEND and with an ILLEGAL word, and a word that ignores writes. -/
theorem meets_HostWritesDoWhatTheMapSays :
    (withTurn (.write 0x03#6 0xFFFFFFFF#32) abr).turn = .write 0x03#6 0xFFFFFFFF#32 ∧ wordOffset 0x03#6 = 0x00 ∧
    wordOffset 0x04#6 = 0x04 ∧ wordOffset 0x08#6 = 0x08 ∧ abr.cmdPend = false ∧
    (pending 0x00000000#32 abr).cmdPend = true ∧ decode 0xFFFFFFFF#32 = .illegal .reservedOpcode ∧
    stepped (withTurn (.write 0x04#6 0xFFFFFFFF#32) abr) (fun t => decide (t.turn = .engine)) = some true := by
  decide +kernel

/-- Each of the four ways an error bit is cleared. -/
theorem meets_ErrorBitsClearOnlyByTheRule :
    stepped (withTurn (.write 0x00#6 0x00000100#32) { abr with err := 0xFF#8 }) (·.err) = some 0xFE#8 ∧
    (pending 0x60000000#32 { abr with err := 0xFF#8 }).executing = some .decStart ∧
    stepped (pending 0x60000000#32 { abr with err := 0xFF#8 }) (·.err) = some 0xC3#8 ∧
    (pending 0x90000000#32 { abr with err := 0xFF#8 }).executing = some .encStart ∧
    stepped (pending 0x90000000#32 { abr with err := 0xFF#8 }) (·.err) = some 0x3F#8 ∧
    (pending 0x10000000#32 { abr with err := 0xFF#8 }).isReset = true ∧
    stepped (withTurn .resetInput { abr with err := 0xFF#8 }) (·.err) = some 0x00#8 := by decide +kernel

/-- Each of the eight causes, from a state without error bits. -/
theorem meets_ErrorBitsSetOnlyByTheirCause :
    stepped (pending 0xC0000000#32 abr) (·.hasErr .illegalCmd) = some true ∧
    stepped (withTurn (.write 0x04#6 0x00000000#32) (pending 0x00000000#32 abr)) (·.hasErr .cmdOvf) = some true ∧
    stepped (pending 0x60000000#32 State.reset) (·.hasErr .missingTree) = some true ∧
    stepped (pending 0x60000000#32 { abr with root := 9#9 }) (·.hasErr .malformedTree) = some true ∧
    stepped (pending 0x80000000#32 { open_ with cur := 6#9 }) (·.hasErr .truncated) = some true ∧
    stepped (pending 0x80000000#32 abr) (·.hasErr .decSeq) = some true ∧
    stepped (pending 0xA000005A#32 open_) (·.hasErr .unknownSymbol) = some true ∧
    stepped (pending 0xB0000000#32 abr) (·.hasErr .encSeq) = some true ∧ abr.err = 0x00#8 := by decide +kernel

theorem meets_AtMostOneErrorPerStep :
    abr.hasErr .decSeq = false ∧ stepped (pending 0x80000000#32 abr) (·.hasErr .decSeq) = some true := by
  decide +kernel

theorem meets_ErrorBitsStopNothing :
    after (.decBits 3 0x6000#16) open_ (·.cur) = some 6#9 ∧ after .decEnd abr (·.err) = some 0x20#8 := by
  decide +kernel

theorem meets_NopChangesNothing :
    (0x0FFFFFFF#32).extractLsb' 28 4 = 0x0#4 ∧ 0x00000001#32 ≠ 0x00000000#32 ∧
    (withTurn (.write 0x04#6 (encode .nop)) (pending 0x60000000#32 abr)).turn = .write 0x04#6 (encode .nop) ∧
    (pending 0x60000000#32 abr).cmdPend = true := by decide

theorem meets_BothResetsReachTheResetState :
    (withTurn .resetInput open_).turn = .resetInput ∧ (pending 0x10000000#32 open_).executing = some .srst := by
  decide +kernel

/-- A word of TREE_LEAF's format with its lowest reserved bit set, and with its highest. -/
theorem meets_TreeCommandsWriteOneNode :
    (0x28000100#32).extractLsb' 27 5 = 0b00101#5 ∧ (0x28000100#32).extractLsb' 8 10 ≠ 0#10 ∧
      (0x28020000#32).extractLsb' 27 5 = 0b00101#5 ∧ (0x28020000#32).extractLsb' 8 10 ≠ 0#10 := by decide

theorem meets_RootCommandsSetAndClear :
    open_.decActive = true ∧ open_.cur = open_.root ∧ { open_ with cur := 6#9 }.decActive = true ∧
      { open_ with cur := 6#9 }.cur ≠ { open_ with cur := 6#9 }.root := by decide

theorem meets_CodeLenDefinesOrDeletes :
    (1#8 ≠ 0#8 ∧ 255#8 ≠ 0#8) ∧ abr.codeValid 0x42#8 = true ∧
      after (.codeLen 0x42#8 0#8) abr (·.codeValid 0x42#8) = some false := by decide +kernel

theorem meets_CodeBitsWriteTheirChunk :
    abr.codeValid 0x58#8 = false ∧ (abr.codeAt 0x42#8).isSome = true ∧ 16 * (15#4).toNat + 14 < 255 := by
  decide +kernel

/-- A byte that stays open, one that fills, and 8 bits appended to 7. -/
theorem meets_AppendedBitsFillBytes :
    ({ open_ with pcnt := 6#3 }.pcnt ≠ 7#3) ∧
    ({ open_ with pcnt := 7#3 }.pcnt = 7#3 ∧ { open_ with pcnt := 7#3 }.eout.length < Config.eoutDepth) ∧
    ({ open_ with pcnt := 7#3 }.packerClear ∧
      { open_ with pcnt := 7#3 }.eout.length + (7 + (List.replicate 8 true).length) / 8 ≤ Config.eoutDepth) := by
  have := eoutDepth_ge
  refine ⟨by decide, ⟨rfl, ?_⟩, ?_, ?_⟩
  · show 0 < Config.eoutDepth
    omega
  · intro i _
    simp [open_, abr, State.reset]
  · show 0 + (7 + 8) / 8 ≤ Config.eoutDepth
    omega

/-- No session, no code, and a code with EOUT empty; then the longest code at PCNT = 7. -/
theorem meets_EncSymAppendsTheCode :
    abr.encActive = false ∧ (open_.encActive = true ∧ open_.codeValid 0x5A#8 = false) ∧
    open_.codeAt 0x42#8 = some (entry [true, true, false]) ∧ 32 ≤ Config.eoutDepth - open_.eout.length ∧
    (entry (List.replicate 255 true)).len = 255#8 ∧ { open_ with pcnt := 7#3 }.pcnt = 7#3 :=
  ⟨rfl, by decide +kernel, rfl, room_eout 32 (by decide) open_ rfl, by decide +kernel, rfl⟩

theorem meets_EncFlushPushesThePartialByte :
    abr.encActive = false ∧ (open_.encActive = true ∧ open_.pcnt = 0#3) ∧ { open_ with pcnt := 1#3 }.pcnt ≠ 0#3 ∧
      1 ≤ Config.eoutDepth - { open_ with pcnt := 1#3 }.eout.length :=
  ⟨rfl, ⟨rfl, rfl⟩, by decide, room_eout 1 (by decide) _ rfl⟩

theorem meets_EncodeSessionPacksTheStream :
    abr.cmdPend = false ∧ abr.eout = [] ∧ (∀ c ∈ [0x41#8, 0x42#8], abr.codeValid c = true) ∧
      [false, true, true, false] =
        [0x41#8, 0x42#8].flatMap fun c => ((abr.codeAt c).map CodeEntry.codeString).getD [] := by decide +kernel

theorem meets_DecStartOpensASession :
    State.reset.rootValid = false ∧ ({ abr with root := 9#9 }.rootValid = true ∧
      { abr with root := 9#9 }.nodeValid 9#9 = false) ∧ abr.rootValid = true ∧ abr.nodeValid abr.root = true := by
  decide

/-- Each case of a bit: no root, an invalid root, a leaf root; then with an internal root: CUR invalid, CUR a leaf, and
the child invalid, a leaf on bit 0, internal on bit 1. -/
theorem meets_OneBitStepsTheWalk :
    (open_.decActive = true ∧ 1 ≤ Config.doutDepth - open_.dout.length) ∧
    { open_ with rootValid := false }.rootValid = false ∧
    { open_ with root := 9#9 }.nodeAt 9#9 = none ∧ leafA.nodeAt leafA.root = some (.leaf 0x41#8) ∧
    open_.nodeAt open_.root = some (.internal 0#9 7#9) ∧ { open_ with cur := 9#9 }.nodeAt 9#9 = none ∧
    { open_ with cur := 0#9 }.nodeAt 0#9 = some (.leaf 0x41#8) ∧ open_.nodeAt open_.cur = some (.internal 0#9 7#9) ∧
    (open_.writeNode 8#9 (.internal 9#9 7#9)).nodeAt 9#9 = none ∧ open_.nodeAt 0#9 = some (.leaf 0x41#8) ∧
    open_.nodeAt 7#9 = some (.internal 5#9 6#9) ∧
    (0x7FFF#16).getLsbD 15 = false ∧ (0x8000#16).getLsbD 15 = true :=
  ⟨⟨rfl, room_dout 1 (by decide) _ rfl⟩, by decide⟩

theorem meets_DecBitsConsumeBitByBit :
    abr.decActive = false ∧ open_.decActive = true ∧ 16 ≤ Config.doutDepth - open_.dout.length ∧
      1 + 15 ≤ Config.doutDepth - open_.dout.length ∧
      ∀ j, j < 3 → (0x6000#16).getLsbD (15 - j) = (0x7FFF#16).getLsbD (15 - j) :=
  ⟨rfl, rfl, room_dout 16 (by decide) _ rfl, room_dout 16 (by decide) _ rfl, by decide⟩

theorem meets_DecEndReportsTruncation :
    abr.decActive = false ∧ (open_.decActive = true ∧ open_.cur = open_.root) ∧
    { open_ with cur := 6#9 }.cur ≠ { open_ with cur := 6#9 }.root ∧
    (abr.rootValid = true ∧ abr.nodeValid abr.root = true) ∧
    (leafA.rootValid = true ∧ leafA.nodeAt leafA.root = some (.leaf 0x41#8) ∧ leafA.cur = leafA.root ∧
      after (.decBits 16 0x0000#16) leafA (·.dout.length) = some 16) := by decide +kernel

theorem meets_DecBitsIsBoundedAndCounted :
    after (.decBits 16 0x6E8A#16) open_ (·.dout.length) = some 8 ∧
      after (.decBits 3 0x6000#16) { open_ with tree := treeABR.erase 6 } (fun t => (t.decNbits, t.decActive)) =
        some (2#32, false) := by decide +kernel

/-- A tree of two leaves, as TREE holds it, at its root. -/
def pair : HTree := .node 2 2 (.leaf 0 0x58#8 1) (.leaf 1 0x59#8 1)

/-- Reset, with `pair` loaded and a decode session open. -/
def pairState : State :=
  { State.reset with
    tree := [(0, .leaf 0x58#8), (1, .leaf 0x59#8), (2, .internal 0#9 1#9)], root := 2#9, rootValid := true,
    decActive := true, cur := 2#9 }

theorem pair_held : HoldsTree pairState.tree pair :=
  ⟨by decide, by decide, ⟨by decide, by decide⟩, ⟨by decide, by decide⟩⟩

theorem meets_DecBitsFollowTheReferenceWalk :
    16 ≤ Config.doutDepth - pairState.dout.length ∧ pairState.decActive = true ∧ pairState.rootValid = true ∧
      HoldsTree pairState.tree pair ∧ pairState.root = pair.index ∧ pairState.cur = pair.index :=
  ⟨room_dout 16 (by decide) _ rfl, rfl, rfl, pair_held, by decide, by decide⟩

theorem meets_DecodeSessionIsTheReferenceDecoder :
    pairState.cmdPend = false ∧ pairState.dout = [] ∧ pairState.rootValid = true ∧ HoldsTree pairState.tree pair ∧
      pairState.root = pair.index :=
  ⟨rfl, rfl, rfl, pair_held, by decide⟩

theorem meets_DecoderIgnoresTheEncoder :
    after .decStart abr (·.cur) = some 8#9 ∧ after (.decBits 1 0x8000#16) open_ (·.cur) = some 7#9 ∧
      after .decEnd open_ (·.decActive) = some false := by decide +kernel

theorem meets_EncoderIgnoresTheDecoder :
    after .encStart abr (·.encActive) = some true ∧ after (.encSym 0x42#8) open_ (·.pcnt) = some 3#3 ∧
      after .encFlush open_ (·.encActive) = some false := by decide +kernel

/-- A code whose position 1, past its length, differs. -/
theorem meets_EncSymIgnoresBitsPastTheLength :
    open_.codeAt 0x41#8 = some (entry [false]) ∧
      (⟨1#8, (entry [false, true]).bits⟩ : CodeEntry).len = (entry [false]).len ∧
      (∀ p (hp : p < 255), p < (entry [false]).len.toNat → (entry [false, true]).bits[p] = (entry [false]).bits[p]) ∧
      after (.encSym 0x41#8) open_ (·.pcnt) = some 1#3 :=
  ⟨rfl, by decide +kernel, by decide +kernel, by decide +kernel⟩

/-- Each way a table changes. -/
theorem meets_OnlyLoadCommandsWriteTheTables :
    (pending 0x20140604#32 State.reset).isReset = false ∧
    stepped (pending 0x20140604#32 State.reset) (·.nodeValid 5#9) = some true ∧
    stepped (pending 0x28000041#32 State.reset) (·.nodeValid 0#9) = some true ∧
    stepped (pending 0x300001FF#32 State.reset) (fun t => (t.root, t.rootValid)) = some (0x1FF#9, true) ∧
    stepped (pending 0x38000000#32 abr) (·.rootValid) = some false ∧
    stepped (pending 0x44200000#32 abr) (·.codeValid 0x42#8) = some false ∧
    stepped (pending 0x45801000#32 abr) (·.codeValid 0x58#8) = some true := by decide +kernel

/-- Each way a session's registers and FIFOs change. -/
theorem meets_OnlySessionCommandsWriteTheSessions :
    (pending 0x70008000#32 open_).isReset = false ∧
    stepped (pending 0x70008000#32 open_) (fun t => (t.cur, t.decNbits)) = some (7#9, 1#32) ∧
    stepped (pending 0x70000000#32 open_) (·.dout.length) = some 1 ∧
    stepped (pending 0xA0000042#32 open_) (fun t => (t.pack, t.encNbits)) = some (0x3C0#32, 3#32) ∧
    stepped (pending 0xB0000000#32 { open_ with pcnt := 3#3 }) (·.eout.length) = some 1 := by decide +kernel

/-- Each way a session opens and closes. -/
theorem meets_SessionsOpenAndClose :
    stepped (pending 0x60000000#32 abr) (·.decActive) = some true ∧
    stepped (pending 0x80000000#32 open_) (·.decActive) = some false ∧
    stepped (pending 0x70000000#32 { open_ with rootValid := false }) (fun t => (t.decActive, t.err)) =
      some (false, 0x04#8) ∧
    stepped (withTurn .resetInput open_) (fun t => (t.decActive, t.encActive)) = some (false, false) ∧
    stepped (pending 0x90000000#32 abr) (·.encActive) = some true ∧
    stepped (pending 0xB0000000#32 open_) (·.encActive) = some false ∧
    stepped (pending 0xA000005A#32 open_) (·.encActive) = some false ∧
    abr.decActive = false ∧ abr.encActive = false := by decide +kernel

/-- A host that polls, at a CMD write and elsewhere; tables kept by a command of either unit. -/
theorem meets_HostDutiesKeepTheTables :
    (withTurn (.write 0x04#6 0x00000000#32) abr).pollsFirst ∧ (withTurn (.read 0x00#6) abr).pollsFirst ∧
    abr.hasErr .cmdOvf = false ∧
    (pending 0x70008000#32 open_).keepsTables ∧ (pending 0xA0000042#32 open_).keepsTables ∧
    (pending 0x70008000#32 open_).isReset = false ∧ open_.decActive = true ∧ open_.encActive = true := by
  refine ⟨fun _ => rfl, trivial, by decide, ?_, ?_, by decide +kernel, rfl, rfl⟩
  · have : (pending 0x70008000#32 open_).executing = some (.decBits 1 0x8000#16) := by decide +kernel
    simp [State.keepsTables, this]
  · have : (pending 0xA0000042#32 open_).executing = some (.encSym 0x42#8) := by decide +kernel
    simp [State.keepsTables, this]

theorem meets_CodeWriteStoresTheString :
    1 ≤ [true].length ∧ (List.replicate 255 true).length ≤ 255 := by decide +kernel

theorem meets_BuildMakesAWeightedTree : [(0x41#8, 4)] ≠ [] ∧ freq abracadabra ≠ [] := by decide +kernel

theorem meets_GenerateIsPrefixFree :
    [0x41#8] ≠ [] ∧ abracadabra ≠ [] ∧ 2 ≤ (distinct abracadabra).length := by decide +kernel

theorem meets_LoadPlacesTreeAndTable : [0x41#8] ≠ [] ∧ abracadabra ≠ [] := by decide

theorem meets_SoftwareRoundTrip : [0x41#8] ≠ [] ∧ abracadabra ≠ [] := by decide

/-- W3: the stream of "ABRACADABRA" has 23 bits. -/
theorem meets_RoundTripOverHtw :
    abracadabra ≠ [] ∧ ∃ tree bits, build (freq abracadabra) = some tree ∧
      enc abracadabra (generate tree) = .ok bits ∧ bits.length = 23 ∧ bits.length < 2 ^ 32 :=
  ⟨by decide, _, _, rfl, rfl, by decide +kernel, by decide +kernel⟩

theorem meets_EmptyInputGivesEmptyOutput : abr.rootValid = true ∧ abr.nodeValid abr.root = true := by decide

end Sys2Proof.Tests
end

section
/-! The two session bits, DEC_ACTIVE and ENC_ACTIVE (10_state.md R19, R20): what each command leaves in them, then what
each step does. -/

namespace Sys2Proof.Machine

/-! ### What the session commands leave in the session bits -/

theorem execDecStart_decActive {s t : State} (h : exec .decStart s = .next t) :
    t.decActive = (s.rootValid && s.nodeValid s.root) := by
  rcases execDecStart_next h with ⟨hv, rfl⟩ | ⟨hv, hn, rfl⟩ | ⟨n, hv, hn, rfl⟩
  · simp [hv]
  · simp [hv, hn, State.nodeValid]
  · simp [hv, hn, State.nodeValid]

theorem execDecEnd_decActive {s t : State} (h : exec .decEnd s = .next t) : t.decActive = false := by
  rcases execDecEnd_next h with ⟨ha, rfl⟩ | ⟨-, -, rfl⟩ | ⟨-, -, rfl⟩
  · exact ha
  · rfl
  · rfl

/-- A DEC_BITS that leaves another ERR has raised, and no error leaves a decode session open. -/
theorem execDecBits_decActive_of_err {n : Nat} {data : BitVec 16} {s t : State}
    (h : exec (.decBits n data) s = .next t) (he : t.err ≠ s.err) : t.decActive = false := by
  rcases execDecBits_next h with ⟨ha, rfl⟩ | ⟨-, c, out, -, -, rfl⟩ | ⟨-, c, out, k, e, -, -, -, -, rfl⟩
  · exact ha
  · exact absurd rfl he
  · rfl

theorem execEncStart_encActive {s t : State} (h : exec .encStart s = .next t) : t.encActive = true := by
  cases h
  rfl

theorem execEncFlush_encActive {s t : State} (h : exec .encFlush s = .next t) : t.encActive = false := by
  rcases execEncFlush_next h with ⟨ha, rfl⟩ | ⟨-, -, rfl⟩ | ⟨-, -, -, rfl⟩
  · exact ha
  · rfl
  · rfl

theorem execEncSym_encActive_of_unknown {c : Symbol} {s t : State} (h : exec (.encSym c) s = .next t)
    (hc : s.codeValid c = false) : t.encActive = false := by
  rcases execEncSym_next h with ⟨ha, rfl⟩ | ⟨-, -, rfl⟩ | ⟨-, x, p, k, new, hx, -⟩
  · exact ha
  · rfl
  · simp [State.codeValid, hx] at hc

/-! ### Which commands change the session bits -/

/-- A DEC_BITS keeps DEC_ACTIVE, or it has raised one of the two errors of the tree. -/
theorem execDecBits_decActive {n : Nat} {data : BitVec 16} {s t : State}
    (h : exec (.decBits n data) s = .next t) :
    t.decActive = s.decActive ∨
      t.decActive = false ∧ (t.hasErr .missingTree = true ∨ t.hasErr .malformedTree = true) := by
  rcases execDecBits_next h with ⟨-, rfl⟩ | ⟨-, c, out, -, -, rfl⟩ | ⟨-, c, out, k, e, -, -, -, he, rfl⟩
  · exact .inl rfl
  · exact .inl rfl
  · refine .inr ⟨rfl, ?_⟩
    rcases he with ⟨rfl, -⟩ | ⟨rfl, -⟩
    · exact .inl (by simp [State.hasErr])
    · exact .inr (by simp [State.hasErr])

/-- An ENC_SYM keeps ENC_ACTIVE, or its symbol has no code. -/
theorem execEncSym_encActive {c : Symbol} {s t : State} (h : exec (.encSym c) s = .next t) :
    t.encActive = s.encActive ∨
      t.encActive = false ∧ s.codeValid c = false ∧ t.hasErr .unknownSymbol = true := by
  rcases execEncSym_next h with ⟨-, rfl⟩ | ⟨-, hc, rfl⟩ | ⟨-, x, p, k, new, -, -, -, -, -, -, rfl⟩
  · exact .inl rfl
  · exact .inr ⟨rfl, by simp [State.codeValid, hc], by simp⟩
  · exact .inl rfl

/-- Every command but SRST and the decoder's own keeps DEC_ACTIVE (R19). -/
theorem exec_decActive {i : Instr} {s t : State} (h : exec i s = .next t) :
    t.decActive = s.decActive ∨ i = .srst ∨ i = .decStart ∨ i = .decEnd ∨
      (∃ n data, i = .decBits n data) ∧ t.decActive = false ∧
        (t.hasErr .missingTree = true ∨ t.hasErr .malformedTree = true) := by
  cases i with
  | srst => exact .inr (.inl rfl)
  | decStart => exact .inr (.inr (.inl rfl))
  | decEnd => exact .inr (.inr (.inr (.inl rfl)))
  | decBits n data =>
    rcases execDecBits_decActive h with hk | hf
    · exact .inl hk
    · exact .inr (.inr (.inr (.inr ⟨⟨n, data, rfl⟩, hf⟩)))
  | codeLen c len =>
    left
    rcases execCodeLen_next h with ⟨-, rfl⟩ | ⟨-, rfl⟩ <;> rfl
  | codeBits c k data =>
    left
    rcases execCodeBits_next h with ⟨-, rfl⟩ | ⟨e, -, rfl⟩ <;> rfl
  | encSym c =>
    left
    rcases execEncSym_next h with ⟨-, rfl⟩ | ⟨-, -, rfl⟩ | ⟨-, x, p, k, new, -, -, -, -, -, -, rfl⟩ <;> rfl
  | encFlush =>
    left
    rcases execEncFlush_next h with ⟨-, rfl⟩ | ⟨-, -, rfl⟩ | ⟨-, -, -, rfl⟩ <;> rfl
  | nop | treeInt | treeLeaf | rootSet | rootClr | encStart =>
    left
    cases h
    rfl

/-- Every command but SRST and the encoder's own keeps ENC_ACTIVE (R20). -/
theorem exec_encActive {i : Instr} {s t : State} (h : exec i s = .next t) :
    t.encActive = s.encActive ∨ i = .srst ∨ i = .encStart ∨ i = .encFlush ∨
      ∃ c, i = .encSym c ∧ t.encActive = false ∧ s.codeValid c = false ∧ t.hasErr .unknownSymbol = true := by
  cases i with
  | srst => exact .inr (.inl rfl)
  | encStart => exact .inr (.inr (.inl rfl))
  | encFlush => exact .inr (.inr (.inr (.inl rfl)))
  | encSym c =>
    rcases execEncSym_encActive h with hk | hf
    · exact .inl hk
    · exact .inr (.inr (.inr (.inr ⟨c, rfl, hf⟩)))
  | codeLen c len =>
    left
    rcases execCodeLen_next h with ⟨-, rfl⟩ | ⟨-, rfl⟩ <;> rfl
  | codeBits c k data =>
    left
    rcases execCodeBits_next h with ⟨-, rfl⟩ | ⟨e, -, rfl⟩ <;> rfl
  | decStart =>
    left
    rcases execDecStart_next h with ⟨-, rfl⟩ | ⟨-, -, rfl⟩ | ⟨n, -, -, rfl⟩ <;> rfl
  | decBits n data =>
    left
    rcases execDecBits_next h with ⟨-, rfl⟩ | ⟨-, c, out, -, -, rfl⟩ | ⟨-, c, out, k, e, -, -, -, -, rfl⟩ <;> rfl
  | decEnd =>
    left
    rcases execDecEnd_next h with ⟨-, rfl⟩ | ⟨-, -, rfl⟩ | ⟨-, -, rfl⟩ <;> rfl
  | nop | treeInt | treeLeaf | rootSet | rootClr =>
    left
    cases h
    rfl

/-! ### What a step does to the session bits -/

/-- A step that executes a command is that command's meaning. -/
theorem exec_of_step {s t : State} {i : Instr} (h : step s = .next t) (hx : s.executing = some i) :
    exec i s.popTurn.takeCommand = .next t := (step_of_executing hx).symm.trans h

/-- HOST's reads keep both session bits (R43 to R45). -/
theorem hostRead_keeps_sessions (a : PortAddr) (s : State) :
    (hostRead a s).decActive = s.decActive ∧ (hostRead a s).encActive = s.encActive := by
  rcases hostRead_cases a s with ⟨-, h⟩ | ⟨-, h⟩ | ⟨-, -, h⟩ <;> rw [h] <;> exact ⟨rfl, rfl⟩

/-- HOST's writes keep both session bits (R46 to R48). -/
theorem hostWrite_keeps_sessions (a : PortAddr) (v : Word) (s : State) :
    (hostWrite a v s).decActive = s.decActive ∧ (hostWrite a v s).encActive = s.encActive := by
  rcases hostWrite_cases a v s with ⟨-, h⟩ | ⟨-, -, h⟩ | ⟨-, -, h⟩ | ⟨-, -, h⟩ <;> rw [h] <;> exact ⟨rfl, rfl⟩

/-- A step keeps both session bits, or it is a reset, or it executes a command. -/
theorem step_sessions {s t : State} (h : step s = .next t) :
    (t.decActive = s.decActive ∧ t.encActive = s.encActive) ∨ s.isReset = true ∨ ∃ i, s.executing = some i := by
  rcases step_next h with ⟨a, -, -, rfl⟩ | ⟨a, v, -, -, rfl⟩ | ⟨ht, -, -⟩ | ⟨-, -, -, rfl⟩ | ⟨_, -, -, -, -, rfl⟩ |
    ⟨i, -, hx, -⟩
  · exact .inl (hostRead_keeps_sessions a s.popTurn)
  · exact .inl (hostWrite_keeps_sessions a v s.popTurn)
  · exact .inr (.inl (by simp [State.isReset, ht]))
  · exact .inl ⟨rfl, rfl⟩
  · exact .inl ⟨rfl, rfl⟩
  · exact .inr (.inr ⟨i, hx⟩)

/-- A reset closes both sessions (R200). -/
theorem step_isReset_closes_sessions {s t : State} (h : step s = .next t) (hr : s.isReset = true) :
    t.decActive = false ∧ t.encActive = false := by
  simp only [State.isReset, Bool.or_eq_true, decide_eq_true_eq] at hr
  rcases hr with ht | hx
  · have hs := step_resetInput ht
    rw [h] at hs
    cases hs
    exact ⟨rfl, rfl⟩
  · cases exec_of_step h hx
    exact ⟨rfl, rfl⟩

/-- All that can change DEC_ACTIVE (R19). -/
theorem step_decActive {s t : State} (h : step s = .next t) :
    t.decActive = s.decActive ∨ s.isReset = true ∨ s.executing = some .decStart ∨ s.executing = some .decEnd ∨
      (∃ n data, s.executing = some (.decBits n data)) ∧ t.decActive = false ∧
        (t.hasErr .missingTree = true ∨ t.hasErr .malformedTree = true) := by
  rcases step_sessions h with ⟨hk, -⟩ | hr | ⟨i, hx⟩
  · exact .inl hk
  · exact .inr (.inl hr)
  · rcases exec_decActive (exec_of_step h hx) with hk | rfl | rfl | rfl | ⟨⟨n, data, rfl⟩, hf⟩
    · exact .inl hk
    · exact .inr (.inl (by simp [State.isReset_of_executing hx]))
    · exact .inr (.inr (.inl hx))
    · exact .inr (.inr (.inr (.inl hx)))
    · exact .inr (.inr (.inr (.inr ⟨⟨n, data, hx⟩, hf⟩)))

/-- All that can change ENC_ACTIVE (R20). -/
theorem step_encActive {s t : State} (h : step s = .next t) :
    t.encActive = s.encActive ∨ s.isReset = true ∨ s.executing = some .encStart ∨ s.executing = some .encFlush ∨
      ∃ c, s.executing = some (.encSym c) ∧ t.encActive = false ∧ s.codeValid c = false ∧
        t.hasErr .unknownSymbol = true := by
  rcases step_sessions h with ⟨-, hk⟩ | hr | ⟨i, hx⟩
  · exact .inl hk
  · exact .inr (.inl hr)
  · rcases exec_encActive (exec_of_step h hx) with hk | rfl | rfl | rfl | ⟨c, rfl, hf⟩
    · exact .inl hk
    · exact .inr (.inl (by simp [State.isReset_of_executing hx]))
    · exact .inr (.inr (.inl hx))
    · exact .inr (.inr (.inr (.inl hx)))
    · exact .inr (.inr (.inr (.inr ⟨c, hx, hf⟩)))

/-- DEC_ACTIVE rises only by DEC_START. -/
theorem step_decActive_rises {s t : State} (h : step s = .next t) (hs : s.decActive = false)
    (ht : t.decActive = true) : s.executing = some .decStart := by
  rcases step_decActive h with hk | hr | hx | hx | ⟨-, hf, -⟩
  · simp [hs, ht] at hk
  · simp [step_isReset_closes_sessions h hr] at ht
  · exact hx
  · simp [execDecEnd_decActive (exec_of_step h hx)] at ht
  · simp [hf] at ht

/-- DEC_ACTIVE falls only by DEC_START, DEC_END, a reset, or an error of the tree in DEC_BITS. -/
theorem step_decActive_falls {s t : State} (h : step s = .next t) (hs : s.decActive = true)
    (ht : t.decActive = false) :
    s.executing = some .decStart ∨ s.executing = some .decEnd ∨ s.isReset = true ∨
      (∃ n data, s.executing = some (.decBits n data)) ∧
        (t.hasErr .missingTree = true ∨ t.hasErr .malformedTree = true) := by
  rcases step_decActive h with hk | hr | hx | hx | ⟨hx, -, he⟩
  · simp [hs, ht] at hk
  · exact .inr (.inr (.inl hr))
  · exact .inl hx
  · exact .inr (.inl hx)
  · exact .inr (.inr (.inr ⟨hx, he⟩))

/-- ENC_ACTIVE rises only by ENC_START. -/
theorem step_encActive_rises {s t : State} (h : step s = .next t) (hs : s.encActive = false)
    (ht : t.encActive = true) : s.executing = some .encStart := by
  rcases step_encActive h with hk | hr | hx | hx | ⟨c, -, hf, -⟩
  · simp [hs, ht] at hk
  · simp [step_isReset_closes_sessions h hr] at ht
  · exact hx
  · simp [execEncFlush_encActive (exec_of_step h hx)] at ht
  · simp [hf] at ht

/-- ENC_ACTIVE falls only by ENC_FLUSH, a reset, or an ENC_SYM of an unknown symbol. -/
theorem step_encActive_falls {s t : State} (h : step s = .next t) (hs : s.encActive = true)
    (ht : t.encActive = false) :
    s.executing = some .encFlush ∨ s.isReset = true ∨
      ∃ c, s.executing = some (.encSym c) ∧ s.codeValid c = false ∧ t.hasErr .unknownSymbol = true := by
  rcases step_encActive h with hk | hr | hx | hx | ⟨c, hx, -, hc, he⟩
  · simp [hs, ht] at hk
  · exact .inr (.inl hr)
  · simp [execEncStart_encActive (exec_of_step h hx)] at ht
  · exact .inl hx
  · exact .inr (.inr ⟨c, hx, hc, he⟩)

/-! ### Outside a session -/

/-- Outside a decode session DEC_BITS and DEC_END only set ERR_DEC_SEQ (R162, R163). -/
theorem exec_outside_decode_session {s : State} (ha : s.decActive = false) :
    (∀ n data, exec (.decBits n data) s = .next (s.setErr .decSeq)) ∧ exec .decEnd s = .next (s.setErr .decSeq) := by
  constructor
  · intro n data
    simp [exec, execDecBits, consumeBits, ha]
  · simp [exec, execDecEnd, closeWalk, ha]

/-- Outside an encode session ENC_SYM and ENC_FLUSH only set ERR_ENC_SEQ (R142, R143). -/
theorem exec_outside_encode_session {s : State} (ha : s.encActive = false) :
    (∀ c, exec (.encSym c) s = .next (s.setErr .encSeq)) ∧ exec .encFlush s = .next (s.setErr .encSeq) := by
  constructor
  · intro c
    simp [exec, execEncSym, encodeSymbol, ha]
  · simp [exec, execEncFlush, flushPacker, ha]

/-- Settles O44: each clause is what its command leaves in the session bit, or one of the ways `step_decActive` and
`step_encActive` list. -/
theorem sessionsOpenAndClose : Obligations.SessionsOpenAndClose := by
  refine ⟨fun s t h => ⟨?decStart, ?decEnd, ?decBits, ?reset, ?encStart, ?encFlush, ?encSym, ?decRises, ?decFalls,
    ?encRises, ?encFalls⟩, fun s => ⟨exec_outside_decode_session, exec_outside_encode_session⟩⟩
  case decStart => exact fun hx => execDecStart_decActive (s := s.popTurn.takeCommand) (exec_of_step h hx)
  case decEnd => exact fun hx => execDecEnd_decActive (exec_of_step h hx)
  case decBits => exact fun n data hx he => execDecBits_decActive_of_err (exec_of_step h hx) he
  case reset => exact step_isReset_closes_sessions h
  case encStart => exact fun hx => execEncStart_encActive (exec_of_step h hx)
  case encFlush => exact fun hx => execEncFlush_encActive (exec_of_step h hx)
  case encSym => exact fun c hx hc => execEncSym_encActive_of_unknown (exec_of_step h hx) hc
  case decRises => exact step_decActive_rises h
  case decFalls => exact step_decActive_falls h
  case encRises => exact step_encActive_rises h
  case encFalls => exact step_encActive_falls h

end Sys2Proof.Machine
end

section
/-! The reset state, and the invariant of the state (10_state.md R21, R26 to R32): the reset state has it, and every
command and every step keep it. -/

namespace Sys2Proof.Machine

/-! ### The reset state -/

/-- Both resets leave the table of R32, whatever the state before. -/
theorem State.resetAll_atResetTable (s : State) : s.resetAll.AtResetTable where
  err := rfl
  cmdPend := rfl
  cmdr := rfl
  root := rfl
  rootValid := rfl
  cur := rfl
  decActive := rfl
  encActive := rfl
  pbuf := rfl
  pcnt := rfl
  decNbits := rfl
  decNsyms := rfl
  encNbits := rfl
  encNsyms := rfl
  nodes _ := rfl
  codes _ := rfl
  dout := rfl
  eout := rfl

/-- Every view and every error bit of STATUS is 0 in the table of R32. -/
theorem State.AtResetTable.status_eq {s : State} (h : s.AtResetTable) : s.status = 0x00000000#32 := by
  simp [State.status, State.doutAvail, State.eoutAvail, h.err, h.cmdPend, h.rootValid, h.decActive, h.encActive,
    h.dout, h.eout, bitAt, zext32]

/-- Settles O9: the reset state is what a reset leaves. -/
theorem resetStateHoldsTheTable : Obligations.ResetStateHoldsTheTable := by
  have h : State.reset.AtResetTable := State.resetAll_atResetTable State.reset
  exact ⟨h, h.status_eq⟩

/-! ### What keeps the invariant -/

section
variable {s t : State}

/-- A PBUF of 0 has no bit set, whatever PCNT says of which bits are low ones. -/
theorem State.packerClear_of_empty (hb : s.pbuf = 0x00#8) : s.packerClear := by
  intro i _
  simp [hb]

theorem State.resetAll_inv (s : State) : s.resetAll.Inv where
  tree_wf := rfl
  code_wf := rfl
  code_len _ hp := absurd hp List.not_mem_nil
  packer := State.packerClear_of_empty rfl
  dout_depth := Nat.zero_le _
  eout_depth := Nat.zero_le _

/-- The invariant reads TREE, CODE and the packer, and only bounds the FIFOs. -/
theorem State.Inv.congr (hi : s.Inv) (htree : t.tree = s.tree) (hcode : t.code = s.code) (hpbuf : t.pbuf = s.pbuf)
    (hpcnt : t.pcnt = s.pcnt) (hdout : t.dout.length ≤ s.dout.length) (heout : t.eout.length ≤ s.eout.length) :
    t.Inv where
  tree_wf := htree ▸ hi.tree_wf
  code_wf := hcode ▸ hi.code_wf
  code_len := hcode ▸ hi.code_len
  packer := by
    unfold State.packerClear
    rw [hpbuf, hpcnt]
    exact hi.packer
  dout_depth := hdout.trans hi.dout_depth
  eout_depth := heout.trans hi.eout_depth

theorem State.Inv.writeNode (hi : s.Inv) (idx : NodeIdx) (n : Node) : (s.writeNode idx n).Inv :=
  { hi with tree_wf := Memory.wf_write hi.tree_wf idx.isLt n }

theorem State.Inv.writeCode (hi : s.Inv) (c : Symbol) {e : CodeEntry} (he : e.len ≠ 0#8) : (s.writeCode c e).Inv :=
  { hi with
    code_wf := Memory.wf_write hi.code_wf c.isLt e
    code_len := fun p hp => by
      rcases Memory.mem_write hp with rfl | hp
      · exact he
      · exact hi.code_len p hp }

theorem State.Inv.eraseCode (hi : s.Inv) (c : Symbol) : (s.eraseCode c).Inv :=
  { hi with
    code_wf := Memory.wf_erase hi.code_wf c.toNat
    code_len := fun p hp => hi.code_len p (List.mem_of_mem_filter hp) }

/-- A code that can be read is not empty. -/
theorem State.Inv.codeAt_len (hi : s.Inv) {c : Symbol} {e : CodeEntry} (he : s.codeAt c = some e) : e.len ≠ 0#8 :=
  hi.code_len _ (Memory.mem_of_read he)

/-! ### Commands

Where a command leaves a part of the invariant's fields alone, `{ hi with … }` takes that part's fact over. -/

theorem execDecBits_keeps_inv (hi : s.Inv) {n : Nat} {data : BitVec 16} (h : exec (.decBits n data) s = .next t) :
    t.Inv := by
  rcases execDecBits_next h with ⟨-, rfl⟩ | ⟨-, c, out, -, hd, rfl⟩ | ⟨-, c, out, k, e, -, -, hd, -, rfl⟩
  · exact { hi with }
  · exact { hi with dout_depth := hd.trans (max_le hi.dout_depth le_rfl) }
  · exact { hi with dout_depth := hd.trans (max_le hi.dout_depth le_rfl) }

theorem execEncSym_keeps_inv (hi : s.Inv) {c : Symbol} (h : exec (.encSym c) s = .next t) : t.Inv := by
  rcases execEncSym_next h with ⟨-, rfl⟩ | ⟨-, -, rfl⟩ | ⟨-, x, p, k, new, -, -, -, -, hp, hd, rfl⟩
  · exact { hi with }
  · exact { hi with }
  · exact { hi with packer := hp hi.packer, eout_depth := hd.trans (max_le hi.eout_depth le_rfl) }

theorem execEncFlush_keeps_inv (hi : s.Inv) (h : exec .encFlush s = .next t) : t.Inv := by
  rcases execEncFlush_next h with ⟨-, rfl⟩ | ⟨-, -, rfl⟩ | ⟨-, -, hd, rfl⟩
  · exact { hi with }
  · exact { hi with }
  · exact { hi with
      packer := State.packerClear_of_empty rfl
      eout_depth := by simpa using hd }

/-- Every command keeps the invariant. -/
theorem exec_keeps_inv (hi : s.Inv) {i : Instr} (h : exec i s = .next t) : t.Inv := by
  cases i with
  | srst =>
    cases h
    exact s.resetAll_inv
  | treeInt | treeLeaf =>
    cases h
    exact hi.writeNode _ _
  | codeLen c len =>
    rcases execCodeLen_next h with ⟨-, rfl⟩ | ⟨hl, rfl⟩
    · exact hi.eraseCode c
    · exact hi.writeCode c hl
  | codeBits c k data =>
    rcases execCodeBits_next h with ⟨-, rfl⟩ | ⟨e, he, rfl⟩
    · exact hi
    · have hl : e.len ≠ 0#8 := hi.codeAt_len he
      exact hi.writeCode c hl
  | decStart => rcases execDecStart_next h with ⟨-, rfl⟩ | ⟨-, -, rfl⟩ | ⟨n, -, -, rfl⟩ <;> exact { hi with }
  | decBits n data => exact execDecBits_keeps_inv hi h
  | decEnd => rcases execDecEnd_next h with ⟨-, rfl⟩ | ⟨-, -, rfl⟩ | ⟨-, -, rfl⟩ <;> exact { hi with }
  | encStart =>
    cases h
    exact { hi with packer := State.packerClear_of_empty rfl }
  | encSym c => exact execEncSym_keeps_inv hi h
  | encFlush => exact execEncFlush_keeps_inv hi h
  | nop | rootSet | rootClr =>
    cases h
    exact { hi with }

/-! ### HOST's transactions -/

theorem hostRead_keeps_inv (hi : s.Inv) (a : PortAddr) : (hostRead a s).Inv := by
  rcases hostRead_cases a s with ⟨-, h⟩ | ⟨-, h⟩ | ⟨-, -, h⟩ <;> rw [h]
  · exact hi.congr rfl rfl rfl rfl (List.tail_suffix _).length_le le_rfl
  · exact hi.congr rfl rfl rfl rfl le_rfl (List.tail_suffix _).length_le
  · exact { hi with }

theorem hostWrite_keeps_inv (hi : s.Inv) (a : PortAddr) (v : Word) : (hostWrite a v s).Inv := by
  rcases hostWrite_cases a v s with ⟨-, h⟩ | ⟨-, -, h⟩ | ⟨-, -, h⟩ | ⟨-, -, h⟩ <;> rw [h] <;> exact { hi with }

end

/-- Settles O10: the reset state is what a reset leaves. -/
theorem resetStateHasTheInvariant : Obligations.ResetStateHasTheInvariant := State.resetAll_inv State.reset

/-- Settles O11, by whose turn it is: HOST's transactions, resets and commands each keep the invariant. -/
theorem stepKeepsInvariant : Obligations.StepKeepsInvariant := by
  intro s t hi h
  have hp : s.popTurn.Inv := { hi with }
  rcases step_next h with ⟨a, -, -, rfl⟩ | ⟨a, v, -, -, rfl⟩ | ⟨-, -, rfl⟩ | ⟨-, -, -, rfl⟩ | ⟨_, -, -, -, -, rfl⟩ |
    ⟨i, -, -, -, -, hx⟩
  · exact hostRead_keeps_inv hp a
  · exact hostWrite_keeps_inv hp a v
  · exact s.popTurn.resetAll_inv
  · exact hp
  · exact { hi with }
  · have hc : s.popTurn.takeCommand.Inv := { hi with }
    exact exec_keeps_inv hc hx

end Sys2Proof.Machine
end

section
/-! ENGINE's turn: the hold of R34, which commands it runs (10_state.md R33), and that no step stops. -/

namespace Sys2Proof.Machine

/-! ### The hold -/

/-- The hold reads the command and the FIFO lengths alone (R34). -/
theorem held_congr (i : Instr) {s t : State} (hd : s.dout.length = t.dout.length) (he : s.eout.length = t.eout.length) :
    held i s = held i t := by
  cases i <;> simp only [held, State.roomDout, State.roomEout, hd, he]

theorem State.heldCmdr_instr {s : State} {i : Instr} (h : decode s.cmdr = .instr i) : s.heldCmdr = held i s := by
  simp [State.heldCmdr, h]

theorem State.heldCmdr_illegal {s : State} {why : Illegal} (h : decode s.cmdr = .illegal why) : s.heldCmdr = false := by
  simp [State.heldCmdr, h]

theorem State.heldCmdr_congr {s t : State} (hc : s.cmdr = t.cmdr) (hd : s.dout.length = t.dout.length)
    (he : s.eout.length = t.eout.length) : s.heldCmdr = t.heldCmdr := by
  unfold State.heldCmdr
  rw [hc]
  cases decode t.cmdr with
  | instr i => exact held_congr i hd he
  | illegal => rfl

/-- The three lines of R34. -/
theorem held_iff {i : Instr} (s : State) (hw : i.wellFormed = true) :
    held i s = true ↔
      (∃ n data, i = .decBits n data ∧ Config.doutDepth - s.dout.length < n) ∨
      (∃ sym, i = .encSym sym ∧ Config.eoutDepth - s.eout.length < 32) ∨
      (i = .encFlush ∧ Config.eoutDepth - s.eout.length < 1) := by
  cases i with
  | decBits n data =>
    simp only [Instr.wellFormed, Bool.and_eq_true, decide_eq_true_eq] at hw
    have hroom := s.roomDout_iff_free hw.1
    simp [held, ← Bool.not_eq_true, hroom, State.freeDout]
  | encSym sym =>
    have hroom := s.roomEout_iff_free (n := 32) (by decide)
    simp [held, ← Bool.not_eq_true, hroom, State.freeEout]
  | encFlush =>
    have hroom := s.roomEout_iff_free (n := 1) le_rfl
    simp [held, ← Bool.not_eq_true, hroom, State.freeEout]
  | _ => simp [held]

/-- ENGINE waits where the pending command is held. -/
theorem step_held {s : State} (ht : s.turn = .engine) (hh : s.heldCmdr = true) : step s = .next s.popTurn :=
  step_idle ht (by simp [State.engineEnabled, hh])

/-- A read of a held state that leaves it not held has popped DOUT or EOUT: any other read keeps CMDR and both
lengths. -/
theorem hostRead_lifts_hold {s : State} {a : PortAddr} (hh : s.heldCmdr = true)
    (hl : (hostRead a s).heldCmdr = false) :
    wordOffset a = 0x24 ∧ (hostRead a s).dout.length < s.dout.length ∨
      wordOffset a = 0x28 ∧ (hostRead a s).eout.length < s.eout.length := by
  have hne : (hostRead a s).heldCmdr ≠ s.heldCmdr := by simp [hh, hl]
  rcases hostRead_cases a s with ⟨ha, h⟩ | ⟨ha, h⟩ | ⟨-, -, h⟩ <;> rw [h] at hne ⊢
  · refine .inl ⟨ha, lt_of_le_of_ne (List.tail_suffix _).length_le fun hd => hne ?_⟩
    exact State.heldCmdr_congr rfl hd rfl
  · refine .inr ⟨ha, lt_of_le_of_ne (List.tail_suffix _).length_le fun he => hne ?_⟩
    exact State.heldCmdr_congr rfl rfl he
  · exact absurd rfl hne

/-- A write leaves a pending command as it is (R47), so also held. -/
theorem hostWrite_keeps_hold {s : State} (a : PortAddr) (v : Word) (hp : s.cmdPend = true) :
    (hostWrite a v s).heldCmdr = s.heldCmdr := by
  rcases hostWrite_cases a v s with ⟨-, h⟩ | ⟨-, -, h⟩ | ⟨-, hf, -⟩ | ⟨-, -, h⟩
  · rw [h]; rfl
  · rw [h]; rfl
  · simp [hp] at hf
  · rw [h]

/-- A step after which a held command is pending and no longer held is a host read that popped a FIFO. -/
theorem step_lifts_hold {s t : State} (h : step s = .next t) (hp : s.cmdPend = true) (hh : s.heldCmdr = true)
    (hpt : t.cmdPend = true) (hl : t.heldCmdr = false) :
    ∃ a, s.turn = .read a ∧
      (wordOffset a = 0x24 ∧ t.dout.length < s.dout.length ∨
        wordOffset a = 0x28 ∧ t.eout.length < s.eout.length) := by
  have hpop : s.popTurn.heldCmdr = true := hh
  have hdis : s.engineEnabled ≠ true := by simp [State.engineEnabled, hh]
  rcases step_next h with ⟨a, ht, -, rfl⟩ | ⟨a, v, -, -, rfl⟩ | ⟨-, -, rfl⟩ | ⟨-, -, -, rfl⟩ | ⟨_, -, -, he, -⟩ |
    ⟨i, -, -, he, -⟩
  · exact ⟨a, ht, hostRead_lifts_hold hpop hl⟩
  · have hkeep := hostWrite_keeps_hold (s := s.popTurn) a v hp
    rw [hkeep, hpop] at hl
    cases hl
  · cases hpt
  · rw [hpop] at hl
    cases hl
  · exact absurd he hdis
  · exact absurd he hdis

/-- Settles O7: the three lines of R34, and that any other step keeps CMDR and both lengths. -/
theorem heldExactlyWithoutRoom : Obligations.HeldExactlyWithoutRoom :=
  ⟨fun _ s hw => held_iff s hw,
    fun _ => ⟨fun _ => State.heldCmdr_instr, fun _ => State.heldCmdr_illegal⟩,
    fun i _ _ => held_congr i,
    fun _ ht _ hh => step_held ht hh,
    fun _ _ hp hh h => step_lifts_hold h hp hh⟩

/-! ### Every step answers a next state -/

/-- Room for one symbol per bit is enough for a DEC_BITS (43_decoder.md). -/
theorem execDecBits_answers {n : Nat} {data : BitVec 16} {s : State} (h : s.roomDout n = true) :
    ∃ t, exec (.decBits n data) s = .next t := by
  have hroom := (s.roomDout_iff n).1 h
  have hlen := dataBits_length_le n data
  simp only [exec, execDecBits, consumeBits]
  split
  · rcases walkBits_cases (dataBits n data) s with ⟨c, out, -, -, hw⟩ | ⟨c, out, k, e, -, -, -, -, hw⟩ | ⟨hf, -⟩
    · exact ⟨_, congrArg Flow.outcome hw⟩
    · exact ⟨_, congrArg Flow.outcome hw⟩
    · omega
  · exact ⟨_, rfl⟩

/-- At PCNT = 7 a code of 255 bits pushes 32 bytes, and no code pushes more (42_encoder.md). -/
theorem execEncSym_answers {c : Symbol} {s : State} (h : s.roomEout 32 = true) :
    ∃ t, exec (.encSym c) s = .next t := by
  have hroom := (s.roomEout_iff 32).1 h
  simp only [exec, execEncSym]
  rcases encodeSymbol_cases c s with ⟨-, he⟩ | ⟨-, -, he⟩ | ⟨x, -, -, he⟩
  · exact ⟨_, congrArg Flow.outcome he⟩
  · exact ⟨_, congrArg Flow.outcome he⟩
  · rcases appendBits_cases x.codeString s with ⟨p, k, new, hw, -⟩ | ⟨hf, -⟩
    · rw [he, hw]
      exact ⟨_, rfl⟩
    · have hcode := x.len.isLt
      have hpcnt := pcnt_lt s
      rw [codeString_length] at hf
      omega

theorem execEncFlush_answers {s : State} (h : s.roomEout 1 = true) : ∃ t, exec .encFlush s = .next t := by
  have hroom := (s.roomEout_iff 1).1 h
  simp only [exec, execEncFlush]
  rcases flushPacker_cases s with ⟨-, he⟩ | ⟨-, -, he⟩ | ⟨-, -, -, he⟩ | ⟨-, -, hf, -⟩
  · exact ⟨_, congrArg Flow.outcome he⟩
  · exact ⟨_, congrArg Flow.outcome he⟩
  · exact ⟨_, congrArg Flow.outcome he⟩
  · omega

/-- The reservation of the hold suffices: a command that is not held answers a next state. -/
theorem exec_answers {i : Instr} {s : State} (h : held i s = false) : ∃ t, exec i s = .next t := by
  cases i with
  | decBits n data => exact execDecBits_answers (by simpa [held] using h)
  | encSym c => exact execEncSym_answers (by simpa [held] using h)
  | encFlush => exact execEncFlush_answers (by simpa [held] using h)
  | codeLen c len =>
    simp only [exec, execCodeLen]
    split <;> exact ⟨_, rfl⟩
  | codeBits c k data =>
    simp only [exec, execCodeBits]
    split <;> exact ⟨_, rfl⟩
  | decStart =>
    rcases openWalk_cases s with ⟨-, he⟩ | ⟨-, -, he⟩ | ⟨n, -, -, he⟩ <;> exact ⟨_, congrArg Flow.outcome he⟩
  | decEnd =>
    rcases closeWalk_cases s with ⟨-, he⟩ | ⟨-, -, he⟩ | ⟨-, -, he⟩ <;> exact ⟨_, congrArg Flow.outcome he⟩
  | nop | srst | treeInt | treeLeaf | rootSet | rootClr | encStart => exact ⟨_, rfl⟩

/-- Settles O8: only a command could answer anything else, and ENGINE executes none that is held. -/
theorem everyStepAnswersNext : Obligations.EveryStepAnswersNext := by
  intro s
  rcases step_cases s with ⟨a, -, h⟩ | ⟨a, v, -, h⟩ | ⟨-, h⟩ | ⟨-, -, h⟩ | ⟨_, -, -, -, h⟩ | ⟨i, hx, h⟩
  · exact ⟨_, h⟩
  · exact ⟨_, h⟩
  · exact ⟨_, h⟩
  · exact ⟨_, h⟩
  · exact ⟨_, h⟩
  · obtain ⟨-, -, hh, -⟩ := (s.executing_iff i).1 hx
    have hh' : held i s.popTurn.takeCommand = false := hh
    exact h ▸ exec_answers hh'

/-! ### ENGINE runs the decoded command -/

theorem State.executing_of_pending {s : State} {i : Instr} (ht : s.turn = .engine) (hp : s.cmdPend = true)
    (hd : decode s.cmdr = .instr i) (hh : held i s = false) : s.executing = some i :=
  (s.executing_iff i).2 ⟨ht, hp, hh, hd⟩

theorem step_illegal {s : State} {why : Illegal} (ht : s.turn = .engine) (hp : s.cmdPend = true)
    (hd : decode s.cmdr = .illegal why) : step s = .next (s.popTurn.takeCommand.setErr .illegalCmd) := by
  rw [step_execute ht (by simp [State.engineEnabled, hp, State.heldCmdr_illegal hd]), hd]
  rfl

theorem State.withFetchWord_cmdr (s : State) (w : Word) : (s.withFetchWord 32 w.toNat).cmdr = w :=
  BitVec.eq_of_toNat_eq (by simpa [State.withFetchWord] using w.isLt)

/-- The state in which the step after `withFetchWord` executes: the word in CMDR, taken. -/
theorem State.withFetchWord_taken (s : State) (w : Word) :
    (s.withFetchWord 32 w.toNat).popTurn.takeCommand = { s with cmdr := w, cmdPend := false } :=
  congrArg (fun v => ({ s with cmdr := v, cmdPend := false } : State)) (s.withFetchWord_cmdr w)

theorem step_withFetchWord {s : State} {w : Word} {i : Instr} (hd : decode w = .instr i) (hh : held i s = false) :
    step (s.withFetchWord 32 w.toNat) = exec i { s with cmdr := w, cmdPend := false } := by
  have hx : (s.withFetchWord 32 w.toNat).executing = some i :=
    State.executing_of_pending rfl rfl ((congrArg decode (s.withFetchWord_cmdr w)).trans hd) hh
  rw [step_of_executing hx, s.withFetchWord_taken]

/-- Settles O6: ENGINE is enabled exactly where a command is pending and not held. -/
theorem stepRunsTheDecodedCommand : Obligations.StepRunsTheDecodedCommand := by
  refine ⟨fun s ht => ⟨?runs, ?illegal, ?held, ?idle⟩, fun _ _ _ => step_withFetchWord⟩
  case runs => exact fun i hp hd hh => step_of_executing (State.executing_of_pending ht hp hd hh)
  case illegal => exact fun _ hp hd => step_illegal ht hp hd
  case held => exact fun _ _ hd hh => step_held ht ((State.heldCmdr_instr hd).trans hh)
  case idle => exact fun hp => step_idle ht (by simp [State.engineEnabled, hp])

end Sys2Proof.Machine
end

section
/-! What one session command comes to: how far a DEC_BITS goes and what it counts (43_decoder.md R162, R165), and which
bits of a code an ENC_SYM reads (10_state.md R28). -/

namespace Sys2Proof.Machine

/-! ### DEC_BITS counts -/

theorem toNat_add_ofNat (v : Word) (k : Nat) : (v + BitVec.ofNat 32 k).toNat = (v.toNat + k) % 2 ^ 32 := by
  simp [BitVec.toNat_add]

/-- Settles O36: outside a session nothing is consumed; inside one, all N bits or those before the one that raised. -/
theorem decBitsIsBoundedAndCounted : Obligations.DecBitsIsBoundedAndCounted := by
  intro s t n data hn h
  have hlen : (dataBits n data).length = n := dataBits_length hn data
  rcases execDecBits_next h with ⟨ha, rfl⟩ | ⟨ha, c, out, ho, -, rfl⟩ | ⟨-, c, out, k, e, hk, ho, -, -, rfl⟩
  · refine ⟨0, [], n.zero_le, le_rfl, (List.append_nil _).symm, ?_, ?_, fun ht => ?_, rfl⟩
    · exact (Nat.mod_eq_of_lt s.decNbits.isLt).symm
    · exact (Nat.mod_eq_of_lt s.decNsyms.isLt).symm
    · exact absurd (ha.symm.trans ht) Bool.false_ne_true
  · rw [hlen] at ho ⊢
    exact ⟨n, out, le_rfl, ho, rfl, toNat_add_ofNat .., toNat_add_ofNat .., fun _ => rfl, rfl⟩
  · rw [hlen] at hk
    exact ⟨k, out, hk.le, ho, rfl, toNat_add_ofNat .., toNat_add_ofNat .., nofun, rfl⟩

/-! ### ENC_SYM reads a code below its length -/

/-- Entries of one length that agree below it are one code. -/
theorem CodeEntry.codeString_congr {x y : CodeEntry} (hl : y.len = x.len)
    (hb : ∀ p (hp : p < 255), p < x.len.toNat → y.bits[p] = x.bits[p]) : y.codeString = x.codeString := by
  apply List.ext_getElem
  · rw [codeString_length, codeString_length, hl]
  · intro p hpy hpx
    rw [codeString_length] at hpx
    have hp : p < 255 := by have := x.len.isLt; omega
    simpa [CodeEntry.codeString] using hb p hp hpx

theorem appendBit_within_byte {b : Bool} {s : State} (h7 : s.pcnt ≠ 7#3) :
    appendBit b s = .go { s with pbuf := setBit s.pbuf (7 - s.pcnt.toNat) b, pcnt := s.pcnt + 1#3 } := by
  rcases appendBit_cases b s with ⟨-, he⟩ | ⟨h7', -⟩ | ⟨h7', -⟩
  · exact he
  · exact absurd h7' h7
  · exact absurd h7' h7

theorem appendBit_full_byte {b : Bool} {s : State} (h7 : s.pcnt = 7#3) (hr : s.eout.length < Config.eoutDepth) :
    appendBit b s = .go { s with eout := s.eout ++ [setBit s.pbuf 0 b], pbuf := 0x00#8, pcnt := 0#3 } := by
  rcases appendBit_cases b s with ⟨h7', -⟩ | ⟨-, -, he⟩ | ⟨-, hf, -⟩
  · exact absurd h7 h7'
  · exact he
  · exact absurd hr hf.not_gt

/-- The packer does not read CODE. -/
theorem appendBit_writeCode {b : Bool} {s t : State} (d : Symbol) (y : CodeEntry) (h : appendBit b s = .go t) :
    appendBit b (s.writeCode d y) = .go (t.writeCode d y) := by
  rcases appendBit_cases b s with ⟨h7, he⟩ | ⟨h7, hr, he⟩ | ⟨-, -, he⟩ <;> rw [he] at h <;> cases h
  · exact appendBit_within_byte (s := s.writeCode d y) h7
  · exact appendBit_full_byte (s := s.writeCode d y) h7 hr

theorem Flow.andThen_eq_go {f : Flow} {k : State → Flow} {t : State} :
    f.andThen k = .go t ↔ ∃ u, f = .go u ∧ k u = .go t := by
  cases f <;> simp

theorem appendBits_writeCode {bs : List Bool} {s t : State} (d : Symbol) (y : CodeEntry)
    (h : appendBits bs s = .go t) : appendBits bs (s.writeCode d y) = .go (t.writeCode d y) := by
  induction bs generalizing s with
  | nil =>
    cases h
    rfl
  | cons b bs ih =>
    obtain ⟨u, hu, ht⟩ := Flow.andThen_eq_go.1 h
    exact Flow.andThen_eq_go.2 ⟨u.writeCode d y, appendBit_writeCode d y hu, ih ht⟩

/-- The three answers of ENC_SYM: the sequence error, the unknown symbol, and the code's bits, then counted (R142). -/
theorem execEncSym_next_iff {c : Symbol} {s t : State} :
    exec (.encSym c) s = .next t ↔
      (s.encActive = false ∧ t = s.setErr .encSeq) ∨
      (s.encActive = true ∧ s.codeAt c = none ∧ t = s.endEnc.setErr .unknownSymbol) ∨
      (∃ x u, s.encActive = true ∧ s.codeAt c = some x ∧ appendBits x.codeString s = .go u ∧
        t = u.countEncoded x.len) := by
  simp only [exec, execEncSym]
  rcases encodeSymbol_cases c s with ⟨ha, he⟩ | ⟨ha, hc, he⟩ | ⟨x, ha, hc, he⟩
  · simp [he, ha, eq_comm]
  · simp [he, ha, hc, eq_comm]
  · rcases appendBits_cases x.codeString s with ⟨p, k, new, hw, -⟩ | ⟨-, hw⟩
    · simp [he, ha, hc, hw, eq_comm]
    · simp [he, ha, hc, hw]

/-- Settles O41: the replaced entry is the same code, and the packer does not read CODE. -/
theorem encSymIgnoresBitsPastTheLength : Obligations.EncSymIgnoresBitsPastTheLength := by
  intro s t c d x y hx hl hb h
  rw [execEncSym_next_iff] at h ⊢
  rcases h with ⟨ha, rfl⟩ | ⟨ha, hc, rfl⟩ | ⟨z, u, ha, hc, hu, rfl⟩
  · exact .inl ⟨ha, rfl⟩
  · have hcd : c ≠ d := by
      rintro rfl
      simp [hx] at hc
    exact .inr (.inl ⟨ha, by simp [hcd, hc], rfl⟩)
  · obtain ⟨w, hw, hwl, hws⟩ : ∃ w, (s.writeCode d y).codeAt c = some w ∧ w.len = z.len ∧
        w.codeString = z.codeString := by
      by_cases hcd : c = d
      · subst hcd
        obtain rfl : x = z := Option.some.inj (hx.symm.trans hc)
        exact ⟨y, by simp, hl, CodeEntry.codeString_congr hl hb⟩
      · exact ⟨z, by simp [hcd, hc], rfl, rfl⟩
    refine .inr (.inr ⟨w, u.writeCode d y, ha, hw, ?_, ?_⟩)
    · rw [hws]
      exact appendBits_writeCode d y hu
    · rw [hwl]
      rfl

end Sys2Proof.Machine
end

section
/-! Who writes what: the part of the state each command may write, the part a step that executes none may, and from the
two, for each register and memory, the commands that change it (10_state.md R16 to R31). -/

namespace Sys2Proof.Machine

/-! ### Commands -/

/-- What a command may write: every field that is not named keeps its value (41_control_load.md, 42_encoder.md,
43_decoder.md). -/
def CommandFrame (i : Instr) (s t : State) : Prop :=
  match i with
  | .nop => t = s
  | .srst => t = s.resetAll
  | .treeInt idx left right => t = s.writeNode idx (.internal left right)
  | .treeLeaf idx sym => t = s.writeNode idx (.leaf sym)
  | .rootSet idx => t = { s with root := idx, rootValid := true }
  | .rootClr => t = { s with rootValid := false }
  | .codeLen _ _ => t = { s with code := t.code }
  | .codeBits _ _ _ => t = { s with code := t.code }
  | .decStart =>
    t = { s with
      err := t.err, cur := t.cur, decActive := t.decActive, decNbits := t.decNbits, decNsyms := t.decNsyms }
  | .decBits _ _ =>
    t = { s with
      err := t.err, cur := t.cur, decActive := t.decActive, decNbits := t.decNbits, decNsyms := t.decNsyms,
      dout := t.dout }
  | .decEnd => t = { s with err := t.err, decActive := t.decActive }
  | .encStart =>
    t = { s with
      err := t.err, encActive := t.encActive, pbuf := t.pbuf, pcnt := t.pcnt,
      encNbits := t.encNbits, encNsyms := t.encNsyms }
  | .encSym _ =>
    t = { s with
      err := t.err, encActive := t.encActive, pbuf := t.pbuf, pcnt := t.pcnt,
      encNbits := t.encNbits, encNsyms := t.encNsyms, eout := t.eout }
  | .encFlush =>
    t = { s with err := t.err, encActive := t.encActive, pbuf := t.pbuf, pcnt := t.pcnt, eout := t.eout }

/-- Every command keeps to its frame. -/
theorem exec_frame {i : Instr} {s t : State} (h : exec i s = .next t) : CommandFrame i s t := by
  cases i with
  | codeLen c len => rcases execCodeLen_next h with ⟨-, rfl⟩ | ⟨-, rfl⟩ <;> rfl
  | codeBits c k data => rcases execCodeBits_next h with ⟨-, rfl⟩ | ⟨e, -, rfl⟩ <;> rfl
  | decStart => rcases execDecStart_next h with ⟨-, rfl⟩ | ⟨-, -, rfl⟩ | ⟨n, -, -, rfl⟩ <;> rfl
  | decBits n data =>
    rcases execDecBits_next h with ⟨-, rfl⟩ | ⟨-, c, out, -, -, rfl⟩ | ⟨-, c, out, k, e, -, -, -, -, rfl⟩ <;> rfl
  | decEnd => rcases execDecEnd_next h with ⟨-, rfl⟩ | ⟨-, -, rfl⟩ | ⟨-, -, rfl⟩ <;> rfl
  | encSym c =>
    rcases execEncSym_next h with ⟨-, rfl⟩ | ⟨-, -, rfl⟩ | ⟨-, x, p, k, new, -, -, -, -, -, -, rfl⟩ <;> rfl
  | encFlush => rcases execEncFlush_next h with ⟨-, rfl⟩ | ⟨-, -, rfl⟩ | ⟨-, -, -, rfl⟩ <;> rfl
  | nop | srst | treeInt | treeLeaf | rootSet | rootClr | encStart =>
    cases h
    rfl

/-- The command register is no command's but SRST's (R16). -/
theorem exec_keeps_command {i : Instr} {s t : State} (h : exec i s = .next t) (hi : i ≠ .srst) :
    t.cmdPend = s.cmdPend ∧ t.cmdr = s.cmdr := by
  have hf := exec_frame h
  cases i with
  | srst => exact absurd rfl hi
  | _ => exact ⟨(congrArg State.cmdPend hf :), (congrArg State.cmdr hf :)⟩

/-! ### Steps -/

/-- What a step that is no reset and executes no command may write: the error bits, the command register, HOST's side,
and the FIFOs, from which it only pops. -/
def PortFrame (s t : State) : Prop :=
  t = { s with
    err := t.err, cmdPend := t.cmdPend, cmdr := t.cmdr, dout := t.dout, eout := t.eout, host := t.host } ∧
  t.dout.length ≤ s.dout.length ∧ t.eout.length ≤ s.eout.length

theorem hostRead_frame (a : PortAddr) (s : State) : PortFrame s (hostRead a s) := by
  rcases hostRead_cases a s with ⟨-, h⟩ | ⟨-, h⟩ | ⟨-, -, h⟩ <;> rw [h]
  · exact ⟨rfl, (List.tail_suffix _).length_le, le_rfl⟩
  · exact ⟨rfl, le_rfl, (List.tail_suffix _).length_le⟩
  · exact ⟨rfl, le_rfl, le_rfl⟩

theorem hostWrite_frame (a : PortAddr) (v : Word) (s : State) : PortFrame s (hostWrite a v s) := by
  rcases hostWrite_cases a v s with ⟨-, h⟩ | ⟨-, -, h⟩ | ⟨-, -, h⟩ | ⟨-, -, h⟩ <;> rw [h] <;>
    exact ⟨rfl, le_rfl, le_rfl⟩

/-- A step that is no reset keeps to the port's frame, or to that of the command it executes. -/
theorem step_frame {s t : State} (h : step s = .next t) (hr : s.isReset = false) :
    PortFrame s t ∨ ∃ i, i ≠ .srst ∧ s.executing = some i ∧ CommandFrame i s.popTurn.takeCommand t := by
  rcases step_next h with ⟨a, -, -, rfl⟩ | ⟨a, v, -, -, rfl⟩ | ⟨ht, -, -⟩ | ⟨-, -, -, rfl⟩ | ⟨_, -, -, -, -, rfl⟩ |
    ⟨i, -, hx, -, -, he⟩
  · obtain ⟨hf, hlen⟩ := hostRead_frame a s.popTurn
    exact .inl ⟨hf, hlen⟩
  · obtain ⟨hf, hlen⟩ := hostWrite_frame a v s.popTurn
    exact .inl ⟨hf, hlen⟩
  · simp [State.isReset, ht] at hr
  · exact .inl ⟨rfl, le_rfl, le_rfl⟩
  · exact .inl ⟨rfl, le_rfl, le_rfl⟩
  · refine .inr ⟨i, ?_, hx, exec_frame he⟩
    rintro rfl
    simp [State.isReset_of_executing hx] at hr

section
variable {s t : State} (h : step s = .next t) (hr : s.isReset = false)
include h hr

/-! ### Who writes TREE, the root and CODE -/

theorem step_writes_tree (hne : t.tree ≠ s.tree) :
    (∃ idx l r, s.executing = some (.treeInt idx l r)) ∨ ∃ idx sym, s.executing = some (.treeLeaf idx sym) := by
  rcases step_frame h hr with ⟨hf, -⟩ | ⟨i, hi, hx, hf⟩
  · exact absurd (congrArg State.tree hf) hne
  · cases i with
    | srst => exact absurd rfl hi
    | treeInt idx l r => exact .inl ⟨idx, l, r, hx⟩
    | treeLeaf idx sym => exact .inr ⟨idx, sym, hx⟩
    | _ => exact absurd (congrArg State.tree hf) hne

theorem step_writes_root (hne : t.root ≠ s.root) : ∃ idx, s.executing = some (.rootSet idx) ∧ t.root = idx := by
  rcases step_frame h hr with ⟨hf, -⟩ | ⟨i, hi, hx, hf⟩
  · exact absurd (congrArg State.root hf) hne
  · cases i with
    | srst => exact absurd rfl hi
    | rootSet idx => exact ⟨idx, hx, congrArg State.root hf⟩
    | _ => exact absurd (congrArg State.root hf) hne

theorem step_writes_rootValid (hne : t.rootValid ≠ s.rootValid) :
    (∃ idx, s.executing = some (.rootSet idx) ∧ t.rootValid = true) ∨
      s.executing = some .rootClr ∧ t.rootValid = false := by
  rcases step_frame h hr with ⟨hf, -⟩ | ⟨i, hi, hx, hf⟩
  · exact absurd (congrArg State.rootValid hf) hne
  · cases i with
    | srst => exact absurd rfl hi
    | rootSet idx => exact .inl ⟨idx, hx, congrArg State.rootValid hf⟩
    | rootClr => exact .inr ⟨hx, congrArg State.rootValid hf⟩
    | _ => exact absurd (congrArg State.rootValid hf) hne

theorem step_writes_code (hne : t.code ≠ s.code) :
    (∃ c len, s.executing = some (.codeLen c len)) ∨ ∃ c k data, s.executing = some (.codeBits c k data) := by
  rcases step_frame h hr with ⟨hf, -⟩ | ⟨i, hi, hx, hf⟩
  · exact absurd (congrArg State.code hf) hne
  · cases i with
    | srst => exact absurd rfl hi
    | codeLen c len => exact .inl ⟨c, len, hx⟩
    | codeBits c k data => exact .inr ⟨c, k, data, hx⟩
    | _ => exact absurd (congrArg State.code hf) hne

/-! ### Who writes CUR, the packer and the counters, and who pushes -/

theorem step_writes_cur (hne : t.cur ≠ s.cur) :
    s.executing = some .decStart ∨ ∃ n data, s.executing = some (.decBits n data) := by
  rcases step_frame h hr with ⟨hf, -⟩ | ⟨i, hi, hx, hf⟩
  · exact absurd (congrArg State.cur hf) hne
  · cases i with
    | srst => exact absurd rfl hi
    | decStart => exact .inl hx
    | decBits n data => exact .inr ⟨n, data, hx⟩
    | _ => exact absurd (congrArg State.cur hf) hne

theorem step_writes_decoder_counters (hne : t.decNbits ≠ s.decNbits ∨ t.decNsyms ≠ s.decNsyms) :
    s.executing = some .decStart ∨ ∃ n data, s.executing = some (.decBits n data) := by
  rcases step_frame h hr with ⟨hf, -⟩ | ⟨i, hi, hx, hf⟩
  · exact absurd ⟨(congrArg State.decNbits hf :), (congrArg State.decNsyms hf :)⟩ (not_and_or.2 hne)
  · cases i with
    | srst => exact absurd rfl hi
    | decStart => exact .inl hx
    | decBits n data => exact .inr ⟨n, data, hx⟩
    | _ => exact absurd ⟨(congrArg State.decNbits hf :), (congrArg State.decNsyms hf :)⟩ (not_and_or.2 hne)

theorem step_writes_packer (hne : t.pbuf ≠ s.pbuf ∨ t.pcnt ≠ s.pcnt) :
    s.executing = some .encStart ∨ (∃ c, s.executing = some (.encSym c)) ∨ s.executing = some .encFlush := by
  rcases step_frame h hr with ⟨hf, -⟩ | ⟨i, hi, hx, hf⟩
  · exact absurd ⟨(congrArg State.pbuf hf :), (congrArg State.pcnt hf :)⟩ (not_and_or.2 hne)
  · cases i with
    | srst => exact absurd rfl hi
    | encStart => exact .inl hx
    | encSym c => exact .inr (.inl ⟨c, hx⟩)
    | encFlush => exact .inr (.inr hx)
    | _ => exact absurd ⟨(congrArg State.pbuf hf :), (congrArg State.pcnt hf :)⟩ (not_and_or.2 hne)

theorem step_writes_encoder_counters (hne : t.encNbits ≠ s.encNbits ∨ t.encNsyms ≠ s.encNsyms) :
    s.executing = some .encStart ∨ ∃ c, s.executing = some (.encSym c) := by
  rcases step_frame h hr with ⟨hf, -⟩ | ⟨i, hi, hx, hf⟩
  · exact absurd ⟨(congrArg State.encNbits hf :), (congrArg State.encNsyms hf :)⟩ (not_and_or.2 hne)
  · cases i with
    | srst => exact absurd rfl hi
    | encStart => exact .inl hx
    | encSym c => exact .inr ⟨c, hx⟩
    | _ => exact absurd ⟨(congrArg State.encNbits hf :), (congrArg State.encNsyms hf :)⟩ (not_and_or.2 hne)

theorem step_pushes_dout (hlt : s.dout.length < t.dout.length) :
    ∃ n data, s.executing = some (.decBits n data) := by
  rcases step_frame h hr with ⟨-, hd, -⟩ | ⟨i, hi, hx, hf⟩
  · exact absurd hlt hd.not_gt
  · cases i with
    | srst => exact absurd rfl hi
    | decBits n data => exact ⟨n, data, hx⟩
    | _ => exact absurd (congrArg (·.dout.length) hf) hlt.ne'

theorem step_pushes_eout (hlt : s.eout.length < t.eout.length) :
    (∃ c, s.executing = some (.encSym c)) ∨ s.executing = some .encFlush := by
  rcases step_frame h hr with ⟨-, -, he⟩ | ⟨i, hi, hx, hf⟩
  · exact absurd hlt he.not_gt
  · cases i with
    | srst => exact absurd rfl hi
    | encSym c => exact .inl ⟨c, hx⟩
    | encFlush => exact .inr hx
    | _ => exact absurd (congrArg (·.eout.length) hf) hlt.ne'

end

/-- Settles O43: for each register and FIFO, the commands whose frame names it. -/
theorem onlySessionCommandsWriteTheSessions : Obligations.OnlySessionCommandsWriteTheSessions := fun _ _ h hr =>
  ⟨step_writes_cur h hr, step_writes_decoder_counters h hr, step_writes_packer h hr, step_writes_encoder_counters h hr,
    step_pushes_dout h hr, step_pushes_eout h hr⟩

/-! ### The valid bits -/

/-- Writing a node sets one valid bit and clears none (R27). -/
theorem State.nodeValid_writeNode (s : State) (i j : NodeIdx) (n : Node) (h : s.nodeValid j = true) :
    (s.writeNode i n).nodeValid j = true := by
  simp only [State.nodeValid, State.nodeAt_writeNode] at h ⊢
  split
  · rfl
  · exact h

/-- The valid bit of a node never falls but at a reset (R27). -/
theorem step_keeps_nodeValid {s t : State} (h : step s = .next t) (hr : s.isReset = false) {i : NodeIdx}
    (hv : s.nodeValid i = true) : t.nodeValid i = true := by
  by_cases ht : t.tree = s.tree
  · rwa [State.nodeValid, State.nodeAt, ht]
  · rcases step_writes_tree h hr ht with ⟨idx, l, r, hx⟩ | ⟨idx, sym, hx⟩
    · cases exec_of_step h hx
      exact State.nodeValid_writeNode _ idx i _ hv
    · cases exec_of_step h hx
      exact State.nodeValid_writeNode _ idx i _ hv

/-- CODE_LEN gives its symbol's valid bit: whether LEN is not 0 (R126). -/
theorem execCodeLen_codeValid {c : Symbol} {len : BitVec 8} {s t : State} (h : exec (.codeLen c len) s = .next t)
    (d : Symbol) : t.codeValid d = if d = c then decide (len ≠ 0#8) else s.codeValid d := by
  rcases execCodeLen_next h with ⟨hl, rfl⟩ | ⟨hl, rfl⟩
  · by_cases hd : d = c <;> simp [State.codeValid, hd, hl]
  · by_cases hd : d = c <;> simp [State.codeValid, hd, hl]

/-- CODE_BITS writes only an entry that is valid, and leaves it so (R127). -/
theorem execCodeBits_codeValid {c : Symbol} {k : BitVec 4} {data : BitVec 16} {s t : State}
    (h : exec (.codeBits c k data) s = .next t) (d : Symbol) : t.codeValid d = s.codeValid d := by
  rcases execCodeBits_next h with ⟨-, rfl⟩ | ⟨e, he, rfl⟩
  · rfl
  · by_cases hd : d = c
    · simp [State.codeValid, hd, he]
    · simp [State.codeValid, hd]

/-- The valid bit of a code changes only by that symbol's CODE_LEN (R29, R126). -/
theorem step_writes_codeValid {s t : State} (h : step s = .next t) (hr : s.isReset = false) {c : Symbol}
    (hne : t.codeValid c ≠ s.codeValid c) :
    ∃ len, s.executing = some (.codeLen c len) ∧ t.codeValid c = decide (len ≠ 0#8) := by
  have hcode : t.code ≠ s.code := by
    intro ht
    exact hne (by rw [State.codeValid, State.codeAt, ht]; rfl)
  rcases step_writes_code h hr hcode with ⟨d, len, hx⟩ | ⟨d, k, data, hx⟩
  · have hv := execCodeLen_codeValid (exec_of_step h hx) c
    by_cases hd : c = d
    · subst hd
      exact ⟨len, hx, by simpa using hv⟩
    · rw [if_neg hd] at hv
      exact absurd hv hne
  · exact absurd (execCodeBits_codeValid (exec_of_step h hx) c) hne

/-- Settles O42: for each table and valid bit, the commands whose frame names it. -/
theorem onlyLoadCommandsWriteTheTables : Obligations.OnlyLoadCommandsWriteTheTables := by
  refine fun s t h hr => ⟨step_writes_tree h hr, fun _ => step_keeps_nodeValid h hr, step_writes_root h hr,
    ?rootRises, ?rootFalls, step_writes_code h hr, ?codeFalls, ?codeRises⟩
  case rootRises =>
    intro hs ht
    rcases step_writes_rootValid h hr (by simp [hs, ht]) with ⟨idx, hx, -⟩ | ⟨-, hf⟩
    · exact ⟨idx, hx⟩
    · simp [ht] at hf
  case rootFalls =>
    intro hs ht
    rcases step_writes_rootValid h hr (by simp [hs, ht]) with ⟨_, -, hf⟩ | ⟨hx, -⟩
    · simp [ht] at hf
    · exact hx
  case codeFalls =>
    intro c hs ht
    obtain ⟨len, hx, hl⟩ := step_writes_codeValid h hr (c := c) (by simp [hs, ht])
    obtain rfl : len = 0#8 := by simpa [ht] using hl
    exact hx
  case codeRises =>
    intro c hs ht
    obtain ⟨len, hx, hl⟩ := step_writes_codeValid h hr (c := c) (by simp [hs, ht])
    exact ⟨len, by simpa [ht] using hl, hx⟩

/-! ### The command register -/

theorem State.enginesStep_of_turn {s : State} (h : s.turn ≠ .engine) : s.enginesStep = false := by
  simp [State.enginesStep, h]

/-- All a step can do to CMD_PEND and CMDR (R16, R47, R57): it keeps both; it is an accepted write of CMD; it is a reset
input; or it is ENGINE's, which takes the command and leaves CMDR, unless it executes SRST. -/
theorem step_command {s t : State} (h : step s = .next t) :
    (s.enginesStep = false ∧ t.cmdPend = s.cmdPend ∧ t.cmdr = s.cmdr) ∨
    (∃ a v, s.turn = .write a v ∧ wordOffset a = 0x04 ∧ s.cmdPend = false ∧ t.cmdPend = true ∧ t.cmdr = v) ∨
    (s.turn = .resetInput ∧ t.cmdPend = false) ∨
    (s.enginesStep = true ∧ t.cmdPend = false ∧ (t.cmdr = s.cmdr ∨ s.executing = some .srst)) := by
  rcases step_next h with ⟨a, ht, -, rfl⟩ | ⟨a, v, ht, -, rfl⟩ | ⟨ht, -, rfl⟩ | ⟨ht, -, he, rfl⟩ |
    ⟨_, ht, -, he, -, rfl⟩ | ⟨i, ht, hx, he, -, hi⟩
  · refine .inl ⟨State.enginesStep_of_turn (by simp [ht]), ?_⟩
    rcases hostRead_cases a s.popTurn with ⟨-, hw⟩ | ⟨-, hw⟩ | ⟨-, -, hw⟩ <;> rw [hw] <;> exact ⟨rfl, rfl⟩
  · have hn : s.enginesStep = false := State.enginesStep_of_turn (by simp [ht])
    rcases hostWrite_cases a v s.popTurn with ⟨-, hw⟩ | ⟨-, -, hw⟩ | ⟨ha, hp, hw⟩ | ⟨-, -, hw⟩ <;> rw [hw]
    · exact .inl ⟨hn, rfl, rfl⟩
    · exact .inl ⟨hn, rfl, rfl⟩
    · exact .inr (.inl ⟨a, v, ht, ha, hp, rfl, rfl⟩)
    · exact .inl ⟨hn, rfl, rfl⟩
  · exact .inr (.inr (.inl ⟨ht, rfl⟩))
  · exact .inl ⟨by simp [State.enginesStep, he], rfl, rfl⟩
  · exact .inr (.inr (.inr ⟨by simp [State.enginesStep, ht, he], rfl, .inl rfl⟩))
  · have hs : s.enginesStep = true := by simp [State.enginesStep, ht, he]
    by_cases hsrst : i = .srst
    · subst hsrst
      cases hi
      exact .inr (.inr (.inr ⟨hs, rfl, .inr hx⟩))
    · obtain ⟨hp, hc⟩ := exec_keeps_command hi hsrst
      exact .inr (.inr (.inr ⟨hs, hp, .inl hc⟩))

/-- Settles O12: the clauses, read off what a step can do to CMD_PEND and CMDR. -/
theorem commandPendingRisesAndFalls : Obligations.CommandPendingRisesAndFalls := by
  intro s t h
  rcases step_command h with ⟨hn, hp, hc⟩ | ⟨a, v, ht, ha, hs, hp, hc⟩ | ⟨ht, hp⟩ | ⟨hs, hp, hc⟩
  · rw [hp, hn]
    exact ⟨fun hs ht => absurd (hs.symm.trans ht) nofun, fun hs ht => absurd (hs.symm.trans ht) nofun,
      fun hne => absurd hc hne, nofun⟩
  · exact ⟨by simp [hs], fun _ _ => ⟨a, v, ht, ha, hc⟩, fun _ => .inl (by simp [State.acceptsCommand, ht, ha, hs]),
      by simp [State.enginesStep, ht]⟩
  · exact ⟨fun _ _ => .inr ht, by simp [hp], fun _ => .inr (by simp [State.isReset, ht]), fun _ => hp⟩
  · refine ⟨fun _ _ => .inl hs, by simp [hp], fun hne => .inr ?_, fun _ => hp⟩
    have hx := hc.resolve_left hne
    simp [State.isReset, hx]

end Sys2Proof.Machine
end

section
/-! HOST's transactions as steps (20_memory.md R42 to R48): what each read returns and pops, what each write changes,
and which steps shorten a FIFO. -/

namespace Sys2Proof.Machine

/-! ### Reads of the two FIFOs -/

theorem step_read_dout {s : State} {a : PortAddr} (ht : s.turn = .read a) (ha : wordOffset a = 0x24) :
    step s = .next ({ s.popTurn with dout := s.dout.tail }.receive (fifoWord s.dout)) := by
  rw [step_read ht]
  rcases hostRead_cases a s.popTurn with ⟨-, h⟩ | ⟨h8, -⟩ | ⟨h4, -⟩
  · exact congrArg _ h
  · omega
  · exact absurd ha h4

theorem step_read_eout {s : State} {a : PortAddr} (ht : s.turn = .read a) (ha : wordOffset a = 0x28) :
    step s = .next ({ s.popTurn with eout := s.eout.tail }.receive (fifoWord s.eout)) := by
  rw [step_read ht]
  rcases hostRead_cases a s.popTurn with ⟨h4, -⟩ | ⟨-, h⟩ | ⟨-, h8, -⟩
  · omega
  · exact congrArg _ h
  · exact absurd ha h8

theorem step_read_dout_cons {s : State} {a : PortAddr} {x : Symbol} {q : List Symbol} (ht : s.turn = .read a)
    (ha : wordOffset a = 0x24) (hq : s.dout = x :: q) :
    ∃ v, step s = .next ({ s.popTurn with dout := q }.receive v) ∧ v.toNat = 256 + x.toNat :=
  ⟨fifoWord (x :: q), by rw [step_read_dout ht ha, hq, List.tail_cons], fifoWord_cons x q⟩

theorem step_read_eout_cons {s : State} {a : PortAddr} {x : Byte} {q : List Byte} (ht : s.turn = .read a)
    (ha : wordOffset a = 0x28) (hq : s.eout = x :: q) :
    ∃ v, step s = .next ({ s.popTurn with eout := q }.receive v) ∧ v.toNat = 256 + x.toNat :=
  ⟨fifoWord (x :: q), by rw [step_read_eout ht ha, hq, List.tail_cons], fifoWord_cons x q⟩

theorem step_read_dout_nil {s : State} {a : PortAddr} (ht : s.turn = .read a) (ha : wordOffset a = 0x24)
    (hq : s.dout = []) : step s = .next (s.popTurn.receive 0x00000000#32) := by
  have hkeep : { s.popTurn with dout := s.dout.tail } = s.popTurn := by
    rw [hq, List.tail_nil, ← hq]
    rfl
  rw [step_read_dout ht ha, hkeep, hq]
  rfl

theorem step_read_eout_nil {s : State} {a : PortAddr} (ht : s.turn = .read a) (ha : wordOffset a = 0x28)
    (hq : s.eout = []) : step s = .next (s.popTurn.receive 0x00000000#32) := by
  have hkeep : { s.popTurn with eout := s.eout.tail } = s.popTurn := by
    rw [hq, List.tail_nil, ← hq]
    rfl
  rw [step_read_eout ht ha, hkeep, hq]
  rfl

/-! ### Who shortens a FIFO -/

/-- Every command but SRST leaves what the FIFOs hold and can only push behind it. -/
theorem exec_extends_fifos {i : Instr} {s t : State} (h : exec i s = .next t) (hi : i ≠ .srst) :
    s.dout <+: t.dout ∧ s.eout <+: t.eout := by
  cases i with
  | srst => exact absurd rfl hi
  | decBits n data =>
    rcases execDecBits_next h with ⟨-, rfl⟩ | ⟨-, c, out, -, -, rfl⟩ | ⟨-, c, out, k, e, -, -, -, -, rfl⟩
    · exact ⟨List.prefix_rfl, List.prefix_rfl⟩
    · exact ⟨List.prefix_append .., List.prefix_rfl⟩
    · exact ⟨List.prefix_append .., List.prefix_rfl⟩
  | encSym c =>
    rcases execEncSym_next h with ⟨-, rfl⟩ | ⟨-, -, rfl⟩ | ⟨-, x, p, k, new, -, -, -, -, -, -, rfl⟩
    · exact ⟨List.prefix_rfl, List.prefix_rfl⟩
    · exact ⟨List.prefix_rfl, List.prefix_rfl⟩
    · exact ⟨List.prefix_rfl, List.prefix_append ..⟩
  | encFlush =>
    rcases execEncFlush_next h with ⟨-, rfl⟩ | ⟨-, -, rfl⟩ | ⟨-, -, -, rfl⟩
    · exact ⟨List.prefix_rfl, List.prefix_rfl⟩
    · exact ⟨List.prefix_rfl, List.prefix_rfl⟩
    · exact ⟨List.prefix_rfl, List.prefix_append ..⟩
  | _ =>
    have hf := exec_frame h
    have hd : t.dout = s.dout := (congrArg State.dout hf :)
    have he : t.eout = s.eout := (congrArg State.eout hf :)
    exact ⟨hd ▸ List.prefix_rfl, he ▸ List.prefix_rfl⟩

theorem hostWrite_keeps_fifos (a : PortAddr) (v : Word) (s : State) :
    (hostWrite a v s).dout = s.dout ∧ (hostWrite a v s).eout = s.eout := by
  rcases hostWrite_cases a v s with ⟨-, h⟩ | ⟨-, -, h⟩ | ⟨-, -, h⟩ | ⟨-, -, h⟩ <;> rw [h] <;> exact ⟨rfl, rfl⟩

/-- A step that is no reset leaves what each FIFO holds, unless it is the read that pops that FIFO (R44, R45). -/
theorem step_extends_fifos {s t : State} (h : step s = .next t) (hr : s.isReset = false) :
    ((∃ a, s.turn = .read a ∧ wordOffset a = 0x24) ∨ s.dout <+: t.dout) ∧
      ((∃ a, s.turn = .read a ∧ wordOffset a = 0x28) ∨ s.eout <+: t.eout) := by
  rcases step_next h with ⟨a, ht, -, rfl⟩ | ⟨a, v, -, -, rfl⟩ | ⟨ht, -, -⟩ | ⟨-, -, -, rfl⟩ | ⟨_, -, -, -, -, rfl⟩ |
    ⟨i, -, hx, -, -, he⟩
  · rcases hostRead_cases a s.popTurn with ⟨ha, hw⟩ | ⟨ha, hw⟩ | ⟨-, -, hw⟩ <;> rw [hw]
    · exact ⟨.inl ⟨a, ht, ha⟩, .inr List.prefix_rfl⟩
    · exact ⟨.inr List.prefix_rfl, .inl ⟨a, ht, ha⟩⟩
    · exact ⟨.inr List.prefix_rfl, .inr List.prefix_rfl⟩
  · obtain ⟨hd, he⟩ := hostWrite_keeps_fifos a v s.popTurn
    rw [hd, he]
    exact ⟨.inr List.prefix_rfl, .inr List.prefix_rfl⟩
  · simp [State.isReset, ht] at hr
  · exact ⟨.inr List.prefix_rfl, .inr List.prefix_rfl⟩
  · exact ⟨.inr List.prefix_rfl, .inr List.prefix_rfl⟩
  · have hi : i ≠ .srst := by
      rintro rfl
      simp [State.isReset_of_executing hx] at hr
    obtain ⟨hd, he⟩ := exec_extends_fifos he hi
    exact ⟨.inr hd, .inr he⟩

theorem step_shrinks_dout {s t : State} (h : step s = .next t) (hlt : t.dout.length < s.dout.length) :
    (∃ a, s.turn = .read a ∧ wordOffset a = 0x24) ∨ s.isReset = true := by
  cases hr : s.isReset with
  | true => exact .inr rfl
  | false =>
    rcases (step_extends_fifos h hr).1 with ha | hd
    · exact .inl ha
    · exact absurd hlt hd.length_le.not_gt

theorem step_shrinks_eout {s t : State} (h : step s = .next t) (hlt : t.eout.length < s.eout.length) :
    (∃ a, s.turn = .read a ∧ wordOffset a = 0x28) ∨ s.isReset = true := by
  cases hr : s.isReset with
  | true => exact .inr rfl
  | false =>
    rcases (step_extends_fifos h hr).2 with ha | he
    · exact .inl ha
    · exact absurd hlt he.length_le.not_gt

/-! ### A pop lifts a hold -/

theorem held_decBits_iff (n : Nat) (data : BitVec 16) (s : State) :
    held (.decBits n data) s = true ↔ Config.doutDepth < s.dout.length + n := by
  simp [held, ← Bool.not_eq_true, State.roomDout_iff]

theorem held_encFlush_iff (s : State) : held .encFlush s = true ↔ Config.eoutDepth < s.eout.length + 1 := by
  simp [held, ← Bool.not_eq_true, State.roomEout_iff]

theorem State.engineEnabled_of_decoded {s : State} {i : Instr} (hp : s.cmdPend = true)
    (hd : decode s.cmdr = .instr i) (hh : held i s = false) : s.engineEnabled = true := by
  simp [State.engineEnabled, hp, State.heldCmdr_instr hd, hh]

/-- DOUT full, a DEC_BITS of one bit pending, and HOST about to read DOUT. -/
def heldByDout : State :=
  { State.reset with
    cmdPend := true, cmdr := 0x70000000#32, dout := List.replicate Config.doutDepth 0x41#8,
    host := ⟨[.read 0x24#6], []⟩ }

/-- EOUT full, an ENC_FLUSH pending, and HOST about to read EOUT. -/
def heldByEout : State :=
  { State.reset with
    cmdPend := true, cmdr := 0xB0000000#32, eout := List.replicate Config.eoutDepth 0x6E#8,
    host := ⟨[.read 0x28#6], []⟩ }

theorem heldByDout_decode : decode heldByDout.cmdr = .instr (.decBits 1 0x0000#16) := by decide +kernel

theorem heldByEout_decode : decode heldByEout.cmdr = .instr .encFlush := by decide +kernel

theorem heldByDout_length : heldByDout.dout.length = Config.doutDepth := List.length_replicate

theorem heldByEout_length : heldByEout.eout.length = Config.eoutDepth := List.length_replicate

/-- A full DOUT has no room for the symbol the bit may emit. -/
theorem heldByDout_held : heldByDout.heldCmdr = true := by
  rw [State.heldCmdr_instr heldByDout_decode, held_decBits_iff, heldByDout_length]
  exact Nat.lt_succ_self _

/-- A full EOUT has no room for the byte the flush may push. -/
theorem heldByEout_held : heldByEout.heldCmdr = true := by
  rw [State.heldCmdr_instr heldByEout_decode, held_encFlush_iff, heldByEout_length]
  exact Nat.lt_succ_self _

/-- One symbol less in DOUT is room for the one the bit may emit. -/
theorem heldByDout_lifted : ∃ t, step heldByDout = .next t ∧ t.engineEnabled = true := by
  refine ⟨_, step_read_dout (a := 0x24#6) rfl rfl, State.engineEnabled_of_decoded rfl heldByDout_decode ?_⟩
  rw [← Bool.not_eq_true, held_decBits_iff, State.receive_dout, List.length_tail, heldByDout_length]
  have hdepth := doutDepth_ge
  omega

/-- One byte less in EOUT is room for the one the flush may push. -/
theorem heldByEout_lifted : ∃ t, step heldByEout = .next t ∧ t.engineEnabled = true := by
  refine ⟨_, step_read_eout (a := 0x28#6) rfl rfl, State.engineEnabled_of_decoded rfl heldByEout_decode ?_⟩
  rw [← Bool.not_eq_true, held_encFlush_iff, State.receive_eout, List.length_tail, heldByEout_length]
  have hdepth := eoutDepth_ge
  omega

/-- Settles O14: the pop, the empty read, that no other step shortens DOUT, and a hold that a pop lifts. -/
theorem doutReadPops : Obligations.DoutReadPops := by
  refine ⟨fun s a x q => step_read_dout_cons, fun s a => step_read_dout_nil, fun _ _ => step_shrinks_dout, ?_⟩
  obtain ⟨t, hs, he⟩ := heldByDout_lifted
  exact ⟨heldByDout, t, 0x24#6, rfl, rfl, rfl, heldByDout_held, hs, he⟩

/-- Settles O15: the pop, the empty read, that no other step shortens EOUT, and a hold that a pop lifts. -/
theorem eoutReadPops : Obligations.EoutReadPops := by
  refine ⟨fun s a x q => step_read_eout_cons, fun s a => step_read_eout_nil, fun _ _ => step_shrinks_eout, ?_⟩
  obtain ⟨t, hs, he⟩ := heldByEout_lifted
  exact ⟨heldByEout, t, 0x28#6, rfl, rfl, rfl, heldByEout_held, hs, he⟩

/-! ### Reads of the other words -/

/-- Address bits 1 and 0 are ignored (R41). -/
theorem wordOffset_eq (a : PortAddr) : wordOffset a = 4 * (a.toNat / 4) := by
  have ha := a.isLt
  simp only [wordOffset, wordIndex, BitVec.extractLsb'_toNat, Nat.shiftRight_eq_div_pow]
  omega

theorem step_read_plain {s : State} {a : PortAddr} (ht : s.turn = .read a) (h4 : wordOffset a ≠ 0x24)
    (h8 : wordOffset a ≠ 0x28) : step s = .next (s.popTurn.receive (readValue a s)) := by
  rw [step_read ht]
  rcases hostRead_cases a s.popTurn with ⟨ha, -⟩ | ⟨ha, -⟩ | ⟨-, -, h⟩
  · exact absurd ha h4
  · exact absurd ha h8
  · exact congrArg _ h

/-- The unmapped words read as 0 (R42). -/
theorem readValue_unmapped {a : PortAddr} (s : State) (ha : 0x2C ≤ wordOffset a) :
    readValue a s = 0x00000000#32 := by
  unfold readValue
  split
  case h_12 => rfl
  all_goals omega

/-- The views and the two bits between them and ERR (R15). -/
theorem State.status_views (s : State) :
    s.status.getLsbD 0 = s.cmdPend ∧ s.status.getLsbD 1 = s.decActive ∧ s.status.getLsbD 2 = s.encActive ∧
      s.status.getLsbD 3 = s.rootValid ∧ s.status.getLsbD 4 = s.doutAvail ∧ s.status.getLsbD 5 = s.eoutAvail ∧
      s.status.getLsbD 6 = false ∧ s.status.getLsbD 7 = false := by
  simp only [State.status_bit]
  simp

/-- From bit 8 on STATUS is ERR, with zeros above it (R15). -/
theorem State.status_bit_of_ge (s : State) {i : Nat} (hi : 8 ≤ i) : s.status.getLsbD i = s.err.getLsbD (i - 8) := by
  have hne : ∀ k < 8, i ≠ k := by omega
  rw [State.status_bit]
  by_cases h32 : i < 32
  · simp [hne, h32, hi]
  · have hz : s.err.getLsbD (i - 8) = false := BitVec.getLsbD_of_ge _ _ (by omega)
    simp [hne, hz]

theorem State.status_errBit (s : State) (e : ErrCause) : s.status.getLsbD e.bitNo = s.hasErr e :=
  s.status_bit_of_ge e.bitNo_bounds.1

theorem State.status_bit_of_ge_16 (s : State) {i : Nat} (hi : 16 ≤ i) : s.status.getLsbD i = false := by
  rw [s.status_bit_of_ge (by omega)]
  exact BitVec.getLsbD_of_ge _ _ (by omega)

theorem toNat_zext32 {w : Nat} (v : BitVec w) (hw : w ≤ 32) : (zext32 v).toNat = v.toNat :=
  BitVec.toNat_setWidth_of_le hw

/-- PCNT stands above the 8 bits of PBUF in PACK (R42). -/
theorem State.pack_toNat (s : State) : s.pack.toNat = 256 * s.pcnt.toNat + s.pbuf.toNat := by
  have hp := s.pcnt.isLt
  have hb := s.pbuf.isLt
  have hs : (zext32 s.pcnt <<< 8).toNat = s.pcnt.toNat <<< 8 := by
    rw [BitVec.toNat_shiftLeft, toNat_zext32 _ (by decide), Nat.shiftLeft_eq]
    omega
  rw [State.pack, BitVec.toNat_or, hs, toNat_zext32 _ (by decide), ← Nat.shiftLeft_add_eq_or_of_lt hb,
    Nat.shiftLeft_eq]
  omega

/-- Settles O13: the word a read returns is `readValue`, row by row of R42. -/
theorem plainReadsReturnTheirRegister : Obligations.PlainReadsReturnTheirRegister := by
  refine ⟨wordOffset_eq, fun s a ht h4 h8 => ⟨readValue a s, step_read_plain ht h4 h8, ?status, ?cmd, ?root, ?cur,
    ?decNbits, ?decNsyms, ?encNbits, ?encNsyms, ?pack, readValue_unmapped s⟩⟩
  case status =>
    intro ha
    have hv : readValue a s = s.status := by simp only [readValue, ha]
    obtain ⟨hpend, hdec, henc, hroot, hdout, heout, h6, h7⟩ := s.status_views
    rw [hv]
    exact ⟨hpend, hdec, henc, hroot, hdout, heout, h6, h7, s.status_errBit, fun i => s.status_bit_of_ge_16⟩
  case root =>
    intro ha
    simp only [readValue, ha]
    exact toNat_zext32 s.root (by decide)
  case cur =>
    intro ha
    simp only [readValue, ha]
    exact toNat_zext32 s.cur (by decide)
  case pack =>
    intro ha
    simp only [readValue, ha]
    exact s.pack_toNat
  case cmd | decNbits | decNsyms | encNbits | encNsyms =>
    intro ha
    simp only [readValue, ha]

/-! ### Writes -/

theorem step_write_status {s : State} {a : PortAddr} {v : Word} (ht : s.turn = .write a v)
    (ha : wordOffset a = 0x00) : step s = .next (s.popTurn.clearErrs (v.extractLsb' 8 8)) := by
  rw [step_write ht]
  rcases hostWrite_cases a v s.popTurn with ⟨-, h⟩ | ⟨h4, -⟩ | ⟨h4, -⟩ | ⟨h0, -⟩
  · rw [h]
  · omega
  · omega
  · exact absurd ha h0

theorem step_write_cmd_accepted {s : State} {a : PortAddr} {v : Word} (ht : s.turn = .write a v)
    (ha : wordOffset a = 0x04) (hp : s.cmdPend = false) :
    step s = .next { s.popTurn with cmdr := v, cmdPend := true } := by
  rw [step_write ht]
  rcases hostWrite_cases a v s.popTurn with ⟨h0, -⟩ | ⟨-, hp', -⟩ | ⟨-, -, h⟩ | ⟨-, h4, -⟩
  · omega
  · exact absurd (hp'.symm.trans hp) nofun
  · rw [h]
  · exact absurd ha h4

theorem step_write_cmd_overflow {s : State} {a : PortAddr} {v : Word} (ht : s.turn = .write a v)
    (ha : wordOffset a = 0x04) (hp : s.cmdPend = true) : step s = .next (s.popTurn.setErr .cmdOvf) := by
  rw [step_write ht]
  rcases hostWrite_cases a v s.popTurn with ⟨h0, -⟩ | ⟨-, -, h⟩ | ⟨-, hp', -⟩ | ⟨-, h4, -⟩
  · omega
  · rw [h]
  · exact absurd (hp'.symm.trans hp) nofun
  · exact absurd ha h4

theorem step_write_ignored {s : State} {a : PortAddr} {v : Word} (ht : s.turn = .write a v)
    (h0 : wordOffset a ≠ 0x00) (h4 : wordOffset a ≠ 0x04) : step s = .next s.popTurn := by
  rw [step_write ht]
  rcases hostWrite_cases a v s.popTurn with ⟨ha, -⟩ | ⟨ha, -⟩ | ⟨ha, -⟩ | ⟨-, -, h⟩
  · exact absurd ha h0
  · exact absurd ha h4
  · exact absurd ha h4
  · rw [h]

/-- The error bit a written STATUS word addresses is the word's bit of the cause's number (R46). -/
theorem statusField_bit (v : Word) (e : ErrCause) : (v.extractLsb' 8 8).getLsbD (e.bitNo - 8) = v.getLsbD e.bitNo := by
  obtain ⟨hlo, hhi⟩ := e.bitNo_bounds
  have h8 : e.bitNo - 8 < 8 := by omega
  simp [h8, Nat.add_sub_cancel' hlo]

theorem State.clearErrs_zero (s : State) : s.clearErrs 0x00#8 = s := by
  have h : s.err &&& ~~~0x00#8 = s.err := BitVec.and_allOnes
  rw [State.clearErrs, h]

/-- Settles O16: a write by the word it names and, at CMD, by CMD_PEND. -/
theorem hostWritesDoWhatTheMapSays : Obligations.HostWritesDoWhatTheMapSays := by
  refine ⟨fun s a v ht ha => ?status, fun s a v ht ha => ⟨step_write_cmd_accepted ht ha, ?overflow, ?illegal⟩,
    fun s a v => step_write_ignored⟩
  case status =>
    refine ⟨_, step_write_status ht ha, rfl, fun e => ?_, ?_⟩
    · rw [State.hasErr_clearErrs, statusField_bit, State.hasErr_popTurn]
    · rintro rfl
      exact s.popTurn.clearErrs_zero
  case overflow =>
    intro hp
    refine ⟨_, step_write_cmd_overflow ht ha hp, rfl, fun e => ?_⟩
    rw [State.hasErr_setErr, State.hasErr_popTurn]
  case illegal =>
    intro why t hp hd h hte
    rw [step_write_cmd_accepted ht ha hp] at h
    cases h
    exact ⟨_, step_illegal hte rfl hd, by simp⟩

end Sys2Proof.Machine
end

section
/-! The decoder and the encoder (30_encoding.md R70 to R82): the rows of R81 exclude each other, a word's bits are its
row's pattern and its fields, and what no row covers is ILLEGAL. -/

namespace Sys2Proof.Machine

/-! ### The rows exclude each other -/

/-- Two rows differ in a bit that both masks name (R81). -/
theorem encodingRows_pairwise_differ :
    encodingRows.Pairwise fun r r' => r.pattern &&& r'.mask ≠ r'.pattern &&& r.mask := by decide

theorem covers_iff {r : EncodingRow} {w : Word} : r.covers w = true ↔ w &&& r.mask = r.pattern := beq_iff_eq

/-- Two rows that cover a word agree in every bit that both masks name. -/
theorem patterns_agree_of_covers {r r' : EncodingRow} {w : Word} (h : r.covers w = true) (h' : r'.covers w = true) :
    r.pattern &&& r'.mask = r'.pattern &&& r.mask := by
  rw [← covers_iff.1 h, ← covers_iff.1 h', BitVec.and_assoc, BitVec.and_assoc, BitVec.and_comm r.mask]

theorem row_unique {r r' : EncodingRow} {w : Word} (hr : r ∈ encodingRows) (hr' : r' ∈ encodingRows)
    (h : r.covers w = true) (h' : r'.covers w = true) : r = r' := by
  have hsymm : Std.Symm fun x y : EncodingRow => x.pattern &&& y.mask ≠ y.pattern &&& x.mask := ⟨fun _ _ h => h.symm⟩
  by_contra hne
  exact encodingRows_pairwise_differ.forall hr hr' hne (patterns_agree_of_covers h h')

/-! ### Decoding by a row -/

theorem decode_of_covers {r : EncodingRow} {w : Word} (hr : r ∈ encodingRows) (h : r.covers w = true) :
    decode w = .instr (r.operands w) := by
  unfold decode
  cases hf : encodingRows.find? (fun r => r.covers w) with
  | none => exact absurd h (List.find?_eq_none.1 hf r hr)
  | some r' =>
    have hc : r'.covers w = true := List.find?_some (p := fun r : EncodingRow => r.covers w) hf
    rw [row_unique hr (List.mem_of_find?_eq_some hf) h hc]

theorem decode_of_not_covered {w : Word} (h : ∀ r ∈ encodingRows, r.covers w = false) :
    decode w = .illegal (illegalClass w) := by
  unfold decode
  rw [List.find?_eq_none.2 fun r hr => by simp [h r hr]]

/-- A word is covered by a row of R81, or ILLEGAL. -/
theorem decode_cases (w : Word) :
    (∃ r ∈ encodingRows, r.covers w = true ∧ decode w = .instr (r.operands w)) ∨
      ((∀ r ∈ encodingRows, r.covers w = false) ∧ decode w = .illegal (illegalClass w)) := by
  by_cases h : ∃ r ∈ encodingRows, r.covers w = true
  · obtain ⟨r, hr, hc⟩ := h
    exact .inl ⟨r, hr, hc, decode_of_covers hr hc⟩
  · have hnone : ∀ r ∈ encodingRows, r.covers w = false := by simpa using h
    exact .inr ⟨hnone, decode_of_not_covered hnone⟩

/-- Settles O3: the row that covers a word is unique, so the search of `decode` finds it. -/
theorem noWordMatchesTwoRows : Obligations.NoWordMatchesTwoRows := fun _ _ hr hc =>
  ⟨decode_of_covers hr hc, fun _ hr' hc' => congrArg EncodingRow.mnemonic (row_unique hr' hr hc' hc)⟩

/-- The word of every command is covered by a row that reads the command back. -/
theorem rowReadsBack (i : Instr) : Laws.RowReadsBack.Statement i := by
  cases i with
  | nop => exact Laws.RowReadsBack.nop
  | srst => exact Laws.RowReadsBack.srst
  | treeInt idx left right => exact Laws.RowReadsBack.treeInt idx left right
  | treeLeaf idx sym => exact Laws.RowReadsBack.treeLeaf idx sym
  | rootSet idx => exact Laws.RowReadsBack.rootSet idx
  | rootClr => exact Laws.RowReadsBack.rootClr
  | codeLen sym len => exact Laws.RowReadsBack.codeLen sym len
  | codeBits sym chunk data => exact Laws.RowReadsBack.codeBits sym chunk data
  | decStart => exact Laws.RowReadsBack.decStart
  | decBits n data => exact Laws.RowReadsBack.decBits n data
  | decEnd => exact Laws.RowReadsBack.decEnd
  | encStart => exact Laws.RowReadsBack.encStart
  | encSym sym => exact Laws.RowReadsBack.encSym sym
  | encFlush => exact Laws.RowReadsBack.encFlush

/-- Settles O1: the row that reads the command back is the row by which its word decodes. -/
theorem decodeOfEncode : Obligations.DecodeOfEncode := by
  intro i hw
  obtain ⟨r, hr, hc, ho⟩ := rowReadsBack i
  rw [decode_of_covers hr hc, ho hw]

/-! ### Words from their fields -/

/-- The bits of a word that its field of `n` bits from bit `lo` takes. -/
def fieldMask (lo n : Nat) : Word := zext32 (BitVec.allOnes n) <<< lo

/-- A field, put back at its place, is the word's bits there. -/
theorem field_shiftLeft (w : Word) (lo n : Nat) : zext32 (field w lo n) <<< lo = w &&& fieldMask lo n := by
  ext k hk
  by_cases h : k < lo
  · simp [field, fieldMask, zext32, h]
  · simp [field, fieldMask, zext32, h, hk, Nat.add_sub_cancel' (Nat.le_of_not_gt h), Bool.and_comm]

/-- A field at bit 0 needs no shift. -/
theorem zext32_field_zero (w : Word) (n : Nat) : zext32 (field w 0 n) = w &&& fieldMask 0 n := by
  rw [← field_shiftLeft, BitVec.shiftLeft_zero]

/-- A word that a row covers is the row's pattern with the bits the row leaves free. -/
theorem pattern_or_free {r : EncodingRow} {w : Word} (hc : r.covers w = true) {free : Word}
    (hfree : r.mask ||| free = BitVec.allOnes 32) : r.pattern ||| (w &&& free) = w := by
  rw [← covers_iff.1 hc, ← BitVec.and_or_distrib_left, hfree, BitVec.and_allOnes]

/-- A word covered by a row that leaves no bit free is the row's pattern. -/
theorem pattern_of_covers {r : EncodingRow} {w : Word} (hc : r.covers w = true) (hm : r.mask = BitVec.allOnes 32) :
    r.pattern = w := by
  rw [← covers_iff.1 hc, hm, BitVec.and_allOnes]

theorem decBits_wellFormed_of_field (f : BitVec 4) (data : BitVec 16) :
    (Instr.decBits (f.toNat + 1) data).wellFormed = true := by
  have := f.isLt
  simp only [Instr.wellFormed, Bool.and_eq_true, decide_eq_true_eq]
  omega

/-- The command a row reads from a word it covers is well formed, and the word is that command's: its fields, put back
at their places, are the bits the row leaves free. -/
theorem encode_operands {r : EncodingRow} (hr : r ∈ encodingRows) {w : Word} (hc : r.covers w = true) :
    (r.operands w).wellFormed = true ∧ encode (r.operands w) = w := by
  simp only [encodingRows, controlRows, sessionRows, List.cons_append, List.nil_append, List.mem_cons,
    List.not_mem_nil, or_false] at hr
  rcases hr with rfl | rfl | rfl | rfl | rfl | rfl | rfl | rfl | rfl | rfl | rfl | rfl | rfl | rfl
  · exact ⟨rfl, pattern_of_covers hc rfl⟩
  · exact ⟨rfl, pattern_of_covers hc rfl⟩
  · refine ⟨rfl, .trans ?_ (pattern_or_free hc (free := fieldMask 18 9 ||| (fieldMask 9 9 ||| fieldMask 0 9)) rfl)⟩
    simp only [encode, field_shiftLeft, zext32_field_zero, BitVec.or_assoc, BitVec.and_or_distrib_left]
  · refine ⟨rfl, .trans ?_ (pattern_or_free hc (free := fieldMask 18 9 ||| fieldMask 0 8) rfl)⟩
    simp only [encode, field_shiftLeft, zext32_field_zero, BitVec.or_assoc, BitVec.and_or_distrib_left]
  · refine ⟨rfl, .trans ?_ (pattern_or_free hc (free := fieldMask 0 9) rfl)⟩
    simp only [encode, zext32_field_zero]
  · exact ⟨rfl, pattern_of_covers hc rfl⟩
  · refine ⟨rfl, .trans ?_ (pattern_or_free hc (free := fieldMask 20 8 ||| fieldMask 12 8) rfl)⟩
    simp only [encode, field_shiftLeft, BitVec.or_assoc, BitVec.and_or_distrib_left]
  · refine ⟨rfl, .trans ?_ (pattern_or_free hc (free := fieldMask 20 8 ||| (fieldMask 16 4 ||| fieldMask 0 16)) rfl)⟩
    simp only [encode, field_shiftLeft, zext32_field_zero, BitVec.or_assoc, BitVec.and_or_distrib_left]
  · exact ⟨rfl, pattern_of_covers hc rfl⟩
  · refine ⟨decBits_wellFormed_of_field .., ?_⟩
    refine .trans ?_ (pattern_or_free hc (free := fieldMask 16 4 ||| fieldMask 0 16) rfl)
    simp only [encode, Nat.add_sub_cancel, BitVec.ofNat_toNat, BitVec.setWidth_eq, field_shiftLeft, zext32_field_zero,
      BitVec.or_assoc, BitVec.and_or_distrib_left]
  · exact ⟨rfl, pattern_of_covers hc rfl⟩
  · exact ⟨rfl, pattern_of_covers hc rfl⟩
  · refine ⟨rfl, .trans ?_ (pattern_or_free hc (free := fieldMask 0 8) rfl)⟩
    simp only [encode, zext32_field_zero]
  · exact ⟨rfl, pattern_of_covers hc rfl⟩

/-- Settles O2: only the row that covers a word can have answered, and every row is inverted by the encoder. -/
theorem encodeOfDecode : Obligations.EncodeOfDecode := by
  intro w i h
  rcases decode_cases w with ⟨r, hr, hc, hd⟩ | ⟨-, hd⟩ <;> rw [hd] at h <;> cases h
  exact encode_operands hr hc

/-! ### ILLEGAL words -/

/-- OPC, the field of R72. -/
abbrev opcode (w : Word) : BitVec 4 := field w 28 4

theorem field_of_shiftLeft {lo n : Nat} (h : lo + n ≤ 32) (c : BitVec n) : field (zext32 c <<< lo) lo n = c := by
  ext k hk
  have hbit : lo + k < 32 := by omega
  simp [field, zext32, hbit, hk]

theorem field_eq_iff {w : Word} {lo n : Nat} (h : lo + n ≤ 32) (c : BitVec n) :
    field w lo n = c ↔ w &&& fieldMask lo n = zext32 c <<< lo := by
  rw [← field_shiftLeft]
  refine ⟨fun hc => by rw [hc], fun hc => ?_⟩
  rw [← field_of_shiftLeft h (field w lo n), hc, field_of_shiftLeft h]

/-- Fields that do not overlap have no bit in common. -/
theorem fieldMask_and_fieldMask {klo kn lo n : Nat} (h : lo + n ≤ klo) :
    fieldMask klo kn &&& fieldMask lo n = 0#32 := by
  ext k hk
  by_cases hlo : k < klo
  · simp [fieldMask, zext32, hlo]
  · have : ¬ k - lo < n := by omega
    simp [fieldMask, zext32, this]

theorem and_or_eq_iff {w a b p : Word} (hp : p &&& a = p) (hab : a &&& b = 0#32) :
    w &&& (a ||| b) = p ↔ w &&& a = p ∧ w &&& b = 0#32 := by
  constructor
  · intro h
    have ha : (a ||| b) &&& a = a := by
      ext k
      simp [Bool.and_or_distrib_right]
    have hb : (a ||| b) &&& b = b := by
      ext k
      simp [Bool.and_or_distrib_right]
    have hpb : p &&& b = 0#32 := by rw [← hp, BitVec.and_assoc, hab, BitVec.and_zero]
    constructor
    · rw [← ha, ← BitVec.and_assoc, h, hp]
    · rw [← hb, ← BitVec.and_assoc, h, hpb]
  · rintro ⟨h, h'⟩
    rw [BitVec.and_or_distrib_left, h, h', BitVec.or_zero]

/-- A row whose mask is a key field and a reserved field below it covers the words with that key and the reserved field
at 0. -/
theorem covers_iff_key {r : EncodingRow} {w : Word} {klo kn : Nat} (c : BitVec kn) (lo n : Nat)
    (hk : klo + kn ≤ 32) (hr : lo + n ≤ klo) (hm : r.mask = fieldMask klo kn ||| fieldMask lo n)
    (hp : r.pattern = zext32 c <<< klo) :
    r.covers w = true ↔ field w klo kn = c ∧ field w lo n = 0#n := by
  have hkey := (field_eq_iff hk c).1 (field_of_shiftLeft hk c)
  rw [covers_iff, hm, hp, field_eq_iff hk, field_eq_iff (by omega), and_or_eq_iff hkey (fieldMask_and_fieldMask hr)]
  simp

/-- The five bits that key the tree and root rows are OPC and bit 27 (R73 to R75). -/
theorem field_eq_append (w : Word) : field w 27 5 = opcode w ++ BitVec.ofBool (w.getLsbD 27) := by
  ext k hk
  rw [BitVec.getElem_append]
  by_cases h : k = 0
  · simp [field, h]
  · have hk' : 28 + (k - 1) = 27 + k := by omega
    simp [field, h, hk']

theorem field_eq_append_iff {w : Word} (o : BitVec 4) (b : Bool) :
    field w 27 5 = o ++ BitVec.ofBool b ↔ opcode w = o ∧ w.getLsbD 27 = b := by
  rw [field_eq_append]
  generalize opcode w = o'
  generalize w.getLsbD 27 = b'
  decide +revert

theorem opcode_cases (o : BitVec 4) :
    o = 0#4 ∨ o = 1#4 ∨ o = 2#4 ∨ o = 3#4 ∨ o = 4#4 ∨ o = 5#4 ∨ o = 6#4 ∨ o = 7#4 ∨ o = 8#4 ∨ o = 9#4 ∨ o = 10#4 ∨
      o = 11#4 ∨ o = 12#4 ∨ o = 13#4 ∨ o = 14#4 ∨ o = 15#4 := by decide +revert

/-- R81 row by row: the words a row covers are those with its key and with its reserved field at 0 (R72 to R79). -/
theorem covered_iff_key (w : Word) :
    (∃ r ∈ encodingRows, r.covers w = true) ↔
      (opcode w = 0#4 ∧ field w 0 28 = 0#28) ∨
      (opcode w = 1#4 ∧ field w 0 28 = 0#28) ∨
      (field w 27 5 = 2#4 ++ BitVec.ofBool false ∧ field w 0 0 = 0#0) ∨
      (field w 27 5 = 2#4 ++ BitVec.ofBool true ∧ field w 8 10 = 0#10) ∨
      (field w 27 5 = 3#4 ++ BitVec.ofBool false ∧ field w 9 18 = 0#18) ∨
      (field w 27 5 = 3#4 ++ BitVec.ofBool true ∧ field w 0 27 = 0#27) ∨
      (opcode w = 4#4 ∧ field w 0 12 = 0#12) ∨
      (opcode w = 5#4 ∧ field w 0 0 = 0#0) ∨
      (opcode w = 6#4 ∧ field w 0 28 = 0#28) ∨
      (opcode w = 7#4 ∧ field w 20 8 = 0#8) ∨
      (opcode w = 8#4 ∧ field w 0 28 = 0#28) ∨
      (opcode w = 9#4 ∧ field w 0 28 = 0#28) ∨
      (opcode w = 10#4 ∧ field w 8 20 = 0#20) ∨
      (opcode w = 11#4 ∧ field w 0 28 = 0#28) := by
  simp only [encodingRows, controlRows, sessionRows, List.cons_append, List.nil_append, List.mem_cons,
    List.not_mem_nil, or_false, exists_eq_or_imp, exists_eq_left]
  iterate 13 refine or_congr (covers_iff_key _ _ _ (by decide) (by decide) rfl rfl) ?_
  exact covers_iff_key _ _ _ (by decide) (by decide) rfl rfl

/-- The words that rows cover are those with a defined opcode and no reserved bit set, opcode by opcode. -/
theorem covered_iff (w : Word) :
    (∃ r ∈ encodingRows, r.covers w = true) ↔ opcode w < 12#4 ∧ ¬ reservedBitsSet w := by
  rw [covered_iff_key]
  simp only [field_eq_append_iff, reservedBitsSet, show w.extractLsb' 28 4 = opcode w from rfl]
  generalize opcode w = o
  generalize w.getLsbD 27 = b
  rcases opcode_cases o with
    rfl | rfl | rfl | rfl | rfl | rfl | rfl | rfl | rfl | rfl | rfl | rfl | rfl | rfl | rfl | rfl
  -- Opcodes 2 and 3 have two rows each, told apart by bit 27.
  case inr.inr.inl | inr.inr.inr.inl => cases b <;> simp [field]
  all_goals simp [field]

/-- Only defined opcodes have formats with reserved bits. -/
theorem opcode_of_reservedBitsSet {w : Word} (h : reservedBitsSet w) : opcode w < 12#4 := by
  revert h
  simp only [reservedBitsSet, show w.extractLsb' 28 4 = opcode w from rfl]
  generalize opcode w = o
  rcases opcode_cases o with
    rfl | rfl | rfl | rfl | rfl | rfl | rfl | rfl | rfl | rfl | rfl | rfl | rfl | rfl | rfl | rfl <;>
    simp

/-- The two classes of R82: the class is read off OPC, and a word of neither class is covered. -/
theorem decode_illegal_iff (w : Word) :
    (decode w = .illegal .reservedOpcode ↔ 12#4 ≤ opcode w) ∧
      (decode w = .illegal .reservedBits ↔ reservedBitsSet w) := by
  have hcov := covered_iff w
  have hopc := opcode_of_reservedBitsSet (w := w)
  have hclass : illegalClass w = if 12#4 ≤ opcode w then .reservedOpcode else .reservedBits := rfl
  rcases decode_cases w with ⟨r, hr, hc, hd⟩ | ⟨hnone, hd⟩
  · obtain ⟨hlt, hres⟩ := hcov.1 ⟨r, hr, hc⟩
    simp [hd, hres, BitVec.not_le.2 hlt]
  · have hnot : ¬ (opcode w < 12#4 ∧ ¬ reservedBitsSet w) := fun h => by
      obtain ⟨r, hr, hc⟩ := hcov.2 h
      exact absurd ((hnone r hr).symm.trans hc) Bool.false_ne_true
    by_cases ho : 12#4 ≤ opcode w
    · have hres : ¬ reservedBitsSet w := fun h => BitVec.not_le.2 (hopc h) ho
      simp [hd, hclass, ho, hres]
    · have hres : reservedBitsSet w := by_contra fun h => hnot ⟨BitVec.not_le.1 ho, h⟩
      simp [hd, hclass, ho, hres]

/-- Settles O4: R82's two classes, and the step that an ILLEGAL word's execution is. -/
theorem illegalWordsRaiseIllegalCmd : Obligations.IllegalWordsRaiseIllegalCmd := by
  refine ⟨decode_illegal_iff, fun s why ht hp hd => ⟨_, step_illegal ht hp hd, rfl, fun e => ?_⟩⟩
  rw [State.hasErr_setErr, State.hasErr_takeCommand, State.hasErr_popTurn]

/-- Settles O5: a command's word by the round trip, an ILLEGAL word by its class. -/
theorem decodesWordsOfTheSpec : Obligations.DecodesWordsOfTheSpec :=
  ⟨decodeOfEncode .nop rfl, decodeOfEncode (.treeInt 5#9 3#9 4#9) rfl, decodeOfEncode (.treeLeaf 511#9 0xFF#8) rfl,
    decodeOfEncode (.codeBits 0x43#8 0#4 0x8000#16) rfl, decodeOfEncode (.decBits 16 0x6E8A#16) rfl,
    decodeOfEncode (.encSym 0x42#8) rfl, (decode_illegal_iff _).2.2 ⟨rfl, by decide⟩,
    (decode_illegal_iff _).1.2 (by decide)⟩

end Sys2Proof.Machine
end

section
/-! The assembler's commands (30_encoding.md R90): a mnemonic and operands assemble to a command exactly where they are
how the command is written. -/

namespace Sys2Proof.Machine

theorem fit_toNat {w : Nat} (v : BitVec w) : fit w v.toNat = some v := by
  rw [fit, if_pos v.isLt, BitVec.ofNat_toNat, BitVec.setWidth_eq]

/-- The operand that fits a field is the field's number. -/
theorem fit_eq_some_iff {w n : Nat} {v : BitVec w} : fit w n = some v ↔ n = v.toNat := by
  refine ⟨fun h => ?_, fun h => h ▸ fit_toNat v⟩
  unfold fit at h
  split at h
  case isTrue hn =>
    cases h
    exact (Nat.mod_eq_of_lt hn).symm
  case isFalse => cases h

theorem assembleCommand_asmForm {i : Instr} (hw : i.wellFormed = true) :
    assembleCommand (asmForm i).1 (asmForm i).2 = some i := by
  cases i with
  | decBits n data =>
    simp only [Instr.wellFormed, Bool.and_eq_true, decide_eq_true_eq] at hw
    simp [asmForm, assembleCommand, fit_toNat, hw]
  | _ => simp [asmForm, assembleCommand, fit_toNat]

/-- Where the assembler answers, each operand is the number of the field it fits, so the command is written so. -/
theorem asmForm_of_assembleCommand {m : String} {ops : List AsmOperand} {i : Instr}
    (h : assembleCommand m ops = some i) : i.wellFormed = true ∧ asmForm i = (m, ops) := by
  unfold assembleCommand at h
  split at h
  case h_1 | h_2 | h_6 | h_9 | h_11 | h_12 | h_14 =>
    cases h
    exact ⟨rfl, rfl⟩
  case h_15 => cases h
  case h_10 =>
    split at h
    case isTrue hn =>
      obtain ⟨d, hd, hi⟩ := Option.bind_eq_some_iff.1 h
      cases hi
      exact ⟨by simp [Instr.wellFormed, hn], by rw [fit_eq_some_iff.1 hd]; rfl⟩
    case isFalse => cases h
  all_goals
    simp only [bind, Option.bind_eq_some_iff, fit_eq_some_iff, pure, Option.some.injEq] at h
  case h_5 | h_13 =>
    obtain ⟨_, rfl, rfl⟩ := h
    exact ⟨rfl, rfl⟩
  case h_4 | h_7 =>
    obtain ⟨_, rfl, _, rfl, rfl⟩ := h
    exact ⟨rfl, rfl⟩
  case h_3 | h_8 =>
    obtain ⟨_, rfl, _, rfl, _, rfl, rfl⟩ := h
    exact ⟨rfl, rfl⟩

/-- Settles O46: what the assembler takes is how a command is written, and it takes every command so written. -/
theorem assemblerTakesExactlyTheSyntax : Obligations.AssemblerTakesExactlyTheSyntax := by
  intro m ops i
  refine ⟨asmForm_of_assembleCommand, ?_⟩
  rintro ⟨hw, hform⟩
  have h := assembleCommand_asmForm hw
  rwa [hform] at h

end Sys2Proof.Machine
end

section
/-! Words as numbers, and the bits that the data words of DEC_BITS and CODE_BITS carry, first bit in bit 15
(30_encoding.md R88, R89, R91). -/

namespace Sys2Proof.Machine

/-! ### A word as the sum of its fields -/

/-- A field put where the word has zeros adds its number at its place. -/
theorem toNat_or_field {a : Word} {lo n : Nat} {v : BitVec n} (hn : lo + n ≤ 32) (ha : a.toNat % 2 ^ (lo + n) = 0) :
    (a ||| zext32 v <<< lo).toNat = a.toNat + v.toNat * 2 ^ lo := by
  have hv : v.toNat * 2 ^ lo < 2 ^ (lo + n) := by
    rw [Nat.mul_comm, Nat.pow_add]
    exact Nat.mul_lt_mul_of_pos_left v.isLt (Nat.two_pow_pos lo)
  have h32 : v.toNat * 2 ^ lo < 2 ^ 32 := hv.trans_le (Nat.pow_le_pow_right Nat.two_pos hn)
  have hfield : (zext32 v <<< lo).toNat = v.toNat * 2 ^ lo := by
    rw [BitVec.toNat_shiftLeft, Nat.shiftLeft_eq, toNat_zext32 v (by omega), Nat.mod_eq_of_lt h32]
  obtain ⟨k, hk⟩ := Nat.dvd_of_mod_eq_zero ha
  rw [BitVec.toNat_or, hfield, hk, Nat.two_pow_add_eq_or_of_lt hv]

/-- The same of a field at bit 0. -/
theorem toNat_or_zext32 {a : Word} {n : Nat} {v : BitVec n} (hn : n ≤ 32) (ha : a.toNat % 2 ^ n = 0) :
    (a ||| zext32 v).toNat = a.toNat + v.toNat := by
  have h := toNat_or_field (a := a) (v := v) (lo := 0) (by omega) (by simpa using ha)
  simpa using h

theorem encode_codeBits_toNat (c : Symbol) (chunk : BitVec 4) (data : BitVec 16) :
    (encode (.codeBits c chunk data)).toNat = 0x50000000 + c.toNat * 2 ^ 20 + chunk.toNat * 2 ^ 16 + data.toNat := by
  have hc : (0x50000000#32 ||| zext32 c <<< 20).toNat = 0x50000000 + c.toNat * 2 ^ 20 :=
    toNat_or_field (by decide) (by decide)
  have hk : (0x50000000#32 ||| zext32 c <<< 20 ||| zext32 chunk <<< 16).toNat =
      0x50000000 + c.toNat * 2 ^ 20 + chunk.toNat * 2 ^ 16 := by
    rw [toNat_or_field (by decide) (by rw [hc]; omega), hc]
  rw [encode, toNat_or_zext32 (by decide) (by rw [hk]; omega), hk]

theorem encode_decBits_toNat {n : Nat} (data : BitVec 16) (hlo : 1 ≤ n) (hhi : n ≤ 16) :
    (encode (.decBits n data)).toNat = 0x70000000 + (n - 1) * 2 ^ 16 + data.toNat := by
  have hn : (BitVec.ofNat 4 (n - 1)).toNat = n - 1 := Nat.mod_eq_of_lt (by omega)
  have hc : (0x70000000#32 ||| zext32 (BitVec.ofNat 4 (n - 1)) <<< 16).toNat = 0x70000000 + (n - 1) * 2 ^ 16 := by
    rw [toNat_or_field (by decide) (by decide), hn]
    rfl
  rw [encode, toNat_or_zext32 (by decide) (by rw [hc]; omega), hc]

/-! ### DATA of DEC_BITS -/

/-- Bit `j` that a DEC_BITS delivers is DATA[15 - j] (R88). -/
theorem dataBits_getElem (n : Nat) (data : BitVec 16) (j : Nat) (hj : j < (dataBits n data).length) :
    (dataBits n data)[j] = data.getLsbD (15 - j) := by
  simp [dataBits]

/-- The bits delivered are the first `n` of DATA, so they depend on no other bit. -/
theorem dataBits_congr {n : Nat} {data data' : BitVec 16} (hn : n ≤ 16)
    (h : ∀ j, j < n → data.getLsbD (15 - j) = data'.getLsbD (15 - j)) : dataBits n data = dataBits n data' := by
  apply List.ext_getElem
  · rw [dataBits_length hn, dataBits_length hn]
  · intro j hj hj'
    rw [dataBits_length hn] at hj
    rw [dataBits_getElem, dataBits_getElem, h j hj]

/-- What `n + m` bits deliver is what `n` bits and then, of DATA shifted up by `n`, `m` bits deliver. -/
theorem dataBits_add {n m : Nat} (data : BitVec 16) (h : n + m ≤ 16) :
    dataBits (n + m) data = dataBits n data ++ dataBits m (data <<< n) := by
  apply List.ext_getElem
  · rw [List.length_append, dataBits_length h, dataBits_length (by omega), dataBits_length (by omega)]
  · intro j hj hj'
    rw [dataBits_length h] at hj
    rw [dataBits_getElem, List.getElem_append]
    split
    case isTrue hlt => rw [dataBits_getElem]
    case isFalse hge =>
      rw [dataBits_length (by omega)] at hge
      have hbit : ¬ 15 - (j - n) < n := by omega
      have hj16 : 15 - (j - n) < 16 := by omega
      have hidx : 15 - (j - n) - n = 15 - j := by omega
      simp only [dataBits_getElem, dataBits_length (show n ≤ 16 by omega), BitVec.getLsbD_shiftLeft, hj16, hbit, hidx,
        decide_true, decide_false, Bool.not_false, Bool.true_and]

/-! ### DATA of the pseudo-commands -/

/-- The loop that writes bit `f j` to position `w - 1 - j`, for `j` below `n`. -/
theorem getLsbD_foldl_setBit {w : Nat} (f : Nat → Bool) (v : BitVec w) {n j : Nat} (hj : j < w) (hn : n ≤ w) :
    ((List.range n).foldl (fun d j => setBit d (w - 1 - j) (f j)) v).getLsbD (w - 1 - j) =
      if j < n then f j else v.getLsbD (w - 1 - j) := by
  induction n with
  | zero => simp
  | succ n ih =>
    rw [List.range_succ, List.foldl_append, List.foldl_cons, List.foldl_nil, getLsbD_setBit _ _ _ _ (by omega),
      ih (by omega)]
    by_cases h : j = n
    · simp [h]
    · rw [if_neg (by omega)]
      exact if_congr (by omega) rfl rfl

/-- DATA[15 - j] of chunk `k` is character `16 k + j` of the string, or 0 past its end (R91). -/
theorem chunkData_getLsbD (c : List Bool) (k : Nat) {j : Nat} (hj : j < 16) :
    (chunkData c k).getLsbD (15 - j) = c.getD (16 * k + j) false :=
  (getLsbD_foldl_setBit (w := 16) _ 0#16 hj le_rfl).trans (if_pos hj)

/-- Chunk `k` of a DEC_STREAM delivers the characters of the string from `16 k` on, at most 16. -/
theorem dataBits_chunkData (c : List Bool) (k : Nat) :
    dataBits (min 16 (c.length - 16 * k)) (chunkData c k) = (c.drop (16 * k)).take 16 := by
  apply List.ext_getElem
  · rw [dataBits_length (Nat.min_le_left ..), List.length_take, List.length_drop]
  · intro j hj hj'
    rw [dataBits_length (Nat.min_le_left ..)] at hj
    rw [dataBits_getElem, chunkData_getLsbD c k (by omega), List.getElem_take, List.getElem_drop,
      List.getD_eq_getElem _ _ (by omega)]

theorem flatMap_range_take_drop {α : Type} (c : List α) (size m : Nat) :
    (List.range m).flatMap (fun k => (c.drop (size * k)).take size) = c.take (size * m) := by
  induction m with
  | zero => simp
  | succ m ih => rw [List.range_succ, List.flatMap_append, ih, List.flatMap_singleton, Nat.mul_succ, List.take_add]

/-- Settles O47: the chunks of 16 characters, one after the other, are the string. -/
theorem decStreamDeliversTheString : Obligations.DecStreamDeliversTheString := by
  refine fun c => ⟨?bits, by simp [decStreamCommands, chunkCount], fun i hi => ?wellFormed⟩
  case bits =>
    simp only [decStreamCommands, List.flatMap_map, dataBits_chunkData, flatMap_range_take_drop]
    exact List.take_of_length_le (by rw [chunkCount]; omega)
  case wellFormed =>
    obtain ⟨k, hk, rfl⟩ := List.mem_map.1 hi
    have hlt : k < chunkCount c := List.mem_range.1 hk
    rw [chunkCount] at hlt
    refine ⟨?_, _, _, rfl⟩
    simp only [Instr.wellFormed, Bool.and_eq_true, decide_eq_true_eq]
    omega

end Sys2Proof.Machine
end

section
/-! The code table by commands: the 16 positions CODE_BITS writes (41_control_load.md R127), and the code that CODE_WR
stores (30_encoding.md R91). -/

namespace Sys2Proof.Machine

/-! ### The positions of a chunk -/

theorem getElem_foldl_setIfInBounds (f : Nat → Bool) (bits : Vector Bool 255) (lo n p : Nat) (hp : p < 255) :
    ((List.range n).foldl (fun v j => v.setIfInBounds (lo + j) (f j)) bits)[p] =
      if lo ≤ p ∧ p < lo + n then f (p - lo) else bits[p] := by
  induction n with
  | zero => rw [if_neg (by omega)]; rfl
  | succ n ih =>
    rw [List.range_succ, List.foldl_append, List.foldl_cons, List.foldl_nil, Vector.getElem_setIfInBounds hp, ih]
    by_cases h : lo + n = p
    · rw [if_pos h, if_pos (by omega), ← h, Nat.add_sub_cancel_left]
    · rw [if_neg h]
      exact if_congr (by omega) rfl rfl

/-- The 16 positions of a chunk hold DATA from bit 15 down, the others what they held (R89). -/
theorem writeChunk_getElem (bits : Vector Bool 255) (chunk : BitVec 4) (data : BitVec 16) {p : Nat} (hp : p < 255) :
    (writeChunk bits chunk data)[p] =
      if p / 16 = chunk.toNat then data.getLsbD (15 - (p - 16 * chunk.toNat)) else bits[p] :=
  (getElem_foldl_setIfInBounds (fun j => data.getLsbD (15 - j)) bits (16 * chunk.toNat) 16 p hp).trans
    (if_congr (by omega) rfl rfl)

/-! ### CODE_BITS -/

theorem execCodeBits_of_none {s : State} {c : Symbol} (chunk : BitVec 4) (data : BitVec 16) (h : s.codeAt c = none) :
    exec (.codeBits c chunk data) s = .next s := by
  simp [exec, execCodeBits, h]

theorem execCodeBits_of_some {s : State} {c : Symbol} {e : CodeEntry} (chunk : BitVec 4) (data : BitVec 16)
    (h : s.codeAt c = some e) :
    exec (.codeBits c chunk data) s = .next (s.writeCode c { e with bits := writeChunk e.bits chunk data }) := by
  simp [exec, execCodeBits, h]

theorem State.codeAt_writeCode_same (s : State) (c : Symbol) (e : CodeEntry) : (s.writeCode c e).codeAt c = some e := by
  rw [State.codeAt_writeCode, if_pos rfl]

theorem State.codeAt_writeCode_other (s : State) {c d : Symbol} (e : CodeEntry) (h : d ≠ c) :
    (s.writeCode c e).codeAt d = s.codeAt d := by
  rw [State.codeAt_writeCode, if_neg h]

/-- Settles O26: an invalid entry is left alone, a valid one gets the chunk's positions. -/
theorem codeBitsWriteTheirChunk : Obligations.CodeBitsWriteTheirChunk := by
  refine ⟨fun s c chunk data h => ?invalid, fun s c chunk data e h => ?valid, encode_codeBits_toNat⟩
  case invalid => exact execCodeBits_of_none chunk data (by simpa [State.codeValid] using h)
  case valid =>
    refine ⟨_, { e with bits := writeChunk e.bits chunk data }, execCodeBits_of_some chunk data h, rfl,
      State.codeAt_writeCode_same .., rfl, fun j hj hp => ?_, fun p hp hne => ?_,
      fun d hd => s.codeAt_writeCode_other _ hd⟩
    · rw [writeChunk_getElem _ _ _ hp, if_pos (by omega), Nat.add_sub_cancel_left]
    · rw [writeChunk_getElem _ _ _ hp, if_neg hne]

/-! ### CODE_WR -/

/-- A second write of an entry replaces the first. -/
theorem Memory.write_write {α : Type} (m : Memory α) (i : Nat) (u v : α) : (m.write i u).write i v = m.write i v := by
  induction m with
  | nil => simp [Memory.write]
  | cons p m ih =>
    obtain ⟨j, x⟩ := p
    rcases Nat.lt_trichotomy i j with h | h | h
    · simp [Memory.write, h]
    · simp [Memory.write, h]
    · simp [Memory.write, h.not_gt, h.ne', ih]

theorem State.writeCode_writeCode (s : State) (c : Symbol) (d e : CodeEntry) :
    (s.writeCode c d).writeCode c e = s.writeCode c e := by
  simp only [State.writeCode, Memory.write_write]

/-- The entry's bits after the CODE_BITS of the given chunks of a string (R91). -/
def chunkedBits (c : List Bool) (ks : List Nat) (bits : Vector Bool 255) : Vector Bool 255 :=
  ks.foldl (fun v k => writeChunk v (BitVec.ofNat 4 k) (chunkData c k)) bits

/-- CODE_BITS commands on a valid entry write their chunks, one after the other, and nothing else. -/
theorem execAll_codeBits (s : State) (sym : Symbol) (c : List Bool) (ks : List Nat) (e : CodeEntry) :
    execAll (ks.map fun k => .codeBits sym (BitVec.ofNat 4 k) (chunkData c k)) (s.writeCode sym e) =
      .next (s.writeCode sym { e with bits := chunkedBits c ks e.bits }) := by
  induction ks generalizing e with
  | nil => rfl
  | cons k ks ih =>
    rw [List.map_cons, execAll, execCodeBits_of_some _ _ (s.codeAt_writeCode_same sym e)]
    simp only [State.writeCode_writeCode, ih, chunkedBits, List.foldl_cons]

/-- The first `m` chunks hold the string's first `16 m` characters. -/
theorem chunkedBits_getElem (c : List Bool) (bits : Vector Bool 255) {m : Nat} (hm : m ≤ 16) {p : Nat} (hp : p < 255) :
    (chunkedBits c (List.range m) bits)[p] = if p < 16 * m then c.getD p false else bits[p] := by
  induction m with
  | zero => simp [chunkedBits]
  | succ m ih =>
    have hk : (BitVec.ofNat 4 m).toNat = m := Nat.mod_eq_of_lt (by omega)
    have hlast : chunkedBits c (List.range (m + 1)) bits =
        writeChunk (chunkedBits c (List.range m) bits) (BitVec.ofNat 4 m) (chunkData c m) := by
      simp [chunkedBits, List.range_succ]
    rw [hlast, writeChunk_getElem _ _ _ hp, hk, ih (by omega)]
    by_cases h : p / 16 = m
    · rw [if_pos h, if_pos (by omega), chunkData_getLsbD _ _ (by omega), Nat.add_sub_cancel' (by omega)]
    · rw [if_neg h]
      exact if_congr (by omega) rfl rfl

/-- The entry that CODE_WR leaves. -/
def writtenEntry (c : List Bool) : CodeEntry :=
  ⟨BitVec.ofNat 8 c.length, chunkedBits c (List.range (chunkCount c)) (Vector.replicate 255 false)⟩

theorem codeString_writtenEntry {c : List Bool} (hc : c.length ≤ 255) : (writtenEntry c).codeString = c := by
  have hlen : (writtenEntry c).len.toNat = c.length := Nat.mod_eq_of_lt (by omega)
  apply List.ext_getElem
  · rw [codeString_length, hlen]
  · intro p hp hpc
    have hcount : chunkCount c ≤ 16 := by rw [chunkCount]; omega
    have hchunk : p < 16 * chunkCount c := by rw [chunkCount]; omega
    have hbit := chunkedBits_getElem c (Vector.replicate 255 false) hcount (show p < 255 by omega)
    rw [if_pos hchunk, List.getD_eq_getElem _ _ hpc] at hbit
    simpa [CodeEntry.codeString, writtenEntry] using hbit

theorem execAll_codeWrite (s : State) (sym : Symbol) {c : List Bool} (hlo : 1 ≤ c.length) (hhi : c.length ≤ 255) :
    execAll (codeWrite sym c) s = .next (s.writeCode sym (writtenEntry c)) := by
  have hlen : BitVec.ofNat 8 c.length ≠ 0#8 := by
    intro h
    have := congrArg BitVec.toNat h
    simp only [BitVec.toNat_ofNat] at this
    omega
  rw [codeWrite, execAll, show exec (.codeLen sym (BitVec.ofNat 8 c.length)) s = _ from if_neg hlen]
  exact execAll_codeBits s sym c _ _

/-- Settles O48: CODE_LEN clears the entry's bits and the chunks of CODE_BITS fill them. -/
theorem codeWriteStoresTheString : Obligations.CodeWriteStoresTheString := fun s sym _ hlo hhi =>
  ⟨_, _, execAll_codeWrite s sym hlo hhi, rfl, s.codeAt_writeCode_same .., codeString_writtenEntry hhi,
    fun _ hd => s.codeAt_writeCode_other _ hd⟩

end Sys2Proof.Machine
end

section
/-! DEC_BITS (43_decoder.md R162): what it answers outside and inside a session, and that a stream may be split at any
bit. -/

namespace Sys2Proof.Machine

theorem execDecBits_of_active {s : State} (n : Nat) (data : BitVec 16) (ha : s.decActive = true) :
    exec (.decBits n data) s = (walkBits (dataBits n data) s).outcome :=
  congrArg Flow.outcome (if_pos ha)

/-- A walk that goes on leaves the session open and ERR as it was; one that raised has closed it and set its bit. -/
theorem walkBits_session {bs : List Bool} {s : State} (ha : s.decActive = true)
    (hroom : s.dout.length + bs.length ≤ Config.doutDepth) :
    (∃ t, walkBits bs s = .go t ∧ t.decActive = true ∧ t.err = s.err) ∨
    (∃ t, walkBits bs s = .ended t ∧ t.decActive = false ∧
      (t.err = (s.setErr .missingTree).err ∨ t.err = (s.setErr .malformedTree).err)) := by
  rcases walkBits_cases bs s with ⟨c, out, -, -, hw⟩ | ⟨c, out, k, e, -, -, -, he, hw⟩ | ⟨hf, -⟩
  · exact .inl ⟨_, hw, ha, rfl⟩
  · refine .inr ⟨_, hw, rfl, ?_⟩
    rcases he with ⟨rfl, -⟩ | ⟨rfl, -⟩
    · exact .inl rfl
    · exact .inr rfl
  · omega

/-- The second part of a split stream runs only where the first raised nothing. -/
theorem execDecBits_add {s : State} {n m : Nat} (data : BitVec 16) (hnm : n + m ≤ 16) (ha : s.decActive = true)
    (hroom : s.dout.length + n ≤ Config.doutDepth) :
    ∃ t, exec (.decBits n data) s = .next t ∧
      exec (.decBits (n + m) data) s = if t.decActive then exec (.decBits m (data <<< n)) t else .next t := by
  have hlen : (dataBits n data).length = n := dataBits_length (by omega) data
  rw [execDecBits_of_active _ _ ha, execDecBits_of_active _ _ ha, dataBits_add data hnm, walkBits_append]
  rcases walkBits_session ha (hlen.symm ▸ hroom) with ⟨t, hw, ht, -⟩ | ⟨t, hw, ht, -⟩
  · exact ⟨t, by rw [hw]; rfl, by rw [hw, if_pos ht, execDecBits_of_active _ _ ht]; rfl⟩
  · exact ⟨t, by rw [hw]; rfl, by rw [hw, ht]; rfl⟩

/-- Settles O34: DEC_BITS is the walk of the bits DATA delivers. -/
theorem decBitsConsumeBitByBit : Obligations.DecBitsConsumeBitByBit := by
  refine ⟨fun n data => encode_decBits_toNat data, fun s n data ha => ?outside,
    fun s n data hlo hhi ha hroom => ?inside,
    fun s n m data hn hm hnm ha hroom => execDecBits_add data hnm ha (by omega), fun s n data data' hn h => ?ignored⟩
  case outside =>
    obtain ⟨hbits, -⟩ := exec_outside_decode_session ha
    exact ⟨_, hbits n data, rfl, fun e => s.hasErr_setErr _ e⟩
  case inside =>
    have hlen : (dataBits n data).length = n := dataBits_length hhi data
    rw [execDecBits_of_active _ _ ha]
    rcases walkBits_session (bs := dataBits n data) ha (by omega) with ⟨t, hw, ht⟩ | ⟨t, hw, ht⟩
    · exact ⟨t, by rw [hw]; rfl, .inl ht⟩
    · exact ⟨t, by rw [hw]; rfl, .inr ht⟩
  case ignored => simp only [exec, execDecBits, consumeBits, dataBits_congr hn h]

end Sys2Proof.Machine
end

section
/-! Runs of HOST's turns (10_state.md R33, R35, R113): how they follow each other, what it takes to issue a command, and
what a drain of EOUT pops. -/

namespace Sys2Proof.Machine

/-! ### Runs -/

/-- HOST's script is `ts` and then `rest`, and the turns `ts` lead from `s` to `t`. -/
structure Plays (ts rest : List Turn) (s t : State) : Prop where
  before : s.host.script = ts ++ rest
  after : t.host.script = rest
  run : Host.Core.run Sys2Proof.core ts.length s = .next t

theorem run_succ (k : Nat) {s t : State} (h : step s = .next t) :
    Host.Core.run Sys2Proof.core (k + 1) s = Host.Core.run Sys2Proof.core k t := by
  simp only [Host.Core.run, Sys2Proof.core, h]

theorem Plays.nil {rest : List Turn} {s : State} (h : s.host.script = rest) : Plays [] rest s s := ⟨h, h, rfl⟩

theorem Plays.cons {turn : Turn} {ts rest : List Turn} {s t u : State} (hs : s.host.script = turn :: (ts ++ rest))
    (h : step s = .next t) (hp : Plays ts rest t u) : Plays (turn :: ts) rest s u :=
  ⟨hs, hp.after, (run_succ _ h).trans hp.run⟩

theorem run_add (k l : Nat) {s t : State} (h : Host.Core.run Sys2Proof.core k s = .next t) :
    Host.Core.run Sys2Proof.core (l + k) s = Host.Core.run Sys2Proof.core l t := by
  induction k generalizing s with
  | zero =>
    cases h
    rfl
  | succ k ih =>
    cases hs : step s with
    | next s' =>
      rw [run_succ _ hs] at h
      rw [← Nat.add_assoc, run_succ _ hs, ih h]
    | fault f => simp [Host.Core.run, Sys2Proof.core, hs] at h
    | refused r => simp [Host.Core.run, Sys2Proof.core, hs] at h

theorem Plays.append {ts us rest : List Turn} {s t u : State} (h : Plays ts (us ++ rest) s t) (h' : Plays us rest t u) :
    Plays (ts ++ us) rest s u where
  before := by rw [h.before, List.append_assoc]
  after := h'.after
  run := by rw [List.length_append, Nat.add_comm, run_add _ _ h.run, h'.run]

/-- A script run to its end. -/
theorem Plays.runTurns {ts : List Turn} {s t : State} (h : Plays ts [] (s.withScript ts) t) : runTurns ts s = .next t :=
  h.run

/-! ### Issuing a command -/

theorem exec_keeps_host {i : Instr} {s t : State} (h : exec i s = .next t) : t.host = s.host := by
  have hf := exec_frame h
  cases i <;> exact (congrArg State.host hf :)

/-- The state in which a command issued in `s` executes: its word is in CMDR, taken, and `rest` is to come. -/
def State.issued (s : State) (i : Instr) (rest : List Turn) : State :=
  { s.withScript rest with cmdr := encode i, cmdPend := false }

/-- A command that is written to CMD while none is pending, and is not held, is executed in the next turn (R33, R47). -/
theorem plays_issue {i : Instr} {rest : List Turn} {s u : State} (hw : i.wellFormed = true)
    (hs : s.host.script = issue i ++ rest) (hp : s.cmdPend = false) (hh : held i s = false)
    (he : exec i (s.issued i rest) = .next u) : Plays (issue i) rest s u := by
  have hturn : s.turn = .write 0x04#6 (encode i) := by rw [State.turn, hs]; rfl
  have hwrite := step_write_cmd_accepted hturn rfl hp
  have hscript : s.host.script.tail = .engine :: rest := by rw [hs]; rfl
  have hx : State.executing { s.popTurn with cmdr := encode i, cmdPend := true } = some i :=
    State.executing_of_pending (by simp [State.turn, hscript]) rfl (decodeOfEncode i hw) hh
  refine .cons (ts := [.engine]) hs hwrite (.cons (ts := []) hscript ((step_of_executing hx).trans ?_) (.nil ?_))
  · rw [← he]
    congr 1
    simp [State.issued, State.popTurn, State.takeCommand, State.withScript, hscript]
  · rw [exec_keeps_host he]
    rfl

/-! ### Draining EOUT -/

/-- The words that `n` reads of a FIFO return. -/
def popWords : Nat → List Byte → List Word
  | 0, _ => []
  | n + 1, q => fifoWord q :: popWords n q.tail

theorem plays_drainEout (n : Nat) {rest : List Turn} {s : State}
    (hs : s.host.script = List.replicate n (.read 0x28#6) ++ rest) :
    Plays (List.replicate n (.read 0x28#6)) rest s
      { s with eout := s.eout.drop n, host := ⟨rest, s.host.received ++ popWords n s.eout⟩ } := by
  induction n generalizing s with
  | zero =>
    have hend : { s with eout := s.eout.drop 0, host := ⟨rest, s.host.received ++ popWords 0 s.eout⟩ } = s := by
      obtain rfl : s.host.script = rest := hs
      simp [popWords]
    rw [hend]
    exact .nil hs
  | succ n ih =>
    have hturn : s.turn = .read 0x28#6 := by rw [State.turn, hs]; rfl
    have hscript : s.host.script.tail = List.replicate n (.read 0x28#6) ++ rest := by rw [hs]; rfl
    have hrest := ih (s := { s.popTurn with eout := s.eout.tail }.receive (fifoWord s.eout)) hscript
    refine .cons (ts := List.replicate n _) hs (step_read_eout hturn rfl) ?_
    simpa [popWords, State.popTurn, State.withScript, State.receive] using hrest

theorem popped_append (ws vs : List Word) : popped (ws ++ vs) = popped ws ++ popped vs := List.filterMap_append

/-- Only a read of a FIFO that is not empty has VALID set (R44, R45). -/
theorem popped_fifoWord (q : List Byte) : popped [fifoWord q] = q.take 1 := by
  cases q with
  | nil => rfl
  | cons x q =>
    have hvalid : (fifoWord (x :: q)).getLsbD 8 = true := by simp [fifoWord, zext32]
    have hbyte : (fifoWord (x :: q)).extractLsb' 0 8 = x := by
      have hx := x.isLt
      apply BitVec.eq_of_toNat_eq
      rw [BitVec.extractLsb'_toNat, fifoWord_cons, Nat.shiftRight_zero]
      omega
    simp [popped, hvalid, hbyte]

/-- The bytes HOST pops by `n` reads are the first `n` of the FIFO. -/
theorem popped_popWords (n : Nat) (q : List Byte) : popped (popWords n q) = q.take n := by
  induction n generalizing q with
  | zero => rfl
  | succ n ih =>
    rw [popWords, ← List.singleton_append, popped_append, popped_fifoWord, ih]
    cases q <;> simp

end Sys2Proof.Machine
end

section
/-! An encode session whose host drains EOUT (42_encoder.md R144): with each command the bits of the bytes popped and
those the packer holds grow by the command's code. -/

namespace Sys2Proof.Machine

/-! ### One command of a session -/

/-- The turns of one command: issue it, then pop as many bytes as a command can push. -/
abbrev encodeTurn (i : Instr) : List Turn := issue i ++ drainEout

/-- The state after those turns: `u` is what the command left. -/
def State.afterDrain (u : State) (rest : List Turn) : State :=
  { u with eout := [], host := ⟨rest, u.host.received ++ popWords 32 u.eout⟩ }

theorem plays_encodeTurn {i : Instr} {rest : List Turn} {s u : State} (hw : i.wellFormed = true)
    (hs : s.host.script = encodeTurn i ++ rest) (hp : s.cmdPend = false) (hq : s.eout = [])
    (hh : ∀ t : State, t.eout = [] → held i t = false)
    (he : exec i (s.issued i (drainEout ++ rest)) = .next u) (hu : u.eout.length ≤ 32) :
    Plays (encodeTurn i) rest s (u.afterDrain rest) := by
  have hissue : Plays (issue i) (drainEout ++ rest) s u :=
    plays_issue hw (by rw [hs, List.append_assoc]) hp (hh s hq) he
  have hdrain := plays_drainEout 32 hissue.after
  rw [List.drop_of_length_le hu] at hdrain
  exact hissue.append hdrain

theorem roomEout_of_empty {n : Nat} (hn : n ≤ 32) {s : State} (h : s.eout = []) : s.roomEout n = true :=
  (s.roomEout_iff n).2 (by rw [h]; exact (Nat.zero_add n).le.trans (hn.trans eoutDepth_ge))

/-! ### What a session has come to -/

/-- A session is open, no command is pending and HOST has popped every byte. -/
structure State.Drained (s : State) : Prop where
  cmdPend : s.cmdPend = false
  encActive : s.encActive = true
  eout : s.eout = []
  packer : s.packerClear

/-- Between the two states HOST has popped the bytes that, with the bits the packer holds, `bits` have filled; `n`
symbols were counted. -/
structure Encoded (bits : List Bool) (n : Nat) (s t : State) : Prop where
  err : t.err = s.err
  code : t.code = s.code
  encNbits : t.encNbits = s.encNbits + BitVec.ofNat 32 bits.length
  encNsyms : t.encNsyms = s.encNsyms + BitVec.ofNat 32 n
  popped : ∃ words, t.host.received = s.host.received ++ words ∧
    (popped words).flatMap byteBits ++ t.heldBits = s.heldBits ++ bits

theorem Encoded.refl (s : State) : Encoded [] 0 s s where
  err := rfl
  code := rfl
  encNbits := (BitVec.add_zero _).symm
  encNsyms := (BitVec.add_zero _).symm
  popped := ⟨[], by simp, by simp [Machine.popped]⟩

theorem Encoded.trans {bits bits' : List Bool} {n n' : Nat} {s t u : State} (h : Encoded bits n s t)
    (h' : Encoded bits' n' t u) : Encoded (bits ++ bits') (n + n') s u where
  err := h'.err.trans h.err
  code := h'.code.trans h.code
  encNbits := by rw [h'.encNbits, h.encNbits, List.length_append, BitVec.ofNat_add, BitVec.add_assoc]
  encNsyms := by rw [h'.encNsyms, h.encNsyms, BitVec.ofNat_add, BitVec.add_assoc]
  popped := by
    obtain ⟨words, hr, hb⟩ := h.popped
    obtain ⟨words', hr', hb'⟩ := h'.popped
    refine ⟨words ++ words', by rw [hr', hr, List.append_assoc], ?_⟩
    rw [popped_append, List.flatMap_append, List.append_assoc, hb', ← List.append_assoc, hb, List.append_assoc]

/-! ### ENC_SYM in a session -/

/-- ENC_SYM of a symbol with a code appends the code (R142). -/
theorem plays_encSym {c : Symbol} {x : CodeEntry} {rest : List Turn} {s : State} (h : s.Drained)
    (hs : s.host.script = encodeTurn (.encSym c) ++ rest) (hc : s.codeAt c = some x) :
    ∃ t, Plays (encodeTurn (.encSym c)) rest s t ∧ t.Drained ∧ Encoded x.codeString 1 s t := by
  have hheld : ∀ t : State, t.eout = [] → held (.encSym c) t = false := fun t ht => by
    simp [held, roomEout_of_empty le_rfl ht]
  obtain ⟨u, hu⟩ := execEncSym_answers (c := c) (s := s.issued (.encSym c) (drainEout ++ rest))
    (roomEout_of_empty le_rfl h.eout)
  rcases execEncSym_next hu with ⟨ha, -⟩ | ⟨-, hn, -⟩ | ⟨-, x', p, k, new, hc', hk, hlen, hb, hpk, -, hut⟩
  · exact absurd (h.encActive.symm.trans ha) nofun
  · exact absurd (hc.symm.trans hn) nofun
  · obtain rfl : x = x' := Option.some.inj (hc.symm.trans hc')
    have hnew : u.eout = new := by rw [hut]; exact congrArg (· ++ new) h.eout
    have h32 : new.length ≤ 32 := by
      have hx := x.len.isLt
      have hp := pcnt_lt s
      have hpcnt : (s.issued (.encSym c) (drainEout ++ rest)).pcnt = s.pcnt := rfl
      rw [hlen, hpcnt]
      omega
    refine ⟨u.afterDrain rest, plays_encodeTurn rfl hs h.cmdPend h.eout hheld hu (hnew ▸ h32), ?_, ?_⟩
    · subst hut
      exact ⟨rfl, h.encActive, rfl, hpk h.packer⟩
    · have hbits : zext32 x.len = BitVec.ofNat 32 x.codeString.length := by
        rw [codeString_length]
        apply BitVec.eq_of_toNat_eq
        simp
      subst hut
      refine ⟨rfl, rfl, congrArg (s.encNbits + ·) hbits, rfl, popWords 32 (s.eout ++ new), rfl, ?_⟩
      rw [popped_popWords, h.eout, List.nil_append, List.take_of_length_le h32]
      exact hb

/-- The code string of a symbol, empty where it has none. -/
def State.codeOf (s : State) (c : Symbol) : List Bool := ((s.codeAt c).map CodeEntry.codeString).getD []

theorem State.codeOf_congr {s t : State} (h : t.code = s.code) : t.codeOf = s.codeOf := by
  funext c
  simp only [State.codeOf, State.codeAt, h]

theorem State.codeValid_congr {s t : State} (h : t.code = s.code) : t.codeValid = s.codeValid := by
  funext c
  simp only [State.codeValid, State.codeAt, h]

theorem plays_encSyms {S : List Symbol} {rest : List Turn} {s : State} (h : s.Drained)
    (hs : s.host.script = (S.map Instr.encSym).flatMap encodeTurn ++ rest) (hc : ∀ c ∈ S, s.codeValid c = true) :
    ∃ t, Plays ((S.map Instr.encSym).flatMap encodeTurn) rest s t ∧ t.Drained ∧
      Encoded (S.flatMap s.codeOf) S.length s t := by
  induction S generalizing s with
  | nil => exact ⟨s, .nil hs, h, .refl s⟩
  | cons c S ih =>
    obtain ⟨x, hx⟩ := Option.isSome_iff_exists.1 (hc c List.mem_cons_self)
    rw [List.map_cons, List.flatMap_cons, List.append_assoc] at hs
    obtain ⟨t, hplay, ht, henc⟩ := plays_encSym h hs hx
    have hvalid : ∀ d ∈ S, t.codeValid d = true := fun d hd => by
      rw [State.codeValid_congr henc.code]
      exact hc d (List.mem_cons_of_mem c hd)
    obtain ⟨u, hplay', hu, henc'⟩ := ih ht hplay.after hvalid
    refine ⟨u, hplay.append hplay', hu, ?_⟩
    have hbits : (c :: S).flatMap s.codeOf = x.codeString ++ S.flatMap t.codeOf := by
      rw [List.flatMap_cons, State.codeOf_congr henc.code, State.codeOf, hx]
      rfl
    rw [hbits, List.length_cons, Nat.add_comm]
    exact henc.trans henc'

/-! ### ENC_START and ENC_FLUSH -/

theorem plays_encStart {rest : List Turn} {s : State} (hs : s.host.script = encodeTurn .encStart ++ rest)
    (hp : s.cmdPend = false) (hq : s.eout = []) :
    ∃ t, Plays (encodeTurn .encStart) rest s t ∧ t.Drained ∧ t.heldBits = [] ∧ t.code = s.code ∧
      t.err = (s.clearErrs encErrs).err ∧ t.encNbits = 0#32 ∧ t.encNsyms = 0#32 ∧
      ∃ words, t.host.received = s.host.received ++ words ∧ popped words = [] := by
  have hlen : s.eout.length ≤ 32 := by simp [hq]
  have hplay := plays_encodeTurn rfl hs hp hq (fun _ _ => rfl) rfl hlen
  refine ⟨_, hplay, ⟨rfl, rfl, rfl, fun i _ => ?_⟩, rfl, rfl, rfl, rfl, rfl, popWords 32 s.eout, rfl, ?_⟩
  · exact BitVec.getLsbD_zero
  · rw [popped_popWords, hq]
    rfl

/-- Where the packer's low bits are 0, PBUF is the bits held and then zeros (R21). -/
theorem byteBits_pbuf {s : State} (h : s.packerClear) :
    byteBits s.pbuf = s.heldBits ++ List.replicate (8 - s.pcnt.toNat) false := by
  have hp := pcnt_lt s
  apply List.ext_getElem
  · rw [byteBits_length, List.length_append, heldBits_length, List.length_replicate]
    omega
  · intro j hj hj'
    rw [byteBits_length] at hj
    rw [List.getElem_append]
    split
    case isTrue => simp [State.heldBits]
    case isFalse hge =>
      rw [heldBits_length] at hge
      rw [byteBits_getElem, List.getElem_replicate]
      exact h _ (by omega)

theorem plays_encFlush {rest : List Turn} {s : State} (h : s.Drained)
    (hs : s.host.script = encodeTurn .encFlush ++ rest) :
    ∃ t, Plays (encodeTurn .encFlush) rest s t ∧ t.err = s.err ∧ t.encNbits = s.encNbits ∧ t.encNsyms = s.encNsyms ∧
      t.encActive = false ∧ t.eout = [] ∧ t.cmdPend = false ∧
      ∃ words pad, t.host.received = s.host.received ++ words ∧ pad < 8 ∧
        (popped words).flatMap byteBits = s.heldBits ++ List.replicate pad false := by
  have hheld : ∀ t : State, t.eout = [] → held .encFlush t = false := fun t ht => by
    simp [held, roomEout_of_empty (by decide : 1 ≤ 32) ht]
  obtain ⟨u, hu⟩ := execEncFlush_answers (s := s.issued .encFlush (drainEout ++ rest))
    (roomEout_of_empty (by decide : 1 ≤ 32) h.eout)
  rcases execEncFlush_next hu with ⟨ha, -⟩ | ⟨-, hk, rfl⟩ | ⟨-, hk, -, rfl⟩
  · exact absurd (h.encActive.symm.trans ha) nofun
  · have hlen : s.eout.length ≤ 32 := by simp [h.eout]
    have hplay := plays_encodeTurn rfl hs h.cmdPend h.eout hheld hu hlen
    refine ⟨_, hplay, rfl, rfl, rfl, rfl, rfl, rfl, popWords 32 s.eout, 0, rfl, by decide, ?_⟩
    have hk : s.pcnt = 0#3 := hk
    rw [popped_popWords, h.eout]
    simp [State.heldBits, hk]
  · have hlen : (s.eout ++ [s.pbuf]).length ≤ 32 := by simp [h.eout]
    have hplay := plays_encodeTurn rfl hs h.cmdPend h.eout hheld hu hlen
    refine ⟨_, hplay, rfl, rfl, rfl, rfl, rfl, rfl, popWords 32 (s.eout ++ [s.pbuf]), 8 - s.pcnt.toNat, rfl, ?_, ?_⟩
    · have hk : s.pcnt ≠ 0#3 := hk
      bv_omega
    · rw [popped_popWords, h.eout, ← byteBits_pbuf h.packer]
      simp

/-! ### The session -/

theorem length_flatMap_byteBits (bytes : List Byte) : (bytes.flatMap byteBits).length = 8 * bytes.length := by
  simp [List.length_flatMap, Nat.mul_comm]

theorem encodeTurns_eq (S : List Symbol) :
    encodeTurns S = encodeTurn .encStart ++ ((S.map Instr.encSym).flatMap encodeTurn ++ encodeTurn .encFlush) := by
  simp [encodeTurns]

/-- A whole session: ENC_START empties the packer, each ENC_SYM appends its code, ENC_FLUSH fills the last byte up. -/
theorem plays_encodeTurns {S : List Symbol} {s : State} (hp : s.cmdPend = false) (hq : s.eout = [])
    (hc : ∀ c ∈ S, s.codeValid c = true) :
    ∃ t, Plays (encodeTurns S) [] (s.withScript (encodeTurns S)) t ∧ t.err = (s.clearErrs encErrs).err ∧
      t.encNbits = BitVec.ofNat 32 (S.flatMap s.codeOf).length ∧ t.encNsyms = BitVec.ofNat 32 S.length ∧
      t.encActive = false ∧ t.eout = [] ∧ t.cmdPend = false ∧
      ∃ words pad, t.host.received = s.host.received ++ words ∧ pad < 8 ∧
        (popped words).flatMap byteBits = S.flatMap s.codeOf ++ List.replicate pad false := by
  have hturns := encodeTurns_eq S
  rw [← List.append_nil (encodeTurn .encFlush)] at hturns
  obtain ⟨t₁, hplay₁, ht₁, hheld, hcode, herr₁, hnb₁, hns₁, words₁, hr₁, hw₁⟩ :=
    plays_encStart (s := s.withScript (encodeTurns S)) hturns hp hq
  obtain ⟨t₂, hplay₂, ht₂, henc⟩ := plays_encSyms ht₁ hplay₁.after (by rwa [State.codeValid_congr hcode])
  obtain ⟨t, hplay₃, herr, hnb, hns, hact, heout, hpend, words₃, pad, hr₃, hpad, hw₃⟩ :=
    plays_encFlush ht₂ hplay₂.after
  obtain ⟨words₂, hr₂, hw₂⟩ := henc.popped
  have hplay := (hplay₁.append hplay₂).append hplay₃
  rw [List.append_assoc, ← encodeTurns_eq] at hplay
  rw [State.codeOf_congr hcode] at henc hw₂
  refine ⟨t, hplay, herr.trans (henc.err.trans herr₁), ?_, ?_, hact, heout, hpend, words₁ ++ (words₂ ++ words₃), pad, ?_,
    hpad, ?_⟩
  · rw [hnb, henc.encNbits, hnb₁]
    exact BitVec.zero_add _
  · rw [hns, henc.encNsyms, hns₁, BitVec.zero_add]
  · rw [hr₃, hr₂, hr₁, List.append_assoc, List.append_assoc]
    rfl
  · rw [popped_append, popped_append, hw₁, List.nil_append, List.flatMap_append, hw₃, ← List.append_assoc, hw₂, hheld]
    rfl

/-- Settles O31: the session's bytes are the codes and a padding of less than one byte. -/
theorem encodeSessionPacksTheStream : Obligations.EncodeSessionPacksTheStream := by
  rintro s S stream hp hq hc rfl
  obtain ⟨t, hplay, herr, hnb, hns, hact, heout, hpend, words, pad, hr, hpad, hbits⟩ := plays_encodeTurns hp hq hc
  have hdrop : t.host.received.drop s.host.received.length = words := by rw [hr, List.drop_left]
  have hlen : 8 * (popped words).length = (S.flatMap s.codeOf).length + pad := by
    rw [← length_flatMap_byteBits, hbits, List.length_append, List.length_replicate]
  refine ⟨t, hplay.runTurns, ?count, ?bits, by rw [hnb]; rfl, by rw [hns]; rfl, hact, heout, hpend, fun e => ?errors⟩
  case count =>
    rw [hdrop]
    change _ = ((S.flatMap s.codeOf).length + 7) / 8
    omega
  case bits => exact ⟨pad, by rw [hdrop]; exact hbits⟩
  case errors =>
    rw [State.hasErr_congr herr, State.hasErr_clearErrs, encErrs_bit, Bool.not_or, Bool.and_assoc]

end Sys2Proof.Machine
end

section
/-! The frequency table (40_host_reference.md R100): the distinct symbols of a sequence by first occurrence, each with
its count. -/

namespace Sys2Proof.Machine

theorem mem_distinct {s : Symbol} {S : List Symbol} : s ∈ distinct S ↔ s ∈ S := by
  induction S with
  | nil => rfl
  | cons a S ih =>
    simp only [distinct, List.mem_cons, List.mem_filter, ih, decide_eq_true_eq]
    tauto

theorem nodup_distinct (S : List Symbol) : (distinct S).Nodup := by
  induction S with
  | nil => exact List.nodup_nil
  | cons a S ih => exact List.nodup_cons.2 ⟨by simp, ih.filter _⟩

/-- The distinct symbols stand by first occurrence. -/
theorem distinct_pairwise_idxOf (S : List Symbol) : (distinct S).Pairwise fun a b => S.idxOf a < S.idxOf b := by
  have later {a b : Symbol} {S : List Symbol} (h : b ≠ a) : (a :: S).idxOf b = S.idxOf b + 1 :=
    List.idxOf_cons_ne S h.symm
  induction S with
  | nil => exact .nil
  | cons a S ih =>
    refine List.pairwise_cons.2 ⟨fun b hb => ?_, (ih.filter _).imp_of_mem fun {b c} hb hc hbc => ?_⟩
    · have hba : b ≠ a := by simpa using List.of_mem_filter hb
      rw [List.idxOf_cons_self, later hba]
      exact Nat.succ_pos _
    · have hba : b ≠ a := by simpa using List.of_mem_filter hb
      have hca : c ≠ a := by simpa using List.of_mem_filter hc
      rw [later hba, later hca]
      exact Nat.succ_lt_succ hbc

@[simp] theorem map_fst_freq (S : List Symbol) : (freq S).map Prod.fst = distinct S := by
  simp [freq, Function.comp_def]

@[simp] theorem length_freq (S : List Symbol) : (freq S).length = (distinct S).length := List.length_map ..

theorem mem_freq {S : List Symbol} {s : Symbol} {n : Nat} : (s, n) ∈ freq S ↔ s ∈ S ∧ n = S.count s := by
  rw [freq, List.mem_map]
  constructor
  · rintro ⟨a, ha, heq⟩
    obtain ⟨rfl, rfl⟩ := Prod.mk.inj heq
    exact ⟨mem_distinct.1 ha, rfl⟩
  · rintro ⟨hs, rfl⟩
    exact ⟨s, mem_distinct.2 hs, rfl⟩

/-- There are 256 symbols (R7). -/
theorem length_distinct_le (S : List Symbol) : (distinct S).length ≤ 256 := by
  have hnodup : ((distinct S).map BitVec.toNat).Nodup := (nodup_distinct S).map fun _ _ => BitVec.eq_of_toNat_eq
  have hsub : (distinct S).map BitVec.toNat ⊆ List.range 256 := by
    intro n hn
    obtain ⟨s, -, rfl⟩ := List.mem_map.1 hn
    exact List.mem_range.2 s.isLt
  simpa using (hnodup.subperm hsub).length_le

theorem freq_ne_nil {S : List Symbol} (h : S ≠ []) : freq S ≠ [] := by
  obtain ⟨a, S, rfl⟩ := List.exists_cons_of_ne_nil h
  simp [freq, distinct]

/-- Settles O49: the table lists the distinct symbols, which stand by first occurrence. -/
theorem freqCountsOccurrences : Obligations.FreqCountsOccurrences := fun S =>
  ⟨fun _ _ => mem_freq, by rw [map_fst_freq]; exact nodup_distinct S,
    by rw [map_fst_freq]; exact distinct_pairwise_idxOf S, rfl⟩

end Sys2Proof.Machine
end

section
/-! The tree builder (40_host_reference.md R101 to R105): what each round of the merge loop keeps of the collection Q,
and what follows for the tree it ends in. -/

namespace Sys2Proof.Machine

/-- The row of the frequency table that a leaf stands for. -/
def HTree.row : HTree → Option (Symbol × Nat)
  | .leaf _ s w => some (s, w)
  | .node _ _ _ _ => none

@[simp] theorem HTree.row_leaf (q : Nat) (s : Symbol) (w : Nat) : (HTree.leaf q s w).row = some (s, w) := rfl
@[simp] theorem HTree.row_node (q w : Nat) (l r : HTree) : (HTree.node q w l r).row = none := rfl
@[simp] theorem HTree.seq_leaf (q : Nat) (s : Symbol) (w : Nat) : (HTree.leaf q s w).seq = q := rfl
@[simp] theorem HTree.seq_node (q w : Nat) (l r : HTree) : (HTree.node q w l r).seq = q := rfl
@[simp] theorem HTree.nodes_leaf (q : Nat) (s : Symbol) (w : Nat) : (HTree.leaf q s w).nodes = [.leaf q s w] := rfl
@[simp] theorem HTree.nodes_node (q w : Nat) (l r : HTree) :
    (HTree.node q w l r).nodes = .node q w l r :: (l.nodes ++ r.nodes) := rfl

/-- The rows of a tree's leaves, from left to right. -/
def HTree.rows (t : HTree) : List (Symbol × Nat) := t.nodes.filterMap HTree.row

@[simp] theorem HTree.rows_leaf (q : Nat) (s : Symbol) (w : Nat) : (HTree.leaf q s w).rows = [(s, w)] := rfl
@[simp] theorem HTree.rows_node (q w : Nat) (l r : HTree) : (HTree.node q w l r).rows = l.rows ++ r.rows :=
  List.filterMap_append

/-! ### The collection Q as a list -/

theorem insertKey_perm (t : HTree) (q : List HTree) : (insertKey t q).Perm (t :: q) := by
  induction q with
  | nil => exact .refl _
  | cons u q ih =>
    rw [insertKey]
    split
    · exact .refl _
    · exact (ih.cons u).trans (.swap t u q)

theorem foldr_insertKey_perm (ts : List HTree) : (ts.foldr insertKey []).Perm ts := by
  induction ts with
  | nil => exact .refl _
  | cons t ts ih => exact (insertKey_perm t _).trans (ih.cons t)

theorem leavesFrom_nodes (q : Nat) (table : List (Symbol × Nat)) :
    (leavesFrom q table).flatMap HTree.nodes = leavesFrom q table := by
  induction table generalizing q with
  | nil => rfl
  | cons r table ih => simp [leavesFrom, ih]

theorem leavesFrom_seqs (q : Nat) (table : List (Symbol × Nat)) :
    (leavesFrom q table).map HTree.seq = List.range' q table.length := by
  induction table generalizing q with
  | nil => rfl
  | cons r table ih => simp [leavesFrom, ih, List.range'_succ]

theorem leavesFrom_rows (q : Nat) (table : List (Symbol × Nat)) : (leavesFrom q table).filterMap HTree.row = table := by
  induction table generalizing q with
  | nil => rfl
  | cons r table ih => simp [leavesFrom, ih]

theorem length_leavesFrom (q : Nat) (table : List (Symbol × Nat)) : (leavesFrom q table).length = table.length := by
  rw [← List.length_map (f := HTree.seq), leavesFrom_seqs, List.length_range']

theorem weightsAdd_of_mem_leavesFrom {q : Nat} {table : List (Symbol × Nat)} {t : HTree}
    (h : t ∈ leavesFrom q table) : t.weightsAdd = true := by
  induction table generalizing q with
  | nil => cases h
  | cons r table ih =>
    rcases List.mem_cons.1 h with rfl | h
    · rfl
    · exact ih h

/-! ### The merge loop -/

/-- What every round of the merge loop keeps of Q: its nodes are numbered 0 to `seq - 1`, its leaves are the rows of the
table, its weights add up, and one tree left is the node made last. -/
structure Forest (table : List (Symbol × Nat)) (seq : Nat) (Q : List HTree) : Prop where
  weights : ∀ t ∈ Q, t.weightsAdd = true
  seqs : ((Q.flatMap HTree.nodes).map HTree.seq).Perm (List.range seq)
  rows : ((Q.flatMap HTree.nodes).filterMap HTree.row).Perm table
  last : ∀ t, Q = [t] → t.seq + 1 = seq
  count : seq + Q.length = 2 * table.length

theorem Forest.perm {table : List (Symbol × Nat)} {seq : Nat} {Q Q' : List HTree} (h : Forest table seq Q)
    (hp : Q'.Perm Q) : Forest table seq Q' where
  weights t ht := h.weights t (hp.subset ht)
  seqs := ((hp.flatMap_right _).map _).trans h.seqs
  rows := ((hp.flatMap_right _).filterMap _).trans h.rows
  last t ht := h.last t (List.perm_singleton.1 (ht ▸ hp).symm)
  count := hp.length_eq ▸ h.count

theorem Forest.leaves (table : List (Symbol × Nat)) : Forest table table.length (leavesFrom 0 table) where
  weights _ := weightsAdd_of_mem_leavesFrom
  seqs := by rw [leavesFrom_nodes, leavesFrom_seqs, List.range_eq_range']
  rows := by rw [leavesFrom_nodes, leavesFrom_rows]
  last t ht := by
    have hseqs := leavesFrom_seqs 0 table
    have hlen := length_leavesFrom 0 table
    rw [ht] at hseqs hlen
    rw [← hlen] at hseqs ⊢
    simpa using hseqs
  count := by rw [length_leavesFrom, Nat.two_mul]

/-- The nodes of Q after a round are those before it and the new one. -/
theorem merged_nodes (seq w : Nat) (a b : HTree) (q : List HTree) :
    (HTree.node seq w a b :: q).flatMap HTree.nodes = .node seq w a b :: (a :: b :: q).flatMap HTree.nodes := by
  simp

/-- One round: the two trees extracted become the children of a new node (R103, R104). -/
theorem Forest.merge {table : List (Symbol × Nat)} {seq : Nat} {a b : HTree} {q : List HTree}
    (h : Forest table seq (a :: b :: q)) :
    Forest table (seq + 1) (.node seq (a.weight + b.weight) a b :: q) where
  weights t ht := by
    rcases List.mem_cons.1 ht with rfl | ht
    · simp [HTree.weightsAdd, h.weights a (by simp), h.weights b (by simp)]
    · exact h.weights t (by simp [ht])
  seqs := by
    rw [merged_nodes, List.map_cons, List.range_succ]
    exact (h.seqs.cons seq).trans (List.perm_append_singleton seq _).symm
  rows := by
    rw [merged_nodes, List.filterMap_cons_none (HTree.row_node ..)]
    exact h.rows
  last t ht := by
    obtain rfl := (List.cons.inj ht).1
    rfl
  count := by
    have hcount := h.count
    simp only [List.length_cons] at hcount ⊢
    omega

/-- With a round for every tree but one, the loop ends in one tree. -/
theorem Forest.mergeLoop {table : List (Symbol × Nat)} {rounds seq : Nat} {Q : List HTree} (h : Forest table seq Q)
    (hne : Q ≠ []) (hr : Q.length ≤ rounds + 1) :
    ∃ t, mergeLoop rounds seq Q = some t ∧ Forest table (2 * table.length - 1) [t] := by
  induction rounds generalizing seq Q with
  | zero =>
    obtain ⟨t, rfl⟩ := List.length_eq_one_iff.1 (Nat.le_antisymm hr (List.length_pos_iff.2 hne))
    exact ⟨t, rfl, h.count ▸ h⟩
  | succ rounds ih =>
    match Q, hne with
    | [t], _ => exact ⟨t, rfl, h.count ▸ h⟩
    | a :: b :: q, _ =>
      have hperm := insertKey_perm (.node seq (a.weight + b.weight) a b) q
      refine ih (h.merge.perm hperm) (fun hnil => ?_) ?_
      · rw [hnil] at hperm
        exact absurd hperm.symm.eq_nil nofun
      · rw [hperm.length_eq]
        exact Nat.le_of_succ_le_succ hr

/-- What `build` returns, as the last collection Q. -/
theorem build_forest {table : List (Symbol × Nat)} (h : table ≠ []) :
    ∃ t, build table = some t ∧ Forest table (2 * table.length - 1) [t] := by
  have hperm := foldr_insertKey_perm (leavesFrom 0 table)
  have hlen := hperm.length_eq.trans (length_leavesFrom 0 table)
  refine ((Forest.leaves table).perm hperm).mergeLoop (fun hnil => h ?_) (by omega)
  rw [hnil] at hlen
  exact List.eq_nil_of_length_eq_zero hlen.symm

/-- The tree of a table: its leaves are the table's rows, its nodes are numbered from 0 on, the root last. -/
structure BuiltFrom (table : List (Symbol × Nat)) (t : HTree) : Prop where
  weights : t.weightsAdd = true
  seq : t.seq = 2 * table.length - 2
  seqs : (t.nodes.map HTree.seq).Perm (List.range (2 * table.length - 1))
  rows : t.rows.Perm table

theorem build_builtFrom {table : List (Symbol × Nat)} (h : table ≠ []) :
    ∃ t, build table = some t ∧ BuiltFrom table t := by
  obtain ⟨t, hb, hf⟩ := build_forest h
  have hlast := hf.last t rfl
  exact ⟨t, hb, hf.weights t (by simp), by omega, by simpa using hf.seqs, by simpa [HTree.rows] using hf.rows⟩

/-- Settles O50: the collection Q ends in one tree. -/
theorem buildMakesAWeightedTree : Obligations.BuildMakesAWeightedTree := by
  refine ⟨rfl, fun s w => rfl, fun table h => ?_⟩
  obtain ⟨t, hb, ht⟩ := build_builtFrom h
  refine ⟨t, hb, ht.weights, ht.seq, ht.seqs, .trans (.of_eq ?_) ht.rows⟩
  refine List.filterMap_congr fun n _ => ?_
  cases n <;> rfl

end Sys2Proof.Machine
end

section
/-! The code generator (40_host_reference.md R106 to R108): the codes of a tree are for its leaves, one each, and lead
to them from the root. -/

namespace Sys2Proof.Machine

/-! ### The traversal -/

theorem map_fst_pathCodes (path : List Bool) (t : HTree) :
    (pathCodes path t).map Prod.fst = t.rows.map Prod.fst := by
  induction t generalizing path with
  | leaf q s w => rfl
  | node q w l r ihl ihr => simp [pathCodes, ihl, ihr]

/-- A code extends the path to the tree it was found in. -/
theorem prefix_of_mem_pathCodes {path : List Bool} {t : HTree} {p : Symbol × List Bool} (h : p ∈ pathCodes path t) :
    path <+: p.2 := by
  induction t generalizing path with
  | leaf q s w =>
    obtain rfl := List.mem_singleton.1 h
    exact List.prefix_rfl
  | node q w l r ihl ihr =>
    rcases List.mem_append.1 h with h | h
    · exact (List.prefix_append ..).trans (ihl h)
    · exact (List.prefix_append ..).trans (ihr h)

theorem length_rows_pos (t : HTree) : 1 ≤ t.rows.length := by
  induction t with
  | leaf q s w => exact le_rfl
  | node q w l r ihl ihr =>
    rw [HTree.rows_node, List.length_append]
    omega

/-- A path gets longer by at most one bit for each further leaf. -/
theorem length_of_mem_pathCodes {path : List Bool} {t : HTree} {p : Symbol × List Bool} (h : p ∈ pathCodes path t) :
    p.2.length + 1 ≤ path.length + t.rows.length := by
  induction t generalizing path with
  | leaf q s w =>
    obtain rfl := List.mem_singleton.1 h
    exact le_rfl
  | node q w l r ihl ihr =>
    have hl := length_rows_pos l
    have hr := length_rows_pos r
    rw [HTree.rows_node, List.length_append]
    rcases List.mem_append.1 h with h | h
    · have hlen := ihl h
      rw [List.length_append, List.length_singleton] at hlen
      omega
    · have hlen := ihr h
      rw [List.length_append, List.length_singleton] at hlen
      omega

/-- Strings that part after a common path are no prefixes of each other. -/
theorem not_prefix_of_branches {path c c' : List Bool} {b : Bool} (h : path ++ [b] <+: c) (h' : path ++ [!b] <+: c') :
    ¬ c <+: c' := by
  intro hc
  have hsame := List.prefix_of_prefix_length_le (h.trans hc) h' (by simp)
  simp at hsame

theorem pathCodes_prefix_free {path : List Bool} {t : HTree} {p p' : Symbol × List Bool} (h : p ∈ pathCodes path t)
    (h' : p' ∈ pathCodes path t) (hne : p.1 ≠ p'.1) : ¬ p.2 <+: p'.2 := by
  induction t generalizing path with
  | leaf q s w =>
    obtain rfl := List.mem_singleton.1 h
    obtain rfl := List.mem_singleton.1 h'
    exact absurd rfl hne
  | node q w l r ihl ihr =>
    rcases List.mem_append.1 h with h | h <;> rcases List.mem_append.1 h' with h' | h'
    · exact ihl h h'
    · exact not_prefix_of_branches (prefix_of_mem_pathCodes h) (prefix_of_mem_pathCodes h')
    · exact not_prefix_of_branches (prefix_of_mem_pathCodes h) (prefix_of_mem_pathCodes h')
    · exact ihr h h'

/-! ### The code table -/

theorem map_fst_generate (t : HTree) : (generate t).map Prod.fst = t.rows.map Prod.fst := by
  cases t with
  | leaf q s w => rfl
  | node q w l r => exact map_fst_pathCodes [] _

theorem ne_nil_of_mem_generate {t : HTree} {p : Symbol × List Bool} (h : p ∈ generate t) : p.2 ≠ [] := by
  cases t with
  | leaf q s w =>
    obtain rfl := List.mem_singleton.1 h
    exact nofun
  | node q w l r =>
    rcases List.mem_append.1 h with h | h
    · exact (prefix_of_mem_pathCodes h).ne_nil nofun
    · exact (prefix_of_mem_pathCodes h).ne_nil nofun

theorem generate_prefix_free {t : HTree} {p p' : Symbol × List Bool} (h : p ∈ generate t) (h' : p' ∈ generate t)
    (hne : p.1 ≠ p'.1) : ¬ p.2 <+: p'.2 := by
  cases t with
  | leaf q s w =>
    obtain rfl := List.mem_singleton.1 h
    obtain rfl := List.mem_singleton.1 h'
    exact absurd rfl hne
  | node q w l r => exact pathCodes_prefix_free h h' hne

/-- A code is shorter than the number of leaves, or the one bit of a single leaf (R106, R108). -/
theorem length_of_mem_generate {t : HTree} {p : Symbol × List Bool} (h : p ∈ generate t) :
    p.2.length ≤ max 1 (t.rows.length - 1) := by
  cases t with
  | leaf q s w =>
    obtain rfl := List.mem_singleton.1 h
    exact le_rfl
  | node q w l r =>
    have hlen := length_of_mem_pathCodes h
    rw [List.length_nil] at hlen
    omega

/-! ### The codes of a sequence's tree -/

section
variable {S : List Symbol} {t : HTree} (ht : BuiltFrom (freq S) t)
include ht

theorem BuiltFrom.keys_perm : ((generate t).map Prod.fst).Perm (distinct S) := by
  rw [map_fst_generate, ← map_fst_freq]
  exact ht.rows.map _

theorem BuiltFrom.mem_keys {s : Symbol} : s ∈ (generate t).map Prod.fst ↔ s ∈ S :=
  ht.keys_perm.mem_iff.trans mem_distinct

theorem BuiltFrom.nodup_keys : ((generate t).map Prod.fst).Nodup := ht.keys_perm.nodup_iff.2 (nodup_distinct S)

theorem BuiltFrom.length_code {p : Symbol × List Bool} (h : p ∈ generate t) :
    p.2.length ≤ max 1 ((distinct S).length - 1) := by
  have hlen := length_of_mem_generate h
  rwa [ht.rows.length_eq, length_freq] at hlen

/-- CODE_LEN can give every code's length (R126). -/
theorem BuiltFrom.code_bounds {p : Symbol × List Bool} (h : p ∈ generate t) : 1 ≤ p.2.length ∧ p.2.length ≤ 255 := by
  have hlen := ht.length_code h
  have hk := length_distinct_le S
  exact ⟨List.length_pos_iff.2 (ne_nil_of_mem_generate h), by omega⟩

end

theorem build_freq_builtFrom {S : List Symbol} (h : S ≠ []) : ∃ t, build (freq S) = some t ∧ BuiltFrom (freq S) t :=
  build_builtFrom (freq_ne_nil h)

/-- Settles O51: the codes are the paths to the leaves, and two paths to leaves part somewhere. -/
theorem generateIsPrefixFree : Obligations.GenerateIsPrefixFree := by
  intro S hS
  obtain ⟨t, hb, ht⟩ := build_freq_builtFrom hS
  have hk := length_distinct_le S
  refine ⟨t, hb, fun s => ht.mem_keys, ht.nodup_keys, fun p => ne_nil_of_mem_generate,
    fun p hp p' hp' => generate_prefix_free hp hp', fun h2 p hp => ?_, by omega⟩
  have hlen := ht.length_code hp
  omega

end Sys2Proof.Machine
end

section
/-! The reference encoder and decoder (40_host_reference.md R111, R112): what the walk does with one code, and the round
trip in software. -/

namespace Sys2Proof.Machine

/-! ### Looking up a code -/

theorem lookup_eq_some_of_mem {table : CodeTable} (hn : (table.map Prod.fst).Nodup) {s : Symbol} {c : List Bool}
    (h : (s, c) ∈ table) : table.lookup s = some c := by
  induction table with
  | nil => cases h
  | cons p table ih =>
    obtain ⟨hnew, hn⟩ := List.nodup_cons.1 hn
    rcases List.mem_cons.1 h with rfl | h
    · exact List.lookup_cons_self
    · have hne : s ≠ p.1 := by
        rintro rfl
        exact hnew (List.mem_map.2 ⟨_, h, rfl⟩)
      rw [List.lookup_cons, beq_false_of_ne hne]
      exact ih hn h

theorem mem_of_lookup_eq_some {table : CodeTable} {s : Symbol} {c : List Bool} (h : table.lookup s = some c) :
    (s, c) ∈ table := by
  obtain ⟨l₁, l₂, rfl, -⟩ := List.lookup_eq_some_iff.1 h
  simp

/-! ### The encoder -/

/-- Where every symbol has a code, the stream is the codes one after the other (R111). -/
theorem enc_eq_ok {S : List Symbol} {table : CodeTable} {code : Symbol → List Bool}
    (h : ∀ s ∈ S, table.lookup s = some (code s)) : enc S table = .ok (S.flatMap code) := by
  induction S with
  | nil => rfl
  | cons s S ih =>
    rw [enc, h s List.mem_cons_self, ih fun d hd => h d (List.mem_cons_of_mem s hd)]
    rfl

/-! ### The decoder -/

/-- The walk that has just gone down an edge to a node: at a leaf it emits and starts again from the root (R112). -/
def arrive (root : HTree) : HTree → List Bool → List Symbol × HTree
  | .leaf _ s _, bs => (s :: (decFrom root root bs).1, (decFrom root root bs).2)
  | .node q w l r, bs => decFrom root (.node q w l r) bs

@[simp] theorem decFrom_nil (root cur : HTree) : decFrom root cur [] = ([], cur) := by
  cases root <;> cases cur <;> rfl

theorem decFrom_leaf_cons (q : Nat) (s : Symbol) (w : Nat) (cur : HTree) (b : Bool) (bs : List Bool) :
    decFrom (.leaf q s w) cur (b :: bs) = arrive (.leaf q s w) (.leaf q s w) bs := by
  cases cur <;> rfl

theorem decFrom_node_cons (Q W : Nat) (L R : HTree) (q w : Nat) (l r : HTree) (b : Bool) (bs : List Bool) :
    decFrom (.node Q W L R) (.node q w l r) (b :: bs) = arrive (.node Q W L R) (if b then r else l) bs := by
  cases b
  · cases l <;> rfl
  · cases r <;> rfl

/-- A code is a path on to a leaf of its symbol, and the walk of an internal root follows it. -/
theorem arrive_of_mem_pathCodes {Q W : Nat} {L R : HTree} {path code : List Bool} {t : HTree} {s : Symbol}
    (h : (s, code) ∈ pathCodes path t) :
    ∃ c, code = path ++ c ∧
      ∃ q w, ∀ bs, arrive (.node Q W L R) t (c ++ bs) = arrive (.node Q W L R) (.leaf q s w) bs := by
  induction t generalizing path with
  | leaf q s' w =>
    obtain ⟨rfl, rfl⟩ := Prod.mk.inj (List.mem_singleton.1 h)
    exact ⟨[], (List.append_nil _).symm, q, w, fun _ => rfl⟩
  | node q w l r ihl ihr =>
    rcases List.mem_append.1 h with h | h
    · obtain ⟨c, rfl, q', w', hc⟩ := ihl h
      exact ⟨false :: c, by simp, q', w', fun bs => (decFrom_node_cons Q W L R q w l r false _).trans (hc bs)⟩
    · obtain ⟨c, rfl, q', w', hc⟩ := ihr h
      exact ⟨true :: c, by simp, q', w', fun bs => (decFrom_node_cons Q W L R q w l r true _).trans (hc bs)⟩

/-- From the root, a symbol's code emits the symbol and leads back to the root. -/
theorem decFrom_generate {t : HTree} {s : Symbol} {c : List Bool} (h : (s, c) ∈ generate t) (bs : List Bool) :
    decFrom t t (c ++ bs) = (s :: (decFrom t t bs).1, (decFrom t t bs).2) := by
  cases t with
  | leaf q s' w =>
    obtain ⟨rfl, rfl⟩ := Prod.mk.inj (List.mem_singleton.1 h)
    exact decFrom_leaf_cons ..
  | node q w l r =>
    obtain ⟨c', rfl, q', w', hc⟩ := arrive_of_mem_pathCodes (Q := q) (W := w) (L := l) (R := r) h
    exact hc bs

/-- The walk of whole codes emits their symbols and ends at the root. -/
theorem decFrom_flatMap {t : HTree} {S : List Symbol} {code : Symbol → List Bool}
    (h : ∀ s ∈ S, (s, code s) ∈ generate t) : decFrom t t (S.flatMap code) = (S, t) := by
  induction S with
  | nil => exact decFrom_nil t t
  | cons s S ih =>
    rw [List.flatMap_cons, decFrom_generate (h s List.mem_cons_self),
      ih fun d hd => h d (List.mem_cons_of_mem s hd)]

/-! ### The round trip -/

/-- The codes of a sequence's tree, as a function of the symbol. -/
theorem BuiltFrom.exists_code {S : List Symbol} {t : HTree} (ht : BuiltFrom (freq S) t) :
    ∃ code : Symbol → List Bool, ∀ s ∈ S, (s, code s) ∈ generate t := by
  refine ⟨fun s => ((generate t).lookup s).getD [], fun s hs => ?_⟩
  obtain ⟨⟨s, c⟩, hmem, rfl⟩ := List.mem_map.1 (ht.mem_keys.2 hs)
  simpa [lookup_eq_some_of_mem ht.nodup_keys hmem] using hmem

/-- Settles O53: each code of the stream leads from the root to its symbol's leaf. -/
theorem softwareRoundTrip : Obligations.SoftwareRoundTrip := by
  intro S hS
  obtain ⟨t, hb, ht⟩ := build_freq_builtFrom hS
  obtain ⟨code, hcode⟩ := ht.exists_code
  refine ⟨t, S.flatMap code, hb, enc_eq_ok fun s hs => lookup_eq_some_of_mem ht.nodup_keys (hcode s hs), ?_⟩
  rw [dec, decFrom_flatMap hcode, if_pos rfl]

end Sys2Proof.Machine
end

section
/-! Trees in TREE (40_host_reference.md R109): what reading a held tree's indices returns, and that a held tree meets
its root's index only at the root. -/

namespace Sys2Proof.Machine

/-- What TREE holds of a node. -/
def HTree.toNode : HTree → Node
  | .leaf _ s _ => .leaf s
  | .node _ _ l r => .internal l.index r.index

theorem HTree.mem_nodes_self (t : HTree) : t ∈ t.nodes := by cases t <;> exact List.mem_cons_self

/-- The node itself is what a tree adds to the nodes of its children. -/
theorem HTree.mem_nodes_node {n l r : HTree} {q w : Nat} :
    n ∈ (HTree.node q w l r).nodes ↔ n = .node q w l r ∨ n ∈ l.nodes ∨ n ∈ r.nodes := by
  simp

theorem HTree.children_mem {t l r : HTree} {q w : Nat} (h : .node q w l r ∈ t.nodes) : l ∈ t.nodes ∧ r ∈ t.nodes := by
  induction t with
  | leaf => exact absurd (List.mem_singleton.1 h) nofun
  | node q' w' l' r' ihl ihr =>
    simp only [HTree.mem_nodes_node] at h ⊢
    rcases h with h | h | h
    · cases h
      exact ⟨.inr (.inl l.mem_nodes_self), .inr (.inr r.mem_nodes_self)⟩
    · exact (ihl h).imp (.inr ∘ .inl) (.inr ∘ .inl)
    · exact (ihr h).imp (.inr ∘ .inr) (.inr ∘ .inr)

/-- A node below the root of a tree is the root of a smaller tree. -/
theorem HTree.length_nodes_of_mem {t n : HTree} (h : n ∈ t.nodes) : n = t ∨ n.nodes.length < t.nodes.length := by
  induction t with
  | leaf => exact .inl (List.mem_singleton.1 h)
  | node q w l r ihl ihr =>
    rw [HTree.nodes_node, List.length_cons, List.length_append]
    rcases HTree.mem_nodes_node.1 h with h | h | h
    · exact .inl h
    · rcases ihl h with rfl | hlt <;> exact .inr (by omega)
    · rcases ihr h with rfl | hlt <;> exact .inr (by omega)

theorem holdsTree_iff {m : Memory Node} {t : HTree} :
    HoldsTree m t ↔ ∀ n ∈ t.nodes, n.seq < Config.nnodes ∧ m.read n.seq = some n.toNode := by
  induction t with
  | leaf => simp [HoldsTree, HTree.toNode]
  | node q w l r ihl ihr =>
    simp only [HoldsTree, ihl, ihr, HTree.mem_nodes_node, or_imp, forall_and, forall_eq, HTree.seq_node, HTree.toNode]
    tauto

theorem HTree.index_toNat {t : HTree} (h : t.seq < Config.nnodes) : t.index.toNat = t.seq := Nat.mod_eq_of_lt h

section
variable {m : Memory Node} {t : HTree} (ht : HoldsTree m t)
include ht

theorem HoldsTree.of_mem {n : HTree} (h : n ∈ t.nodes) : HoldsTree m n := by
  induction t with
  | leaf =>
    obtain rfl := List.mem_singleton.1 h
    exact ht
  | node q w l r ihl ihr =>
    obtain ⟨-, -, hl, hr⟩ := id ht
    rcases HTree.mem_nodes_node.1 h with rfl | h | h
    · exact ht
    · exact ihl hl h
    · exact ihr hr h

theorem HoldsTree.read_index : m.read t.index.toNat = some t.toNode := by
  obtain ⟨hseq, hread⟩ := holdsTree_iff.1 ht t t.mem_nodes_self
  rw [HTree.index_toNat hseq, hread]

/-- Held trees at one index have one shape. -/
theorem HoldsTree.length_nodes_congr {u : HTree} (hu : HoldsTree m u) (h : u.index = t.index) :
    u.nodes.length = t.nodes.length := by
  induction t generalizing u with
  | leaf =>
    have hnode := hu.read_index
    rw [h, ht.read_index] at hnode
    cases u with
    | leaf => rfl
    | node => exact absurd hnode nofun
  | node q w l r ihl ihr =>
    have hnode := hu.read_index
    rw [h, ht.read_index] at hnode
    cases u with
    | leaf => exact absurd hnode nofun
    | node q' w' l' r' =>
      obtain ⟨hl, hr⟩ := Node.internal.inj (Option.some.inj hnode)
      obtain ⟨-, -, htl, htr⟩ := ht
      obtain ⟨-, -, hul, hur⟩ := hu
      rw [HTree.nodes_node, HTree.nodes_node, List.length_cons, List.length_cons, List.length_append,
        List.length_append, ihl htl hul hl.symm, ihr htr hur hr.symm]

/-- The root's index is no other node's. -/
theorem HoldsTree.eq_root_of_index {n : HTree} (h : n ∈ t.nodes) (hi : n.index = t.index) : n = t := by
  have hlen := ht.length_nodes_congr (ht.of_mem h) hi
  exact (HTree.length_nodes_of_mem h).resolve_right (by omega)

end

end Sys2Proof.Machine
end

section
/-! The walk of a held tree (43_decoder.md R161, R164): DEC_BITS goes where the reference walk of the same bits goes. -/

namespace Sys2Proof.Machine

/-- Where the reference walk can stand: at the root or at an internal node (R112). -/
def WalkPos (root pos : HTree) : Prop := pos = root ∨ pos ∈ root.nodes ∧ ∃ q w l r, pos = .node q w l r

theorem WalkPos.mem_nodes {root pos : HTree} (h : WalkPos root pos) : pos ∈ root.nodes := by
  rcases h with rfl | ⟨h, -⟩
  · exact pos.mem_nodes_self
  · exact h

theorem decFrom_node_leaf (Q W : Nat) (L R : HTree) (q : Nat) (s : Symbol) (w : Nat) (bs : List Bool) :
    decFrom (.node Q W L R) (.leaf q s w) bs = ([], .leaf q s w) := by
  cases bs <;> rfl

/-- The walk of a string goes on with a further string where it stands. -/
theorem decFrom_append (root pos : HTree) (bs cs : List Bool) :
    decFrom root pos (bs ++ cs) =
      ((decFrom root pos bs).1 ++ (decFrom root (decFrom root pos bs).2 cs).1,
        (decFrom root (decFrom root pos bs).2 cs).2) := by
  induction bs generalizing pos with
  | nil => simp
  | cons b bs ih =>
    have harrive (t : HTree) : arrive root t (bs ++ cs) =
        ((arrive root t bs).1 ++ (decFrom root (arrive root t bs).2 cs).1,
          (decFrom root (arrive root t bs).2 cs).2) := by
      cases t with
      | leaf => simp only [arrive, ih, List.cons_append]
      | node => simp only [arrive, ih]
    rw [List.cons_append]
    cases root with
    | leaf => simp only [decFrom_leaf_cons, harrive]
    | node =>
      cases pos with
      | leaf => simp only [decFrom_node_leaf, List.nil_append]
      | node => simp only [decFrom_node_cons, harrive]

/-- The decoder stands in a held tree where the reference walk stands. -/
structure State.StandsAt (s : State) (root pos : HTree) : Prop where
  rootValid : s.rootValid = true
  holds : HoldsTree s.tree root
  root_eq : s.root = root.index
  walkPos : WalkPos root pos
  cur_eq : s.cur = pos.index

/-- What `step_bit` does once it has gone down an edge to a node (R161). -/
def arriveFlow (t : HTree) (s : State) : Flow :=
  match t with
  | .leaf _ sym _ => emitSymbol sym s.countBit
  | .node _ _ _ _ => .go { s.countBit with cur := t.index }

/-- One bit takes the decoder and the reference walk to the same node. -/
theorem stepBit_arrives {s : State} {root pos : HTree} (h : s.StandsAt root pos) (b : Bool) :
    ∃ t ∈ root.nodes, stepBit b s = arriveFlow t s ∧ ∀ bs, decFrom root pos (b :: bs) = arrive root t bs := by
  have hroot : s.nodeAt s.root = some root.toNode := h.root_eq ▸ h.holds.read_index
  have hcur : s.nodeAt s.cur = some pos.toNode := h.cur_eq ▸ (h.holds.of_mem h.walkPos.mem_nodes).read_index
  cases root with
  | leaf q sym w =>
    refine ⟨_, HTree.mem_nodes_self _, ?_, decFrom_leaf_cons q sym w pos b⟩
    simp [stepBit, h.rootValid, hroot, HTree.toNode, arriveFlow]
  | node Q W L R =>
    obtain ⟨q, w, l, r, rfl⟩ : ∃ q w l r, pos = .node q w l r := by
      rcases h.walkPos with rfl | ⟨-, hnode⟩
      · exact ⟨Q, W, L, R, rfl⟩
      · exact hnode
    obtain ⟨hl, hr⟩ := HTree.children_mem h.walkPos.mem_nodes
    have hmem : (if b then r else l) ∈ (HTree.node Q W L R).nodes := by cases b <;> assumption
    have hnext : s.nodeAt (if b then r else l).index = some (if b then r else l).toNode :=
      (h.holds.of_mem hmem).read_index
    have hindex : (if b then r.index else l.index) = (if b then r else l).index := by cases b <;> rfl
    refine ⟨_, hmem, ?_, decFrom_node_cons Q W L R q w l r b⟩
    simp only [stepBit, h.rootValid, hroot, hcur, HTree.toNode, if_true, hindex]
    generalize (if b then r else l) = t at hnext
    cases t with
    | leaf => simp [stepTo, hnext, HTree.toNode, arriveFlow]
    | node => simp [stepTo, hnext, HTree.toNode, arriveFlow]

/-- The state after `n` bits whose reference walk emitted `out` and stands at `pos`. -/
def State.walked (s : State) (n : Nat) (out : List Symbol) (pos : HTree) : State :=
  { s with
    dout := s.dout ++ out, cur := pos.index,
    decNbits := s.decNbits + BitVec.ofNat 32 n, decNsyms := s.decNsyms + BitVec.ofNat 32 out.length }

theorem State.walked_zero {s : State} {pos : HTree} (h : s.cur = pos.index) : s.walked 0 [] pos = s := by
  simp [State.walked, ← h]

theorem State.walked_walked (s : State) (n n' : Nat) (out out' : List Symbol) (pos pos' : HTree) :
    (s.walked n out pos).walked n' out' pos' = s.walked (n + n') (out ++ out') pos' := by
  simp [State.walked, BitVec.ofNat_add, BitVec.add_assoc]

theorem State.StandsAt.walked {s : State} {root pos pos' : HTree} (h : s.StandsAt root pos) (hp : WalkPos root pos')
    (n : Nat) (out : List Symbol) : (s.walked n out pos').StandsAt root pos' :=
  ⟨h.rootValid, h.holds, h.root_eq, hp, rfl⟩

/-- With room for a symbol per bit, a string of bits goes where the reference walk goes (R164). -/
theorem walkBits_eq_decFrom {s : State} {root pos : HTree} (h : s.StandsAt root pos) (bs : List Bool)
    (hroom : s.dout.length + bs.length ≤ Config.doutDepth) :
    WalkPos root (decFrom root pos bs).2 ∧
      walkBits bs s = .go (s.walked bs.length (decFrom root pos bs).1 (decFrom root pos bs).2) := by
  induction bs generalizing s pos with
  | nil =>
    rw [decFrom_nil]
    exact ⟨h.walkPos, by rw [List.length_nil, State.walked_zero h.cur_eq, walkBits]⟩
  | cons b bs ih =>
    rw [List.length_cons] at hroom
    obtain ⟨t, ht, hstep, hdec⟩ := stepBit_arrives h b
    rw [hdec, walkBits, hstep]
    cases t with
    | leaf q sym w =>
      have hroot : WalkPos root root := .inl rfl
      have hemit : arriveFlow (.leaf q sym w) s = .go (s.walked 1 [sym] root) := by
        rcases emitSymbol_cases sym s.countBit with ⟨-, he⟩ | ⟨hfull, -⟩
        · rw [State.walked, ← h.root_eq]
          exact he
        · have hfull : Config.doutDepth ≤ s.dout.length := hfull
          omega
      have hroom' : (s.walked 1 [sym] root).dout.length + bs.length ≤ Config.doutDepth := by
        simp only [State.walked, List.length_append, List.length_singleton]
        omega
      obtain ⟨hp, hw⟩ := ih (h.walked hroot 1 [sym]) hroom'
      rw [hemit, Flow.andThen_go, hw, State.walked_walked, Nat.add_comm]
      exact ⟨hp, rfl⟩
    | node q w l r =>
      have hpos : WalkPos root (.node q w l r) := .inr ⟨ht, q, w, l, r, rfl⟩
      have hmove : arriveFlow (.node q w l r) s = .go (s.walked 1 [] (.node q w l r)) := by
        simp [arriveFlow, State.walked, State.countBit]
      have hroom' : (s.walked 1 [] (.node q w l r)).dout.length + bs.length ≤ Config.doutDepth := by
        simp only [State.walked, List.append_nil]
        omega
      obtain ⟨hp, hw⟩ := ih (h.walked hpos 1 []) hroom'
      rw [hmove, Flow.andThen_go, hw, State.walked_walked, Nat.add_comm]
      exact ⟨hp, rfl⟩

theorem execDecBits_walks {s : State} {root pos : HTree} {n : Nat} (data : BitVec 16) (h : s.StandsAt root pos)
    (ha : s.decActive = true) (hn : n ≤ 16) (hroom : s.dout.length + n ≤ Config.doutDepth) :
    WalkPos root (decFrom root pos (dataBits n data)).2 ∧
      exec (.decBits n data) s =
        .next (s.walked n (decFrom root pos (dataBits n data)).1 (decFrom root pos (dataBits n data)).2) := by
  have hlen : (dataBits n data).length = n := dataBits_length hn data
  obtain ⟨hp, hw⟩ := walkBits_eq_decFrom h (dataBits n data) (hlen.symm ▸ hroom)
  rw [execDecBits_of_active n data ha, hw, hlen]
  exact ⟨hp, rfl⟩

/-- Settles O37: bit by bit, the decoder and the reference walk arrive at the same node. -/
theorem decBitsFollowTheReferenceWalk : Obligations.DecBitsFollowTheReferenceWalk :=
  fun _ _ _ _ data hlo hhi hroom ha hv hholds hroot hpos hcur =>
    (execDecBits_walks data ⟨hv, hholds, hroot, hpos, hcur⟩ ha hhi (by omega)).2

end Sys2Proof.Machine
end

section
/-! A decode session whose host drains DOUT (43_decoder.md R160 to R164): with each command the symbols popped grow by
those the reference walk emits. -/

namespace Sys2Proof.Machine

/-! ### One command of a session -/

/-- The turns of one command: issue it, then pop as many symbols as a command can push. -/
abbrev decodeTurn (i : Instr) : List Turn := issue i ++ drainDout

theorem plays_drainDout (n : Nat) {rest : List Turn} {s : State}
    (hs : s.host.script = List.replicate n (.read 0x24#6) ++ rest) :
    Plays (List.replicate n (.read 0x24#6)) rest s
      { s with dout := s.dout.drop n, host := ⟨rest, s.host.received ++ popWords n s.dout⟩ } := by
  induction n generalizing s with
  | zero =>
    have hend : { s with dout := s.dout.drop 0, host := ⟨rest, s.host.received ++ popWords 0 s.dout⟩ } = s := by
      obtain rfl : s.host.script = rest := hs
      simp [popWords]
    rw [hend]
    exact .nil hs
  | succ n ih =>
    have hturn : s.turn = .read 0x24#6 := by rw [State.turn, hs]; rfl
    have hscript : s.host.script.tail = List.replicate n (.read 0x24#6) ++ rest := by rw [hs]; rfl
    have hrest := ih (s := { s.popTurn with dout := s.dout.tail }.receive (fifoWord s.dout)) hscript
    refine .cons (ts := List.replicate n _) hs (step_read_dout hturn rfl) ?_
    simpa [popWords, State.popTurn, State.withScript, State.receive] using hrest

/-- The state after the turns of a command: `u` is what the command left. -/
def State.afterDrainDout (u : State) (rest : List Turn) : State :=
  { u with dout := [], host := ⟨rest, u.host.received ++ popWords 16 u.dout⟩ }

theorem plays_decodeTurn {i : Instr} {rest : List Turn} {s u : State} (hw : i.wellFormed = true)
    (hs : s.host.script = decodeTurn i ++ rest) (hp : s.cmdPend = false) (hh : held i s = false)
    (he : exec i (s.issued i (drainDout ++ rest)) = .next u) (hu : u.dout.length ≤ 16) :
    Plays (decodeTurn i) rest s (u.afterDrainDout rest) := by
  have hissue : Plays (issue i) (drainDout ++ rest) s u := plays_issue hw (by rw [hs, List.append_assoc]) hp hh he
  have hdrain := plays_drainDout 16 hissue.after
  rw [List.drop_of_length_le hu] at hdrain
  exact hissue.append hdrain

/-! ### What a session has come to -/

/-- A session is open where the reference walk stands at `pos`, no command is pending and HOST has popped every
symbol. -/
structure State.Decoding (s : State) (root pos : HTree) : Prop extends s.StandsAt root pos where
  cmdPend : s.cmdPend = false
  decActive : s.decActive = true
  dout : s.dout = []

/-- Between the two states HOST has popped the symbols `out`, and `n` bits and those symbols were counted. -/
structure Decoded (n : Nat) (out : List Symbol) (s t : State) : Prop where
  encNbits : t.encNbits = s.encNbits
  encNsyms : t.encNsyms = s.encNsyms
  decNbits : t.decNbits = s.decNbits + BitVec.ofNat 32 n
  decNsyms : t.decNsyms = s.decNsyms + BitVec.ofNat 32 out.length
  popped : ∃ words, t.host.received = s.host.received ++ words ∧ popped words = out

theorem Decoded.refl (s : State) : Decoded 0 [] s s where
  encNbits := rfl
  encNsyms := rfl
  decNbits := (BitVec.add_zero _).symm
  decNsyms := (BitVec.add_zero _).symm
  popped := ⟨[], (List.append_nil _).symm, rfl⟩

theorem Decoded.trans {n n' : Nat} {out out' : List Symbol} {s t u : State} (h : Decoded n out s t)
    (h' : Decoded n' out' t u) : Decoded (n + n') (out ++ out') s u where
  encNbits := h'.encNbits.trans h.encNbits
  encNsyms := h'.encNsyms.trans h.encNsyms
  decNbits := by rw [h'.decNbits, h.decNbits, BitVec.ofNat_add, BitVec.add_assoc]
  decNsyms := by rw [h'.decNsyms, h.decNsyms, List.length_append, BitVec.ofNat_add, BitVec.add_assoc]
  popped := by
    obtain ⟨words, hr, hw⟩ := h.popped
    obtain ⟨words', hr', hw'⟩ := h'.popped
    exact ⟨words ++ words', by rw [hr', hr, List.append_assoc], by rw [popped_append, hw, hw']⟩

/-! ### DEC_BITS in a session -/

theorem le_of_decBits_wellFormed {n : Nat} {data : BitVec 16} (h : (Instr.decBits n data).wellFormed = true) :
    n ≤ 16 := by
  simp only [Instr.wellFormed, Bool.and_eq_true, decide_eq_true_eq] at h
  exact h.2

theorem plays_decBits {root pos : HTree} {n : Nat} {data : BitVec 16} {rest : List Turn} {s : State}
    (h : s.Decoding root pos) (hw : (Instr.decBits n data).wellFormed = true)
    (hs : s.host.script = decodeTurn (.decBits n data) ++ rest) :
    ∃ t, Plays (decodeTurn (.decBits n data)) rest s t ∧
      t.Decoding root (decFrom root pos (dataBits n data)).2 ∧ t.err = s.err ∧
      Decoded n (decFrom root pos (dataBits n data)).1 s t := by
  have hn : n ≤ 16 := le_of_decBits_wellFormed hw
  have hroom : s.dout.length + n ≤ Config.doutDepth := by
    rw [h.dout, List.length_nil, Nat.zero_add]
    exact hn.trans doutDepth_ge
  have hheld : held (.decBits n data) s = false := by
    rw [held, (s.roomDout_iff n).2 hroom]
    rfl
  have hissued : (s.issued (.decBits n data) (drainDout ++ rest)).StandsAt root pos :=
    ⟨h.rootValid, h.holds, h.root_eq, h.walkPos, h.cur_eq⟩
  obtain ⟨hpos, hexec⟩ := execDecBits_walks data hissued h.decActive hn hroom
  have hout : (s.dout ++ (decFrom root pos (dataBits n data)).1).length ≤ 16 := by
    obtain ⟨k, out, hk, hlen, hdout, -⟩ := decBitsIsBoundedAndCounted _ _ n data hn hexec
    rw [show s.dout ++ _ = s.dout ++ out from hdout, h.dout, List.nil_append]
    exact hlen.trans (hk.trans hn)
  refine ⟨_, plays_decodeTurn hw hs h.cmdPend hheld hexec hout, ?_, rfl, ?_⟩
  · exact ⟨⟨h.rootValid, h.holds, h.root_eq, hpos, rfl⟩, rfl, h.decActive, rfl⟩
  · refine ⟨rfl, rfl, rfl, rfl, _, rfl, (popped_popWords 16 _).trans ?_⟩
    exact (List.take_of_length_le hout).trans (by rw [h.dout, List.nil_append])

/-- The bits a DEC_BITS delivers. -/
def streamBits : Instr → List Bool
  | .decBits n data => dataBits n data
  | _ => []

/-- DEC_BITS commands, one after the other, walk the bits they deliver. -/
theorem plays_decStream {root pos : HTree} {is : List Instr} {rest : List Turn} {s : State} (h : s.Decoding root pos)
    (hi : ∀ i ∈ is, i.wellFormed = true ∧ ∃ n data, i = .decBits n data)
    (hs : s.host.script = is.flatMap decodeTurn ++ rest) :
    ∃ t, Plays (is.flatMap decodeTurn) rest s t ∧
      t.Decoding root (decFrom root pos (is.flatMap streamBits)).2 ∧ t.err = s.err ∧
      Decoded (is.flatMap streamBits).length (decFrom root pos (is.flatMap streamBits)).1 s t := by
  induction is generalizing s pos with
  | nil =>
    refine ⟨s, .nil hs, ?_⟩
    rw [List.flatMap_nil, decFrom_nil]
    exact ⟨h, rfl, .refl s⟩
  | cons i is ih =>
    obtain ⟨hw, n, data, rfl⟩ := hi _ List.mem_cons_self
    have hlen : (dataBits n data).length = n := dataBits_length (le_of_decBits_wellFormed hw) data
    rw [List.flatMap_cons, List.append_assoc] at hs
    obtain ⟨t, hplay, ht, herr, hdec⟩ := plays_decBits h hw hs
    obtain ⟨u, hplay', hu, herr', hdec'⟩ := ih ht (fun i hmem => hi i (List.mem_cons_of_mem _ hmem)) hplay.after
    refine ⟨u, hplay.append hplay', ?_⟩
    rw [List.flatMap_cons, streamBits, decFrom_append, List.length_append, hlen]
    exact ⟨hu, herr'.trans herr, hdec.trans hdec'⟩

/-! ### DEC_START and DEC_END -/

theorem plays_decStart {root : HTree} {rest : List Turn} {s : State} (hp : s.cmdPend = false) (hq : s.dout = [])
    (hv : s.rootValid = true) (hholds : HoldsTree s.tree root) (hroot : s.root = root.index)
    (hs : s.host.script = decodeTurn .decStart ++ rest) :
    ∃ t, Plays (decodeTurn .decStart) rest s t ∧ t.Decoding root root ∧ t.err = s.clearDecoder.err ∧
      Decoded 0 [] s.clearDecoder t := by
  have hnode : s.nodeAt s.root = some root.toNode := hroot ▸ hholds.read_index
  have hlen : s.dout.length ≤ 16 := by simp [hq]
  have hexec : exec .decStart (s.issued .decStart (drainDout ++ rest)) =
      .next { (s.issued .decStart (drainDout ++ rest)).clearDecoder with cur := s.root, decActive := true } := by
    rcases openWalk_cases (s.issued .decStart (drainDout ++ rest)) with ⟨hf, -⟩ | ⟨-, hn, -⟩ | ⟨n, -, -, he⟩
    · exact absurd (hv.symm.trans hf) nofun
    · exact absurd (hnode.symm.trans hn) nofun
    · exact congrArg Flow.outcome he
  refine ⟨_, plays_decodeTurn rfl hs hp rfl hexec hlen, ?_, rfl, ?_⟩
  · exact ⟨⟨hv, hholds, hroot, .inl rfl, hroot⟩, rfl, rfl, rfl⟩
  · refine ⟨rfl, rfl, (BitVec.add_zero _).symm, (BitVec.add_zero _).symm, popWords 16 s.dout, rfl, ?_⟩
    rw [popped_popWords, hq]
    rfl

/-- ERR after DEC_END: truncated where the walk does not stand at the root (R163). -/
def State.endErr (s : State) (root pos : HTree) : BitVec 8 := if pos = root then s.err else (s.setErr .truncated).err

theorem plays_decEnd {root pos : HTree} {rest : List Turn} {s : State} (h : s.Decoding root pos)
    (hs : s.host.script = decodeTurn .decEnd ++ rest) :
    ∃ t, Plays (decodeTurn .decEnd) rest s t ∧ t.decActive = false ∧ t.dout = [] ∧ t.cmdPend = false ∧
      t.err = s.endErr root pos ∧ Decoded 0 [] s t := by
  have hlen : s.dout.length ≤ 16 := by simp [h.dout]
  have hpopped : popped (popWords 16 s.dout) = [] := by rw [popped_popWords, h.dout, List.take_nil]
  rcases closeWalk_cases (s.issued .decEnd (drainDout ++ rest)) with ⟨ha, -⟩ | ⟨-, hc, he⟩ | ⟨-, hc, he⟩
  · exact absurd (h.decActive.symm.trans ha) nofun
  · have hc : s.cur = s.root := hc
    have hpos : pos = root :=
      h.holds.eq_root_of_index h.walkPos.mem_nodes (h.cur_eq.symm.trans (hc.trans h.root_eq))
    refine ⟨_, plays_decodeTurn rfl hs h.cmdPend rfl (congrArg Flow.outcome he) hlen, rfl, rfl, rfl, ?_,
      rfl, rfl, (BitVec.add_zero _).symm, (BitVec.add_zero _).symm, _, rfl, hpopped⟩
    rw [State.endErr, if_pos hpos]
    rfl
  · have hpos : pos ≠ root := fun heq => hc (h.cur_eq.trans (heq ▸ h.root_eq.symm))
    refine ⟨_, plays_decodeTurn rfl hs h.cmdPend rfl (congrArg Flow.outcome he) hlen, rfl, rfl, rfl, ?_,
      rfl, rfl, (BitVec.add_zero _).symm, (BitVec.add_zero _).symm, _, rfl, hpopped⟩
    rw [State.endErr, if_neg hpos]
    rfl

/-! ### The session -/

theorem decodeTurns_eq (bits : List Bool) :
    decodeTurns bits =
      decodeTurn .decStart ++ ((decStreamCommands bits).flatMap decodeTurn ++ decodeTurn .decEnd) := by
  simp [decodeTurns]

theorem flatMap_streamBits (bits : List Bool) : (decStreamCommands bits).flatMap streamBits = bits := by
  obtain ⟨hbits, -, hform⟩ := decStreamDeliversTheString bits
  refine Eq.trans (List.flatMap_congr fun i hi => ?_) hbits
  obtain ⟨-, n, data, rfl⟩ := hform i hi
  rfl

/-- A whole session of a held tree: it pops what the reference walk emits, and DEC_END judges where the walk stands. -/
theorem plays_decodeTurns {root : HTree} (bits : List Bool) {s : State} (hp : s.cmdPend = false) (hq : s.dout = [])
    (hv : s.rootValid = true) (hholds : HoldsTree s.tree root) (hroot : s.root = root.index) :
    ∃ t, Plays (decodeTurns bits) [] (s.withScript (decodeTurns bits)) t ∧
      t.decActive = false ∧ t.dout = [] ∧ t.cmdPend = false ∧
      t.err = s.clearDecoder.endErr root (decFrom root root bits).2 ∧
      Decoded bits.length (decFrom root root bits).1 s.clearDecoder t := by
  have hturns := decodeTurns_eq bits
  rw [← List.append_nil (decodeTurn .decEnd)] at hturns
  obtain ⟨t₁, hplay₁, ht₁, herr₁, hdec₁⟩ :=
    plays_decStart (s := s.withScript (decodeTurns bits)) hp hq hv hholds hroot hturns
  obtain ⟨-, -, hform⟩ := decStreamDeliversTheString bits
  obtain ⟨t₂, hplay₂, ht₂, herr₂, hdec₂⟩ := plays_decStream ht₁ hform hplay₁.after
  obtain ⟨t, hplay₃, hact, hdout, hpend, herr, hdec₃⟩ := plays_decEnd ht₂ hplay₂.after
  rw [flatMap_streamBits] at hdec₂ herr
  have herr₂ : t₂.err = s.clearDecoder.err := herr₂.trans herr₁
  have hplay := (hplay₁.append hplay₂).append hplay₃
  rw [List.append_assoc, ← decodeTurns_eq] at hplay
  refine ⟨t, hplay, hact, hdout, hpend, ?_, ?_⟩
  · simp only [herr, State.endErr, State.setErr, herr₂]
  · have hdec := (hdec₁.trans hdec₂).trans hdec₃
    rw [Nat.zero_add, Nat.add_zero, List.nil_append, List.append_nil] at hdec
    exact ⟨hdec.encNbits, hdec.encNsyms, hdec.decNbits, hdec.decNsyms, hdec.popped⟩

/-- Which decoder errors a session leaves: none but the truncation. -/
theorem hasErr_endErr {s t : State} {root pos : HTree} (h : t.err = s.clearDecoder.endErr root pos) :
    (t.hasErr .truncated = true ↔ pos ≠ root) ∧ t.hasErr .missingTree = false ∧ t.hasErr .malformedTree = false ∧
      t.hasErr .decSeq = false := by
  have hclear (e : ErrCause) : s.clearDecoder.hasErr e = (s.hasErr e && !decErrs.getLsbD (e.bitNo - 8)) :=
    s.hasErr_clearErrs decErrs e
  rw [State.endErr] at h
  split at h
  case isTrue hpos => simp [State.hasErr_congr h, hclear, decErrs_bit, hpos]
  case isFalse hpos => simp [State.hasErr_congr h, hclear, decErrs_bit, hpos]

theorem dec_ok_iff {bits : List Bool} {root : HTree} :
    dec bits (some root) = .ok (decFrom root root bits).1 ↔ (decFrom root root bits).2 = root := by
  rw [dec]
  split <;> simp [*]

theorem dec_truncated_iff {bits : List Bool} {root : HTree} :
    dec bits (some root) = .error .truncatedStream ↔ (decFrom root root bits).2 ≠ root := by
  rw [dec]
  split <;> simp [*]

/-- Settles O38: the session pops the walk's symbols, and CUR is ROOT at DEC_END exactly where the walk has ended at the
root. -/
theorem decodeSessionIsTheReferenceDecoder : Obligations.DecodeSessionIsTheReferenceDecoder := by
  intro s root bits hp hq hv hholds hroot
  obtain ⟨t, hplay, hact, hdout, hpend, herr, hdec⟩ := plays_decodeTurns bits hp hq hv hholds hroot
  obtain ⟨words, hr, hwords⟩ := hdec.popped
  have hpopped : popped (t.host.received.drop s.host.received.length) = (decFrom root root bits).1 := by
    rw [hr, show s.clearDecoder.host = s.host from rfl, List.drop_left, hwords]
  have hnb : t.decNbits = BitVec.ofNat 32 bits.length := hdec.decNbits.trans (BitVec.zero_add _)
  have hns : t.decNsyms = BitVec.ofNat 32 (decFrom root root bits).1.length := hdec.decNsyms.trans (BitVec.zero_add _)
  obtain ⟨htrunc, hmissing, hmalformed, hseq⟩ := hasErr_endErr herr
  refine ⟨t, hplay.runTurns, hpopped, ?ok, ?truncated, hmissing, hmalformed, hseq, by rw [hnb]; rfl, by rw [hns]; rfl,
    hact, hdout, hpend⟩
  case ok =>
    rw [hpopped, dec_ok_iff, ← Bool.not_eq_true, htrunc, not_not]
  case truncated => rw [htrunc, dec_truncated_iff]

end Sys2Proof.Machine
end

section
/-! Loading a tree and its codes (40_host_reference.md R109, R110): the entries that the load's commands write, and what
TREE and CODE then hold. -/

namespace Sys2Proof.Machine

/-! ### Writing several entries -/

/-- Write entries one after the other. -/
def Memory.writeAll {α : Type} (m : Memory α) (entries : List (Nat × α)) : Memory α :=
  entries.foldl (fun m p => m.write p.1 p.2) m

/-- An index reads as one of the entries written to it, or as before where none was. -/
theorem Memory.read_writeAll {α : Type} (m : Memory α) (entries : List (Nat × α)) (i : Nat) :
    (∃ v, (i, v) ∈ entries ∧ (m.writeAll entries).read i = some v) ∨
      (∀ v, (i, v) ∉ entries) ∧ (m.writeAll entries).read i = m.read i := by
  induction entries generalizing m with
  | nil => exact .inr ⟨fun _ => List.not_mem_nil, rfl⟩
  | cons p entries ih =>
    obtain ⟨j, u⟩ := p
    rcases ih (m.write j u) with ⟨v, hv, hread⟩ | ⟨hnone, hread⟩
    · exact .inl ⟨v, List.mem_cons_of_mem _ hv, hread⟩
    · have hread : (m.writeAll ((j, u) :: entries)).read i = (m.write j u).read i := hread
      rw [Memory.read_write] at hread
      by_cases hij : i = j
      · exact .inl ⟨u, by simp [hij], by rw [hread, if_pos hij]⟩
      · exact .inr ⟨fun v => by simp [hij, hnone v], by rw [hread, if_neg hij]⟩

theorem execAll_cons {i : Instr} {is : List Instr} {s t : State} (h : exec i s = .next t) :
    execAll (i :: is) s = execAll is t := by
  rw [execAll, h]

theorem execAll_cons_next {i : Instr} {is : List Instr} {s t : State} (h : execAll (i :: is) s = .next t) :
    ∃ u, exec i s = .next u ∧ execAll is u = .next t := by
  rw [execAll] at h
  split at h
  · exact ⟨_, ‹_›, h⟩
  · cases h
  · cases h

theorem execAll_append {is js : List Instr} {s t : State} (h : execAll is s = .next t) :
    execAll (is ++ js) s = execAll js t := by
  induction is generalizing s with
  | nil =>
    cases h
    rfl
  | cons i is ih =>
    obtain ⟨u, hi, h⟩ := execAll_cons_next h
    exact (execAll_cons hi).trans (ih h)

/-! ### The commands of a load -/

theorem exec_nodeCommand (n : HTree) (s : State) : exec (nodeCommand n) s = .next (s.writeNode n.index n.toNode) := by
  cases n <;> rfl

/-- The entries of TREE that nodes are loaded to. -/
def nodeEntries (ns : List HTree) : List (Nat × Node) := ns.map fun n => (n.index.toNat, n.toNode)

theorem execAll_nodeCommands (ns : List HTree) (s : State) :
    execAll (ns.map nodeCommand) s = .next { s with tree := s.tree.writeAll (nodeEntries ns) } := by
  induction ns generalizing s with
  | nil => rfl
  | cons n ns ih =>
    exact (execAll_cons (exec_nodeCommand n s)).trans (ih _)

/-- The row of the code table that a leaf's commands write. -/
def codeRow (table : CodeTable) : HTree → Option (Symbol × List Bool)
  | .leaf _ s _ => (table.lookup s).map (s, ·)
  | .node _ _ _ _ => none

/-- The entries of CODE that the leaves' codes are loaded to. -/
def codeEntries (table : CodeTable) (ns : List HTree) : List (Nat × CodeEntry) :=
  (ns.filterMap (codeRow table)).map fun p => (p.1.toNat, writtenEntry p.2)

/-- Every code of the table can be stored (R126). -/
def Storable (table : CodeTable) : Prop := ∀ p ∈ table, 1 ≤ p.2.length ∧ p.2.length ≤ 255

theorem execAll_codeCommands {table : CodeTable} (ht : Storable table) (ns : List HTree) (s : State) :
    execAll (ns.flatMap (codeCommands table)) s = .next { s with code := s.code.writeAll (codeEntries table ns) } := by
  induction ns generalizing s with
  | nil => rfl
  | cons n ns ih =>
    rw [List.flatMap_cons]
    cases n with
    | node q w l r => exact ih s
    | leaf q sym w =>
      cases hc : table.lookup sym with
      | none =>
        have hentries : codeEntries table (.leaf q sym w :: ns) = codeEntries table ns := by
          simp [codeEntries, codeRow, hc]
        rw [hentries, codeCommands, hc]
        exact ih s
      | some c =>
        have hentries : codeEntries table (.leaf q sym w :: ns) =
            (sym.toNat, writtenEntry c) :: codeEntries table ns := by
          simp [codeEntries, codeRow, hc]
        obtain ⟨hlo, hhi⟩ := ht _ (mem_of_lookup_eq_some hc)
        rw [hentries, codeCommands, hc, execAll_append (execAll_codeWrite s sym hlo hhi)]
        exact ih _

/-- The state that a load leaves. -/
def State.loaded (s : State) (t : HTree) (table : CodeTable) : State :=
  { s with
    tree := s.tree.writeAll (nodeEntries t.nodesInOrder), root := t.index, rootValid := true,
    code := s.code.writeAll (codeEntries table t.nodesInOrder) }

theorem execAll_load {table : CodeTable} (ht : Storable table) (t : HTree) (s : State) :
    execAll (load (some t) table) s = .next (s.loaded t table) := by
  rw [load, execAll_append (execAll_nodeCommands _ s), execAll_cons rfl]
  exact execAll_codeCommands ht _ _

/-! ### The nodes of a built tree -/

section
variable {S : List Symbol} {t : HTree} (ht : BuiltFrom (freq S) t)
include ht

theorem BuiltFrom.nodup_seqs : (t.nodes.map HTree.seq).Nodup := ht.seqs.nodup_iff.2 List.nodup_range

theorem BuiltFrom.eq_of_seq {n n' : HTree} (h : n ∈ t.nodes) (h' : n' ∈ t.nodes) (hs : n.seq = n'.seq) : n = n' :=
  List.inj_on_of_nodup_map ht.nodup_seqs h h' hs

/-- No node is numbered higher than the root (R103). -/
theorem BuiltFrom.seq_le {n : HTree} (h : n ∈ t.nodes) : n.seq ≤ t.seq := by
  have hlt := List.mem_range.1 (ht.seqs.subset (List.mem_map_of_mem h))
  rw [ht.seq]
  omega

theorem BuiltFrom.seq_lt {n : HTree} (h : n ∈ t.nodes) : n.seq < Config.nnodes := by
  have hlt := List.mem_range.1 (ht.seqs.subset (List.mem_map_of_mem h))
  have hk := length_distinct_le S
  rw [length_freq] at hlt
  exact hlt.trans_le (by rw [Config.nnodes]; omega)

theorem BuiltFrom.mem_nodesInOrder {n : HTree} : n ∈ t.nodesInOrder ↔ n ∈ t.nodes := by
  simp only [HTree.nodesInOrder, List.mem_filterMap, List.mem_range]
  constructor
  · rintro ⟨q, -, hn⟩
    exact List.mem_of_find?_eq_some hn
  · intro h
    refine ⟨n.seq, Nat.lt_succ_of_le (ht.seq_le h), ?_⟩
    have hfind : (t.nodes.find? fun m => m.seq == n.seq).isSome := List.find?_isSome.2 ⟨n, h, beq_self_eq_true n.seq⟩
    obtain ⟨n', hn'⟩ := Option.isSome_iff_exists.1 hfind
    have hseq : n'.seq = n.seq := by simpa using List.find?_some hn'
    rw [hn', ht.eq_of_seq (List.mem_of_find?_eq_some hn') h hseq]

/-! ### What a load leaves -/

theorem BuiltFrom.storable : Storable (generate t) := fun _ => ht.code_bounds

theorem BuiltFrom.holdsTree (m : Memory Node) : HoldsTree (m.writeAll (nodeEntries t.nodesInOrder)) t := by
  refine holdsTree_iff.2 fun n hn => ⟨ht.seq_lt hn, ?_⟩
  have hentry : (n.seq, n.toNode) ∈ nodeEntries t.nodesInOrder :=
    List.mem_map.2 ⟨n, ht.mem_nodesInOrder.2 hn, by rw [HTree.index_toNat (ht.seq_lt hn)]⟩
  rcases m.read_writeAll (nodeEntries t.nodesInOrder) n.seq with ⟨v, hv, hread⟩ | ⟨hnone, -⟩
  · obtain ⟨n', hmem, heq⟩ := List.mem_map.1 hv
    have hn' := ht.mem_nodesInOrder.1 hmem
    obtain ⟨hseq, rfl⟩ := Prod.mk.inj heq
    rw [HTree.index_toNat (ht.seq_lt hn')] at hseq
    rw [hread, ht.eq_of_seq hn' hn hseq]
  · exact absurd hentry (hnone _)

/-- The leaves' commands write exactly the rows of the code table. -/
theorem BuiltFrom.mem_codeRows {p : Symbol × List Bool} :
    p ∈ t.nodesInOrder.filterMap (codeRow (generate t)) ↔ p ∈ generate t := by
  obtain ⟨s, c⟩ := p
  rw [List.mem_filterMap]
  constructor
  · rintro ⟨n, -, hn⟩
    cases n with
    | node => exact absurd hn nofun
    | leaf q s' w =>
      obtain ⟨c', hc', heq⟩ := Option.map_eq_some_iff.1 hn
      exact heq ▸ mem_of_lookup_eq_some hc'
  · intro h
    have hkey : s ∈ t.rows.map Prod.fst := map_fst_generate t ▸ List.mem_map.2 ⟨_, h, rfl⟩
    obtain ⟨⟨s', w⟩, hrow, rfl⟩ := List.mem_map.1 hkey
    obtain ⟨n, hn, hleaf⟩ := List.mem_filterMap.1 hrow
    refine ⟨n, ht.mem_nodesInOrder.2 hn, ?_⟩
    cases n with
    | node => exact absurd hleaf nofun
    | leaf q s w' =>
      obtain ⟨rfl, -⟩ := Prod.mk.inj (Option.some.inj hleaf)
      exact congrArg (Option.map _) (lookup_eq_some_of_mem ht.nodup_keys h)

theorem BuiltFrom.mem_codeEntries {s : Symbol} {e : CodeEntry} :
    (s.toNat, e) ∈ codeEntries (generate t) t.nodesInOrder ↔ ∃ c, (s, c) ∈ generate t ∧ writtenEntry c = e := by
  rw [codeEntries, List.mem_map]
  constructor
  · rintro ⟨⟨s', c⟩, hrow, heq⟩
    obtain ⟨hs, he⟩ := Prod.mk.inj heq
    obtain rfl : s' = s := BitVec.eq_of_toNat_eq hs
    exact ⟨c, ht.mem_codeRows.1 hrow, he⟩
  · rintro ⟨c, hc, rfl⟩
    exact ⟨(s, c), ht.mem_codeRows.2 hc, rfl⟩

/-- CODE holds the code of every row, and nothing else. -/
theorem BuiltFrom.mem_generate_iff {s : Symbol} {c : List Bool} :
    (s, c) ∈ generate t ↔ ∃ e, (State.reset.loaded t (generate t)).codeAt s = some e ∧ e.codeString = c := by
  have hstring {s : Symbol} {c : List Bool} (h : (s, c) ∈ generate t) : (writtenEntry c).codeString = c :=
    codeString_writtenEntry (ht.code_bounds h).2
  have hread := Memory.read_writeAll [] (codeEntries (generate t) t.nodesInOrder) s.toNat
  constructor
  · intro h
    rcases hread with ⟨e, he, hread⟩ | ⟨hnone, -⟩
    · obtain ⟨c', hc', rfl⟩ := ht.mem_codeEntries.1 he
      refine ⟨_, hread, (hstring hc').trans ?_⟩
      have hlookup := lookup_eq_some_of_mem ht.nodup_keys hc'
      exact Option.some.inj (hlookup.symm.trans (lookup_eq_some_of_mem ht.nodup_keys h))
    · exact absurd (ht.mem_codeEntries.2 ⟨c, h, rfl⟩) (hnone _)
  · rintro ⟨e, hat, rfl⟩
    rcases hread with ⟨e', he', hread⟩ | ⟨-, hread⟩
    · obtain ⟨c, hc, rfl⟩ := ht.mem_codeEntries.1 he'
      obtain rfl := Option.some.inj (hread.symm.trans hat)
      rwa [hstring hc]
    · exact absurd (hread.symm.trans hat) nofun

end

/-- Settles O52: the load writes each node at its own index and each code under its own symbol. -/
theorem loadPlacesTreeAndTable : Obligations.LoadPlacesTreeAndTable := by
  intro S hS
  obtain ⟨t, hb, ht⟩ := build_freq_builtFrom hS
  exact ⟨t, State.reset.loaded t (generate t), hb, execAll_load ht.storable t _, ht.holdsTree _, rfl, rfl,
    fun _ _ => ht.mem_generate_iff, rfl⟩

end Sys2Proof.Machine
end

section
/-! The empty input (40_host_reference.md R114). -/

namespace Sys2Proof.Machine

theorem dec_nil (t : HTree) : dec [] (some t) = .ok [] := by
  rw [dec, decFrom_nil, if_pos rfl]

theorem execAll_rootClr_decStart (s : State) :
    execAll [.rootClr, .decStart] s =
      .next ({ s with rootValid := false }.clearDecoder.endDec.setErr .missingTree) := rfl

/-- A session without a bit leaves CUR at ROOT. -/
theorem execAll_decStart_decEnd {s : State} (hv : s.rootValid = true) (hn : s.nodeValid s.root = true) :
    execAll [.decStart, .decEnd] s = .next { s.clearDecoder with cur := s.root, decActive := false } := by
  have hstart : exec .decStart s = .next { s.clearDecoder with cur := s.root, decActive := true } := by
    rcases openWalk_cases s with ⟨hf, -⟩ | ⟨-, hnone, -⟩ | ⟨n, -, -, he⟩
    · exact absurd (hv.symm.trans hf) nofun
    · simp [State.nodeValid, hnone] at hn
    · exact congrArg Flow.outcome he
  have hend : exec .decEnd { s.clearDecoder with cur := s.root, decActive := true } =
      .next { s.clearDecoder with cur := s.root, decActive := false } := by
    rcases closeWalk_cases { s.clearDecoder with cur := s.root, decActive := true } with
      ⟨hf, -⟩ | ⟨-, -, he⟩ | ⟨-, hc, -⟩
    · exact absurd hf nofun
    · exact congrArg Flow.outcome he
    · exact absurd rfl hc
  rw [execAll_cons hstart, execAll_cons hend, execAll]

/-- Settles O55: an empty session pushes nothing and leaves CUR at ROOT, and without a tree there is no session. -/
theorem emptyInputGivesEmptyOutput : Obligations.EmptyInputGivesEmptyOutput := by
  refine ⟨rfl, rfl, dec_nil, fun s => ⟨_, rfl, rfl, rfl⟩, fun s table => ⟨_, execAll_rootClr_decStart s, ?_, rfl⟩,
    fun s hv hn => ⟨_, execAll_decStart_decEnd hv hn, rfl, fun e => ?_⟩⟩
  · rw [State.hasErr_setErr]
    simp
  · have herr := s.hasErr_clearErrs decErrs e
    rw [decErrs_bit] at herr
    refine herr.trans ?_
    cases e <;> simp [ErrCause.bitNo]

end Sys2Proof.Machine
end

section
/-! The round trip over HTW (40_host_reference.md R113): a host that loads, encodes and decodes from reset. The load's
commands run under HOST as they do alone, and an encode session leaves the decoder's tables to the decode session. -/

namespace Sys2Proof.Machine

/-! ### The load under HOST -/

/-- The commands that write TREE, the root and CODE (41_control_load.md). -/
def loadsTables : Instr → Bool
  | .treeInt _ _ _ | .treeLeaf _ _ | .rootSet _ | .rootClr | .codeLen _ _ | .codeBits _ _ _ => true
  | _ => false

theorem loadsTables_of_mem_codeWrite {i : Instr} {sym : Symbol} {c : List Bool} (h : i ∈ codeWrite sym c) :
    loadsTables i = true := by
  rcases List.mem_cons.1 h with rfl | h
  · rfl
  · obtain ⟨k, -, rfl⟩ := List.mem_map.1 h
    rfl

theorem loadsTables_of_mem_load {i : Instr} {t : HTree} {table : CodeTable} (h : i ∈ load (some t) table) :
    loadsTables i = true := by
  rcases List.mem_append.1 h with h | h
  · obtain ⟨n, -, rfl⟩ := List.mem_map.1 h
    cases n <;> rfl
  · rcases List.mem_cons.1 h with rfl | h
    · rfl
    · obtain ⟨n, -, hi⟩ := List.mem_flatMap.1 h
      cases n with
      | node => exact absurd hi List.not_mem_nil
      | leaf q sym w =>
        rw [codeCommands] at hi
        split at hi
        · exact loadsTables_of_mem_codeWrite hi
        · exact absurd hi List.not_mem_nil

theorem wellFormed_of_loadsTables {i : Instr} (h : loadsTables i = true) : i.wellFormed = true := by
  cases i with
  | decBits => exact absurd h nofun
  | _ => rfl

/-- A load command needs no room in a FIFO (R34). -/
theorem held_of_loadsTables {i : Instr} (h : loadsTables i = true) (s : State) : held i s = false := by
  cases i with
  | decBits | encSym | encFlush => exact absurd h nofun
  | _ => rfl

/-- The state with another command register and another HOST, and no command pending. -/
def State.onPort (s : State) (w : Word) (host : HostSide) : State :=
  { s with cmdr := w, cmdPend := false, host := host }

theorem exec_onPort {i : Instr} {s t : State} (hi : loadsTables i = true) (h : exec i s = .next t) (w : Word)
    (host : HostSide) : exec i (s.onPort w host) = .next (t.onPort w host) := by
  cases i with
  | treeInt | treeLeaf | rootSet | rootClr =>
    cases h
    rfl
  | codeLen c len =>
    rcases execCodeLen_next h with ⟨hl, rfl⟩ | ⟨hl, rfl⟩
    · exact if_pos hl
    · exact if_neg hl
  | codeBits c k data =>
    rcases execCodeBits_next h with ⟨hc, rfl⟩ | ⟨e, hc, rfl⟩
    · exact execCodeBits_of_none k data hc
    · exact execCodeBits_of_some (s := s.onPort w host) k data hc
  | _ => exact absurd hi nofun

/-- Issued one after the other, the commands of a load do what they do alone. -/
theorem plays_load {is : List Instr} {rest : List Turn} {s t : State} {w : Word} {received : List Word}
    (hi : ∀ i ∈ is, loadsTables i = true) (h : execAll is s = .next t) :
    ∃ w', Plays (is.flatMap issue) rest (s.onPort w ⟨is.flatMap issue ++ rest, received⟩)
      (t.onPort w' ⟨rest, received⟩) := by
  induction is generalizing s w with
  | nil =>
    cases h
    exact ⟨w, .nil rfl⟩
  | cons i is ih =>
    have hload := hi i List.mem_cons_self
    obtain ⟨u, hexec, h⟩ := execAll_cons_next h
    obtain ⟨w', hplay⟩ := ih (w := encode i) (fun j hj => hi j (List.mem_cons_of_mem i hj)) h
    rw [List.flatMap_cons, List.append_assoc]
    have hwf := wellFormed_of_loadsTables hload
    exact ⟨w', .append (plays_issue hwf rfl rfl (held_of_loadsTables hload _) (exec_onPort hload hexec _ _)) hplay⟩

/-! ### An encode session leaves the decoder alone -/

/-- The commands of an encode session. -/
def encodes : Instr → Bool
  | .encStart | .encSym _ | .encFlush => true
  | _ => false

/-- A turn that brings HTW no command but an encoder's. -/
def EncoderTurn : Turn → Prop
  | .engine => True
  | .read _ => True
  | .write a v => wordOffset a = 0x04 → ∃ i, encodes i = true ∧ decode v = .instr i
  | .resetInput => False

/-- No command but an encoder's is pending or to come. -/
structure State.EncoderOnly (s : State) : Prop where
  script : ∀ turn ∈ s.host.script, EncoderTurn turn
  pending : s.cmdPend = true → ∃ i, encodes i = true ∧ decode s.cmdr = .instr i

/-- TREE and its root are the same, and nothing was pushed onto DOUT. -/
structure DecoderKept (s t : State) : Prop where
  tree : t.tree = s.tree
  root : t.root = s.root
  rootValid : t.rootValid = s.rootValid
  dout : t.dout.length ≤ s.dout.length

theorem step_script {s t : State} (h : step s = .next t) : t.host.script = s.host.script.tail := by
  rcases step_next h with ⟨a, -, -, rfl⟩ | ⟨a, v, -, -, rfl⟩ | ⟨-, -, rfl⟩ | ⟨-, -, -, rfl⟩ | ⟨_, -, -, -, -, rfl⟩ |
    ⟨i, -, -, -, -, he⟩
  · rcases hostRead_cases a s.popTurn with ⟨-, hw⟩ | ⟨-, hw⟩ | ⟨-, -, hw⟩ <;> rw [hw] <;> rfl
  · rcases hostWrite_cases a v s.popTurn with ⟨-, hw⟩ | ⟨-, -, hw⟩ | ⟨-, -, hw⟩ | ⟨-, -, hw⟩ <;> rw [hw] <;> rfl
  · rfl
  · rfl
  · rfl
  · rw [exec_keeps_host he]
    rfl

theorem State.EncoderOnly.turn {s : State} (h : s.EncoderOnly) : EncoderTurn s.turn := by
  rw [State.turn]
  cases hs : s.host.script with
  | nil => trivial
  | cons turn ts => exact h.script turn (hs ▸ List.mem_cons_self)

theorem State.EncoderOnly.executing {s : State} {i : Instr} (h : s.EncoderOnly) (hx : s.executing = some i) :
    encodes i = true := by
  obtain ⟨-, hp, -, hd⟩ := (s.executing_iff i).1 hx
  obtain ⟨j, hj, hd'⟩ := h.pending hp
  cases hd.symm.trans hd'
  exact hj

theorem State.EncoderOnly.not_reset {s : State} (h : s.EncoderOnly) : s.isReset = false := by
  have hturn : s.turn ≠ .resetInput := fun ht => by simpa [ht, EncoderTurn] using h.turn
  have hsrst : s.executing ≠ some .srst := fun hx => absurd (h.executing hx) nofun
  simp [State.isReset, hturn, hsrst]

theorem step_keeps_encoderOnly {s t : State} (hs : s.EncoderOnly) (h : step s = .next t) : t.EncoderOnly where
  script turn hturn := hs.script turn (List.mem_of_mem_tail (step_script h ▸ hturn))
  pending hp := by
    rcases step_command h with ⟨-, hpend, hc⟩ | ⟨a, v, ht, ha, -, -, hc⟩ | ⟨-, hpend⟩ | ⟨-, hpend, -⟩
    · exact hc ▸ hs.pending (hpend ▸ hp)
    · have hturn := hs.turn
      rw [ht] at hturn
      exact hc ▸ hturn ha
    · exact absurd (hpend.symm.trans hp) nofun
    · exact absurd (hpend.symm.trans hp) nofun

theorem step_keeps_decoder {s t : State} (hs : s.EncoderOnly) (h : step s = .next t) : DecoderKept s t := by
  rcases step_frame h hs.not_reset with ⟨hf, hdout, -⟩ | ⟨i, -, hx, hf⟩
  · exact ⟨(congrArg State.tree hf :), (congrArg State.root hf :), (congrArg State.rootValid hf :), hdout⟩
  · have hi := hs.executing hx
    cases i with
    | encStart | encSym | encFlush =>
      exact ⟨(congrArg State.tree hf :), (congrArg State.root hf :), (congrArg State.rootValid hf :),
        (congrArg (·.dout.length) hf).le⟩
    | _ => exact absurd hi nofun

theorem run_keeps_decoder {k : Nat} {s t : State} (hs : s.EncoderOnly)
    (h : Host.Core.run Sys2Proof.core k s = .next t) : DecoderKept s t := by
  induction k generalizing s with
  | zero =>
    cases h
    exact ⟨rfl, rfl, rfl, le_rfl⟩
  | succ k ih =>
    obtain ⟨u, hu⟩ := everyStepAnswersNext s
    rw [run_succ k hu] at h
    have hstep := step_keeps_decoder hs hu
    have hrun := ih (step_keeps_encoderOnly hs hu) h
    exact ⟨hrun.tree.trans hstep.tree, hrun.root.trans hstep.root, hrun.rootValid.trans hstep.rootValid,
      hrun.dout.trans hstep.dout⟩

theorem encoderTurn_of_mem_encodeTurns {S : List Symbol} {turn : Turn} (h : turn ∈ encodeTurns S) :
    EncoderTurn turn := by
  obtain ⟨i, hi, hturn⟩ := List.mem_flatMap.1 h
  have henc : encodes i = true ∧ i.wellFormed = true := by
    simp only [List.cons_append, List.mem_cons, List.mem_append, List.mem_map, List.not_mem_nil, or_false] at hi
    rcases hi with rfl | ⟨c, -, rfl⟩ | rfl <;> exact ⟨rfl, rfl⟩
  rcases List.mem_append.1 hturn with hissue | hdrain
  · simp only [issue, List.mem_cons, List.not_mem_nil, or_false] at hissue
    rcases hissue with rfl | rfl
    · exact fun _ => ⟨i, henc.1, decodeOfEncode i henc.2⟩
    · trivial
  · obtain rfl := List.eq_of_mem_replicate hdrain
    trivial

/-- After an encode session the decoder's tables are what they were (60_exceptions.md R192). -/
theorem encodeTurns_keep_decoder {S : List Symbol} {s t : State} (hp : s.cmdPend = false)
    (h : Plays (encodeTurns S) [] (s.withScript (encodeTurns S)) t) : DecoderKept s t := by
  have honly : (s.withScript (encodeTurns S)).EncoderOnly :=
    ⟨fun _ => encoderTurn_of_mem_encodeTurns, fun hpend => absurd (hp.symm.trans hpend) nofun⟩
  obtain ⟨htree, hroot, hvalid, hdout⟩ := run_keeps_decoder honly h.run
  exact ⟨htree, hroot, hvalid, hdout⟩

/-! ### From reset to the symbols popped -/

/-- With no empty code a stream is at least as long as its sequence. -/
theorem length_le_length_flatMap {S : List Symbol} {code : Symbol → List Bool} (h : ∀ s ∈ S, code s ≠ []) :
    S.length ≤ (S.flatMap code).length := by
  induction S with
  | nil => exact le_rfl
  | cons s S ih =>
    have hs := List.length_pos_iff.2 (h s List.mem_cons_self)
    have hS := ih fun d hd => h d (List.mem_cons_of_mem s hd)
    rw [List.flatMap_cons, List.length_append, List.length_cons]
    omega

/-- From reset, a load and an encode session: HOST has popped the stream, and the decoder is as the load left it. -/
theorem runTurns_load_encode {S : List Symbol} {is : List Instr} {s : State} (hi : ∀ i ∈ is, loadsTables i = true)
    (hload : execAll is State.reset = .next s) (hq : s.eout = []) (hc : ∀ c ∈ S, s.codeValid c = true) :
    ∃ t, runTurns (is.flatMap issue ++ encodeTurns S) State.reset = .next t ∧ DecoderKept s t ∧ t.cmdPend = false ∧
      t.err = (s.clearErrs encErrs).err ∧ t.encNbits = BitVec.ofNat 32 (S.flatMap s.codeOf).length ∧
      t.encNsyms = BitVec.ofNat 32 S.length ∧
      ∃ pad, (popped t.host.received).flatMap byteBits = S.flatMap s.codeOf ++ List.replicate pad false := by
  obtain ⟨w, hplay⟩ := plays_load (w := 0x00000000#32) (rest := encodeTurns S ++ []) (received := []) hi hload
  rw [List.append_nil] at hplay
  obtain ⟨t, hplay', herr, hnb, hns, -, -, hpend, words, pad, hr, -, hbytes⟩ :=
    plays_encodeTurns (s := s.onPort w ⟨[], []⟩) rfl hq hc
  obtain ⟨htree, hroot, hvalid, hdout⟩ := encodeTurns_keep_decoder rfl hplay'
  have hwords : t.host.received = words := hr
  have hwhole := Plays.append (us := encodeTurns S) (rest := []) (by rwa [List.append_nil]) hplay'
  exact ⟨t, hwhole.runTurns, ⟨htree, hroot, hvalid, hdout⟩, hpend, herr, hnb, hns, pad, hwords.symm ▸ hbytes⟩

/-- A decode session of whole codes pops their symbols, raises nothing and leaves the encoder's counters. -/
theorem runTurns_decode_codes {S : List Symbol} {code : Symbol → List Bool} {tree : HTree} {s : State}
    (hcode : ∀ c ∈ S, (c, code c) ∈ generate tree) (hp : s.cmdPend = false) (hq : s.dout = [])
    (hv : s.rootValid = true) (hholds : HoldsTree s.tree tree) (hroot : s.root = tree.index) :
    ∃ t, runTurns (decodeTurns (S.flatMap code)) s = .next t ∧
      popped (t.host.received.drop s.host.received.length) = S ∧ t.err = (s.clearErrs decErrs).err ∧
      t.encNbits = s.encNbits ∧ t.encNsyms = s.encNsyms ∧
      t.decNbits = BitVec.ofNat 32 (S.flatMap code).length ∧ t.decNsyms = BitVec.ofNat 32 S.length := by
  obtain ⟨t, hplay, -, -, -, herr, hdecoded⟩ := plays_decodeTurns (S.flatMap code) hp hq hv hholds hroot
  rw [decFrom_flatMap hcode, State.endErr, if_pos rfl] at herr
  rw [decFrom_flatMap hcode] at hdecoded
  obtain ⟨words, hr, hwords⟩ := hdecoded.popped
  have hr : t.host.received = s.host.received ++ words := hr
  exact ⟨t, hplay.runTurns, by rw [hr, List.drop_left, hwords], herr, hdecoded.encNbits, hdecoded.encNsyms,
    hdecoded.decNbits.trans (BitVec.zero_add _), hdecoded.decNsyms.trans (BitVec.zero_add _)⟩

/-- Where CODE holds exactly the codes of a sequence's tree, it has each symbol's. -/
theorem BuiltFrom.codeOf_mem {S : List Symbol} {t : HTree} {s : State} (ht : BuiltFrom (freq S) t)
    (h : ∀ c x, (c, x) ∈ generate t ↔ ∃ e, s.codeAt c = some e ∧ e.codeString = x) {c : Symbol} (hc : c ∈ S) :
    s.codeValid c = true ∧ (c, s.codeOf c) ∈ generate t := by
  obtain ⟨code, hcode⟩ := ht.exists_code
  have hmem := hcode c hc
  obtain ⟨e, he, hstr⟩ := (h c (code c)).1 hmem
  have hof : s.codeOf c = code c := by simp [State.codeOf, he, hstr]
  exact ⟨by simp [State.codeValid, he], hof ▸ hmem⟩

/-- Settles O54: the load gives the encoder its codes and the decoder the tree that they lead through. -/
theorem roundTripOverHtw : Obligations.RoundTripOverHtw := by
  intro S hS
  obtain ⟨tree, hb, ht⟩ := build_freq_builtFrom hS
  obtain ⟨tree', s, hb', hload, hholds, hroot, hvalid, hcodes, hreset⟩ := loadPlacesTreeAndTable S hS
  obtain rfl : tree = tree' := Option.some.inj (hb.symm.trans hb')
  have hcode : ∀ c ∈ S, (c, s.codeOf c) ∈ generate tree := fun c hc => (ht.codeOf_mem hcodes hc).2
  have hlen : S.length ≤ (S.flatMap s.codeOf).length :=
    length_le_length_flatMap fun c hc => ne_nil_of_mem_generate (hcode c hc)
  refine ⟨tree, S.flatMap s.codeOf, hb, enc_eq_ok fun c hc => lookup_eq_some_of_mem ht.nodup_keys (hcode c hc),
    fun hlt => ?_⟩
  obtain ⟨t, hrun, hkept, hpend, herr, hnb, hns, pad, hbytes⟩ :=
    runTurns_load_encode (fun _ => loadsTables_of_mem_load) hload (congrArg State.eout hreset)
      fun c hc => (ht.codeOf_mem hcodes hc).1
  have hdout : t.dout = [] := by
    have hkeep := hkept.dout
    rw [hreset] at hkeep
    exact List.eq_nil_of_length_eq_zero (Nat.le_zero.1 hkeep)
  obtain ⟨u, hrun', hpopped, herr', hnb', hns', hdnb, hdns⟩ := runTurns_decode_codes hcode hpend hdout
    (hkept.rootValid.trans hvalid) (hkept.tree ▸ hholds) (hkept.root.trans hroot)
  have hbits : (BitVec.ofNat 32 (S.flatMap s.codeOf).length).toNat = (S.flatMap s.codeOf).length := Nat.mod_eq_of_lt hlt
  have hsyms : (BitVec.ofNat 32 S.length).toNat = S.length := Nat.mod_eq_of_lt (hlen.trans_lt hlt)
  have hstream : ((popped t.host.received).flatMap byteBits).take t.encNbits.toNat = S.flatMap s.codeOf := by
    rw [hbytes, hnb, hbits, List.take_left]
  refine ⟨t, u, hrun, by rw [hstream]; exact hrun', hpopped, ?noError, by rw [hdns, hsyms], by rw [hns', hns, hsyms],
    by rw [hdnb, hbits], by rw [hnb', hnb, hbits]⟩
  case noError =>
    have hzero : s.err = 0x00#8 := congrArg State.err hreset
    simp [herr', herr, hzero]

end Sys2Proof.Machine
end

section
/-! The control and load commands NOP to CODE_LEN (41_control_load.md R120 to R126): their words as numbers, what each
leaves, and a decode session whose root is no longer valid. -/

namespace Sys2Proof.Machine

/-! ### Words -/

theorem encode_treeInt_toNat (idx left right : NodeIdx) : (encode (.treeInt idx left right)).toNat =
    0x20000000 + idx.toNat * 2 ^ 18 + left.toNat * 2 ^ 9 + right.toNat := by
  have hidx : (0x20000000#32 ||| zext32 idx <<< 18).toNat = 0x20000000 + idx.toNat * 2 ^ 18 :=
    toNat_or_field (by decide) (by decide)
  have hleft : (0x20000000#32 ||| zext32 idx <<< 18 ||| zext32 left <<< 9).toNat =
      0x20000000 + idx.toNat * 2 ^ 18 + left.toNat * 2 ^ 9 := by
    rw [toNat_or_field (by decide) (by rw [hidx]; omega), hidx]
  rw [encode, toNat_or_zext32 (by decide) (by rw [hleft]; omega), hleft]

theorem encode_treeLeaf_toNat (idx : NodeIdx) (sym : Symbol) :
    (encode (.treeLeaf idx sym)).toNat = 0x28000000 + idx.toNat * 2 ^ 18 + sym.toNat := by
  have hidx : (0x28000000#32 ||| zext32 idx <<< 18).toNat = 0x28000000 + idx.toNat * 2 ^ 18 :=
    toNat_or_field (by decide) (by decide)
  rw [encode, toNat_or_zext32 (by decide) (by rw [hidx]; omega), hidx]

theorem encode_rootSet_toNat (idx : NodeIdx) : (encode (.rootSet idx)).toNat = 0x30000000 + idx.toNat :=
  toNat_or_zext32 (by decide) (by decide)

theorem encode_codeLen_toNat (c : Symbol) (len : BitVec 8) :
    (encode (.codeLen c len)).toNat = 0x40000000 + c.toNat * 2 ^ 20 + len.toNat * 2 ^ 12 := by
  have hc : (0x40000000#32 ||| zext32 c <<< 20).toNat = 0x40000000 + c.toNat * 2 ^ 20 :=
    toNat_or_field (by decide) (by decide)
  rw [encode, toNat_or_field (by decide) (by rw [hc]; omega), hc]

/-- The only word of OPC 0 without a reserved bit is NOP's. -/
theorem reservedBitsSet_of_opcode_zero {w : Word} (ho : opcode w = 0#4) (hw : w ≠ 0x00000000#32) :
    reservedBitsSet w := by
  have hlow : field w 0 28 ≠ 0#28 := by
    intro h
    have hc : EncodingRow.covers ⟨"NOP", 0x00000000#32, 0xFFFFFFFF#32, fun _ => .nop⟩ w = true :=
      (covers_iff_key 0#4 0 28 (by decide) (by decide) rfl rfl).2 ⟨ho, h⟩
    exact hw (pattern_of_covers hc rfl).symm
  simpa [reservedBitsSet, field, show w.extractLsb' 28 4 = 0#4 from ho] using hlow

/-- Bits 17 to 8 of TREE_LEAF's format are reserved (R74). -/
theorem reservedBitsSet_of_treeLeaf_format {w : Word} (hkey : field w 27 5 = 0b00101#5) (hres : field w 8 10 ≠ 0#10) :
    reservedBitsSet w := by
  obtain ⟨ho, hleaf⟩ := (field_eq_append_iff 2#4 true).1 hkey
  simpa [reservedBitsSet, field, show w.extractLsb' 28 4 = 2#4 from ho, hleaf] using hres

theorem decode_illegal_of_reservedBitsSet {w : Word} (h : reservedBitsSet w) : ∃ why, decode w = .illegal why :=
  ⟨.reservedBits, (decode_illegal_iff w).2.2 h⟩

/-! ### NOP and the resets -/

/-- Settles O21: in OPC 0 every bit below the opcode is reserved, and a write of CMD overflows whatever the word. -/
theorem nopChangesNothing : Obligations.NopChangesNothing := by
  refine ⟨fun s => rfl, rfl,
    fun w ho hw => decode_illegal_of_reservedBitsSet (reservedBitsSet_of_opcode_zero ho hw),
    fun s a ht ha hp => ⟨_, step_write_cmd_overflow ht ha hp, ?_⟩⟩
  simp

/-- STATUS is the word at offset 0 (R42). -/
theorem readValue_status (s : State) : readValue 0x00#6 s = s.status := rfl

/-- ROOT is the word at offset 8 (R42). -/
theorem readValue_root (s : State) : readValue 0x08#6 s = zext32 s.root := rfl

/-- Settles O22: both resets are `State.resetAll`. -/
theorem bothResetsReachTheResetState : Obligations.BothResetsReachTheResetState := by
  refine ⟨rfl, fun s => ⟨s.resetAll, rfl, s.resetAll_atResetTable, ?status⟩,
    fun s ht => ⟨_, step_resetInput ht, s.popTurn.resetAll_atResetTable⟩,
    fun s hx => ⟨_, step_of_executing hx, s.popTurn.takeCommand.resetAll_atResetTable⟩⟩
  case status =>
    rw [readValue_status]
    exact s.resetAll_atResetTable.status_eq

/-! ### TREE_INT and TREE_LEAF -/

theorem State.nodeValid_writeNode_same (s : State) (i : NodeIdx) (n : Node) : (s.writeNode i n).nodeValid i = true := by
  rw [State.nodeValid, State.nodeAt_writeNode, if_pos rfl, Option.isSome_some]

/-- Settles O23: both commands are one `State.writeNode`. -/
theorem treeCommandsWriteOneNode : Obligations.TreeCommandsWriteOneNode :=
  ⟨fun s idx _ _ => ⟨_, rfl, rfl, s.nodeValid_writeNode_same idx _, fun j => s.nodeAt_writeNode idx j _⟩,
    fun s idx _ => ⟨_, rfl, rfl, s.nodeValid_writeNode_same idx _, fun j => s.nodeAt_writeNode idx j _⟩,
    encode_treeInt_toNat, encode_treeLeaf_toNat,
    fun _ hkey hres => decode_illegal_of_reservedBitsSet (reservedBitsSet_of_treeLeaf_format hkey hres)⟩

/-! ### ROOT_SET and ROOT_CLR -/

/-- Without a valid root the first bit raises (R161). -/
theorem stepBit_without_root (b : Bool) {s : State} (hv : s.rootValid = false) :
    stepBit b s = .ended (s.endDec.setErr .missingTree) := by
  rw [stepBit_eq, bitResult, if_pos hv]

theorem execDecBits_without_root {n : Nat} (data : BitVec 16) {s : State} (hlo : 1 ≤ n) (hhi : n ≤ 16)
    (ha : s.decActive = true) (hv : s.rootValid = false) :
    exec (.decBits n data) s = .next (s.endDec.setErr .missingTree) := by
  have hlen : (dataBits n data).length = n := dataBits_length hhi data
  rw [execDecBits_of_active n data ha]
  cases hbits : dataBits n data with
  | nil => rw [hbits, List.length_nil] at hlen; omega
  | cons b bs => rw [walkBits, stepBit_without_root b hv, Flow.andThen_ended, Flow.outcome_ended]

theorem execDecStart_without_root {s : State} (hv : s.rootValid = false) :
    exec .decStart s = .next (s.clearDecoder.endDec.setErr .missingTree) := by
  rcases openWalk_cases s with ⟨-, he⟩ | ⟨hv', -⟩ | ⟨n, hv', -⟩
  · exact congrArg Flow.outcome he
  · exact absurd (hv.symm.trans hv') nofun
  · exact absurd (hv.symm.trans hv') nofun

/-- In a session DEC_END compares CUR with ROOT and reads neither ROOT_VALID nor TREE (R163). -/
theorem execDecEnd_of_active {s : State} (ha : s.decActive = true) :
    exec .decEnd s = .next (if s.cur = s.root then s.endDec else s.endDec.setErr .truncated) := by
  rcases closeWalk_cases s with ⟨hn, -⟩ | ⟨-, hc, he⟩ | ⟨-, hc, he⟩
  · exact absurd (ha.symm.trans hn) nofun
  · rw [if_pos hc]
    exact congrArg Flow.outcome he
  · rw [if_neg hc]
    exact congrArg Flow.outcome he

/-- Settles O24: the decoder's commands after a ROOT_CLR are those of a state without a valid root. -/
theorem rootCommandsSetAndClear : Obligations.RootCommandsSetAndClear := by
  refine ⟨fun s idx => ⟨_, rfl, rfl, ?root, ?rises⟩,
    fun s => ⟨_, rfl, rfl, ?falls, fun n data hlo hhi ha => execDecBits_without_root data hlo hhi ha rfl,
      execDecStart_without_root rfl, fun ha hc => ?atRoot, fun ha hc => ?awayFromRoot⟩,
    encode_rootSet_toNat, rfl⟩
  case root =>
    rw [readValue_root]
    exact toNat_zext32 idx (by decide)
  case rises | falls =>
    obtain ⟨-, -, -, hroot, -⟩ := State.status_views _
    exact hroot
  case atRoot =>
    exact (execDecEnd_of_active (s := { s with rootValid := false }) ha).trans (congrArg _ (if_pos hc))
  case awayFromRoot =>
    exact (execDecEnd_of_active (s := { s with rootValid := false }) ha).trans (congrArg _ (if_neg hc))

/-! ### CODE_LEN -/

theorem State.codeAt_eraseCode_other (s : State) {c d : Symbol} (h : d ≠ c) :
    (s.eraseCode c).codeAt d = s.codeAt d := by
  rw [State.codeAt_eraseCode, if_neg h]

theorem codeString_replicate (len : BitVec 8) (b : Bool) :
    (CodeEntry.mk len (Vector.replicate 255 b)).codeString = List.replicate len.toNat b := by
  have hlen : len.toNat ≤ 255 := Nat.le_of_lt_succ len.isLt
  rw [CodeEntry.codeString, Vector.toList_replicate, List.take_replicate, Nat.min_eq_left hlen]

/-- Only SRST, CODE_LEN and CODE_BITS write CODE, and of the latter two only CODE_LEN with LEN 0 clears a valid bit. -/
theorem exec_deletes_code {i : Instr} {s t : State} {c : Symbol} (h : exec i s = .next t) (hi : i ≠ .srst)
    (hs : s.codeValid c = true) (ht : t.codeValid c = false) : i = .codeLen c 0#8 := by
  have hf := exec_frame h
  cases i with
  | srst => exact absurd rfl hi
  | codeLen d len =>
    have hv := execCodeLen_codeValid h c
    by_cases hd : c = d
    · subst hd
      obtain rfl : len = 0#8 := by simpa [ht] using hv
      rfl
    · simp [hd, hs, ht] at hv
  | codeBits d k data =>
    have hv := execCodeBits_codeValid h c
    simp [hs, ht] at hv
  | _ =>
    have hv := congrFun (State.codeValid_congr (congrArg State.code hf :)) c
    exact absurd (ht.symm.trans (hv.trans hs)) nofun

/-- Settles O25: CODE_LEN is an erasure or a write of 255 zeros, and the frames name no other command that deletes. -/
theorem codeLenDefinesOrDeletes : Obligations.CodeLenDefinesOrDeletes := by
  refine ⟨fun s c => ?deletes, fun s c len hlen => ?defines, fun i s t c => exec_deletes_code, encode_codeLen_toNat⟩
  case deletes =>
    have h : exec (.codeLen c 0#8) s = .next (s.eraseCode c) := rfl
    exact ⟨_, h, rfl, by simp [execCodeLen_codeValid h], fun d => s.codeAt_eraseCode_other⟩
  case defines =>
    have h : exec (.codeLen c len) s = .next (s.writeCode c ⟨len, Vector.replicate 255 false⟩) := if_neg hlen
    exact ⟨_, _, h, rfl, s.codeAt_writeCode_same c _, rfl, fun p hp => Vector.getElem_replicate hp,
      codeString_replicate len false, fun d => s.codeAt_writeCode_other _⟩

end Sys2Proof.Machine
end

section
/-! The encoder commands ENC_START, ENC_SYM and ENC_FLUSH and the packer under them (42_encoder.md R140 to R143), and
that none of them sees the decoder (60_exceptions.md R192). -/

namespace Sys2Proof.Machine

/-! ### The packer -/

/-- Where EOUT has room for the full bytes, a string of bits goes through the packer into EOUT (R140). -/
theorem appendBits_fills_bytes {s : State} {bs : List Bool}
    (hroom : s.eout.length + (s.pcnt.toNat + bs.length) / 8 ≤ Config.eoutDepth) :
    ∃ t bytes, appendBits bs s = .go t ∧ t = { s with eout := s.eout ++ bytes, pbuf := t.pbuf, pcnt := t.pcnt } ∧
      bytes.length = (s.pcnt.toNat + bs.length) / 8 ∧ t.pcnt.toNat = (s.pcnt.toNat + bs.length) % 8 ∧
      bytes.flatMap byteBits ++ t.heldBits = s.heldBits ++ bs ∧ (s.packerClear → t.packerClear) := by
  rcases appendBits_cases bs s with ⟨p, c, new, hw, hc, hlen, hbits, hclear, -⟩ | ⟨hfull, -⟩
  · exact ⟨_, new, hw, rfl, hlen, hc, hbits, hclear⟩
  · omega

/-- Settles O27: one bit is written to its place in PBUF, and a string of them is the full bytes and the bits left. -/
theorem appendedBitsFillBytes : Obligations.AppendedBitsFillBytes := by
  refine ⟨fun s b h7 => ?within, fun s b h7 hroom => ?full, fun s bs hclear hroom => ?string⟩
  case within =>
    refine ⟨_, appendBit_within_byte h7, rfl, fun i hi => (getLsbD_setBit _ _ _ _ hi).trans ?_⟩
    have hp := pcnt_lt s
    exact if_congr (by omega) rfl rfl
  case full => exact ⟨_, _, appendBit_full_byte h7 hroom, rfl, fun i hi => getLsbD_setBit _ _ _ _ hi⟩
  case string =>
    obtain ⟨t, bytes, hgo, ht, hlen, hc, hbits, hkeep⟩ := appendBits_fills_bytes hroom
    exact ⟨t, bytes, hgo, ht, hlen, hc, hbits, hkeep hclear⟩

/-- The byte made of a string has the string's bits from bit 7 down, and 0 past its end (R87). -/
theorem byteOfBits_getLsbD (bs : List Bool) {j : Nat} (hj : j < 8) :
    (byteOfBits bs).getLsbD (7 - j) = bs.getD j false :=
  (getLsbD_foldl_setBit (w := 8) _ 0#8 hj le_rfl).trans (if_pos hj)

/-- Where the packer's low bits are 0, PBUF is the byte made of the bits held (R21). -/
theorem pbuf_eq_byteOfBits {s : State} (h : s.packerClear) : s.pbuf = byteOfBits s.heldBits := by
  apply BitVec.eq_of_getLsbD_eq
  intro i hi
  obtain ⟨j, hj, rfl⟩ : ∃ j, j < 8 ∧ i = 7 - j := ⟨7 - i, by omega, by omega⟩
  rw [byteOfBits_getLsbD _ hj, State.heldBits, List.getD_eq_getElem?_getD, List.getElem?_take]
  split
  case isTrue => simp [hj]
  case isFalse hk => exact h _ (by omega)

/-! ### ENC_START and ENC_FLUSH -/

/-- Settles O28: the error bits cleared are the encoder's two. -/
theorem encStartOpensASession : Obligations.EncStartOpensASession := by
  refine ⟨rfl, fun s => ⟨_, rfl, rfl, fun e => ?_⟩⟩
  have herr := s.hasErr_clearErrs encErrs e
  rwa [encErrs_bit, Bool.not_or, ← Bool.and_assoc] at herr

theorem execEncFlush_of_empty {s : State} (ha : s.encActive = true) (hp : s.pcnt = 0#3) :
    exec .encFlush s = .next s.endEnc := by
  simp [exec, execEncFlush, flushPacker, ha, hp]

theorem execEncFlush_of_partial {s : State} (ha : s.encActive = true) (hp : s.pcnt ≠ 0#3)
    (hroom : s.eout.length < Config.eoutDepth) :
    exec .encFlush s =
      .next { s with eout := s.eout ++ [s.pbuf], pbuf := 0x00#8, pcnt := 0#3, encActive := false } := by
  simp [exec, execEncFlush, flushPacker, ha, hp, pushEout_go s.pbuf hroom, State.endEnc]

/-- Settles O30: the three cases of the rule, and that the byte pushed is the bits held and then zeros. -/
theorem encFlushPushesThePartialByte : Obligations.EncFlushPushesThePartialByte := by
  refine ⟨rfl, fun s ha => ?noSession, fun s => execEncFlush_of_empty, fun s ha hp hroom => ?partialByte⟩
  case noSession =>
    obtain ⟨-, hflush⟩ := exec_outside_encode_session ha
    exact ⟨_, hflush, rfl, s.hasErr_setErr _⟩
  case partialByte => exact ⟨execEncFlush_of_partial ha hp (by omega), pbuf_eq_byteOfBits⟩

/-! ### ENC_SYM -/

theorem encode_encSym_toNat (c : Symbol) : (encode (.encSym c)).toNat = 0xA0000000 + c.toNat :=
  toNat_or_zext32 (by decide) (by decide)

theorem execEncSym_of_unknown {s : State} {c : Symbol} (ha : s.encActive = true) (hc : s.codeAt c = none) :
    exec (.encSym c) s = .next (s.endEnc.setErr .unknownSymbol) :=
  execEncSym_next_iff.2 (.inr (.inl ⟨ha, hc, rfl⟩))

theorem execEncSym_of_code {s t : State} {c : Symbol} {x : CodeEntry} (ha : s.encActive = true)
    (hc : s.codeAt c = some x) (hgo : appendBits x.codeString s = .go t) :
    exec (.encSym c) s = .next (t.countEncoded x.len) :=
  execEncSym_next_iff.2 (.inr (.inr ⟨x, t, ha, hc, hgo, rfl⟩))

/-- The counters after an ENC_SYM, modulo 2^32 (R142). -/
theorem State.countEncoded_toNat (s : State) (len : BitVec 8) :
    (s.countEncoded len).encNbits.toNat = (s.encNbits.toNat + len.toNat) % 2 ^ 32 ∧
      (s.countEncoded len).encNsyms.toNat = (s.encNsyms.toNat + 1) % 2 ^ 32 := by
  refine ⟨?_, toNat_add_ofNat s.encNsyms 1⟩
  rw [State.countEncoded, BitVec.toNat_add, toNat_zext32 len (by decide)]

/-- Settles O29: no code is longer than 255 bits, so the room for 32 bytes is room for all that the code fills. -/
theorem encSymAppendsTheCode : Obligations.EncSymAppendsTheCode := by
  refine ⟨encode_encSym_toNat, fun s c ha => ?noSession, fun s c ha hc => ?unknown, fun s c x ha hc hfree => ?code⟩
  case noSession =>
    obtain ⟨hsym, -⟩ := exec_outside_encode_session ha
    exact ⟨_, hsym c, rfl, s.hasErr_setErr _⟩
  case unknown =>
    have hnone : s.codeAt c = none := by simpa [State.codeValid] using hc
    exact ⟨_, execEncSym_of_unknown ha hnone, rfl, s.endEnc.hasErr_setErr _⟩
  case code =>
    have hlen := codeString_length x
    have hx := x.len.isLt
    have hp := pcnt_lt s
    obtain ⟨t, bytes, hgo, ht, hbytes, hcnt, hbits, hkeep⟩ :=
      appendBits_fills_bytes (s := s) (bs := x.codeString) (by omega)
    rw [hlen] at hbytes hcnt
    have hnb : t.encNbits = s.encNbits := (congrArg State.encNbits ht :)
    have hns : t.encNsyms = s.encNsyms := (congrArg State.encNsyms ht :)
    obtain ⟨hbitCount, hsymCount⟩ := t.countEncoded_toNat x.len
    refine ⟨_, bytes, execEncSym_of_code ha hc hgo, ?_, hnb ▸ hbitCount, hns ▸ hsymCount, hbits, hbytes, by omega, hcnt,
      hkeep, fun hl h7 => ?_⟩
    · rw [ht]
      rfl
    · rw [hl, h7] at hbytes hcnt
      exact ⟨hbytes, BitVec.eq_of_toNat_eq hcnt⟩

/-! ### The decoder's state is not seen -/

theorem appendBit_withDecoderOf {b : Bool} {s t : State} (u : State) (h : appendBit b s = .go t) :
    appendBit b (s.withDecoderOf u) = .go (t.withDecoderOf u) := by
  rcases appendBit_cases b s with ⟨h7, he⟩ | ⟨h7, hroom, he⟩ | ⟨-, -, he⟩ <;> rw [he] at h <;> cases h
  · exact appendBit_within_byte (s := s.withDecoderOf u) h7
  · exact appendBit_full_byte (s := s.withDecoderOf u) h7 hroom

theorem appendBits_withDecoderOf {bs : List Bool} {s t : State} (u : State) (h : appendBits bs s = .go t) :
    appendBits bs (s.withDecoderOf u) = .go (t.withDecoderOf u) := by
  induction bs generalizing s with
  | nil =>
    cases h
    rfl
  | cons b bs ih =>
    obtain ⟨v, hv, ht⟩ := Flow.andThen_eq_go.1 h
    exact Flow.andThen_eq_go.2 ⟨v.withDecoderOf u, appendBit_withDecoderOf u hv, ih ht⟩

/-- With the decoder of any other state an encoder command leaves the same encoder. -/
theorem exec_withDecoderOf {i : Instr} {s t : State} (hi : encodes i = true) (h : exec i s = .next t) (u : State) :
    exec i (s.withDecoderOf u) = .next (t.withDecoderOf u) := by
  cases i with
  | encStart =>
    cases h
    rfl
  | encSym c =>
    rcases execEncSym_next_iff.1 h with ⟨ha, rfl⟩ | ⟨ha, hc, rfl⟩ | ⟨x, v, ha, hc, hv, rfl⟩
    · exact execEncSym_next_iff.2 (.inl ⟨ha, rfl⟩)
    · exact execEncSym_of_unknown (s := s.withDecoderOf u) ha hc
    · exact execEncSym_of_code (s := s.withDecoderOf u) ha hc (appendBits_withDecoderOf u hv)
  | encFlush =>
    rcases execEncFlush_next h with ⟨ha, rfl⟩ | ⟨ha, hp, rfl⟩ | ⟨ha, hp, hroom, rfl⟩
    · obtain ⟨-, hflush⟩ := exec_outside_encode_session (s := s.withDecoderOf u) ha
      exact hflush
    · exact execEncFlush_of_empty (s := s.withDecoderOf u) ha hp
    · exact execEncFlush_of_partial (s := s.withDecoderOf u) ha hp hroom
  | _ => exact absurd hi nofun

/-- Settles O40: the second part is the first with `s` for the other state, since `s.withDecoderOf s` is `s`. -/
theorem encoderIgnoresTheDecoder : Obligations.EncoderIgnoresTheDecoder := by
  intro i s t u hi h
  have hencodes : encodes i = true := by
    rcases hi with rfl | ⟨c, rfl⟩ | rfl <;> rfl
  have hown : exec i s = .next (t.withDecoderOf s) := exec_withDecoderOf hencodes h s
  exact ⟨exec_withDecoderOf hencodes h u, Host.Outcome.next.inj (h.symm.trans hown)⟩

end Sys2Proof.Machine
end

section
/-! One bit of a decode session (43_decoder.md R161): what it leads to in each case of `step_bit`, through a DEC_BITS of
one bit. -/

namespace Sys2Proof.Machine

/-! ### What a bit leads to -/

theorem bitResult_of_invalid_root (b : Bool) {s : State} (hv : s.rootValid = true) (hr : s.nodeAt s.root = none) :
    bitResult b s = .error .malformedTree := by
  simp [bitResult, hv, hr]

theorem bitResult_of_leaf_root (b : Bool) {s : State} {sym : Symbol} (hv : s.rootValid = true)
    (hr : s.nodeAt s.root = some (.leaf sym)) : bitResult b s = .ok (.emit sym) := by
  simp [bitResult, hv, hr]

section
variable {s : State} {l r : NodeIdx} (hv : s.rootValid = true) (hr : s.nodeAt s.root = some (.internal l r))
include hv hr

/-- Under an internal root CUR must be internal too. -/
theorem bitResult_of_cur_not_internal (b : Bool) (hc : ∀ left right, s.nodeAt s.cur ≠ some (.internal left right)) :
    bitResult b s = .error .malformedTree := by
  rcases hn : s.nodeAt s.cur with _ | (sym | ⟨left, right⟩)
  · simp [bitResult, hv, hr, hn]
  · simp [bitResult, hv, hr, hn]
  · exact absurd hn (hc left right)

section
variable {b : Bool} {left right nxt : NodeIdx} (hc : s.nodeAt s.cur = some (.internal left right))
  (hn : (if b then right else left) = nxt)
include hc hn

theorem bitResult_of_invalid_child (hx : s.nodeAt nxt = none) : bitResult b s = .error .malformedTree := by
  simp [bitResult, hv, hr, hc, hn, hx]

theorem bitResult_of_leaf_child {sym : Symbol} (hx : s.nodeAt nxt = some (.leaf sym)) :
    bitResult b s = .ok (.emit sym) := by
  simp [bitResult, hv, hr, hc, hn, hx]

theorem bitResult_of_internal_child {l' r' : NodeIdx} (hx : s.nodeAt nxt = some (.internal l' r')) :
    bitResult b s = .ok (.move nxt) := by
  simp [bitResult, hv, hr, hc, hn, hx]

end
end

/-! ### DEC_BITS of one bit -/

section
variable {s : State} {data : BitVec 16} (ha : s.decActive = true)
include ha

theorem execDecBits_one : exec (.decBits 1 data) s = (stepBit (data.getLsbD 15) s).outcome := by
  rw [execDecBits_of_active 1 data ha, show dataBits 1 data = [data.getLsbD 15] from rfl, walkBits]
  cases stepBit (data.getLsbD 15) s <;> rfl

theorem execDecBits_one_of_error {e : ErrCause} (hb : bitResult (data.getLsbD 15) s = .error e) :
    exec (.decBits 1 data) s = .next (s.endDec.setErr e) := by
  rw [execDecBits_one ha, stepBit_eq, hb, Flow.outcome_ended]

theorem execDecBits_one_of_emit {sym : Symbol} (hroom : s.dout.length < Config.doutDepth)
    (hb : bitResult (data.getLsbD 15) s = .ok (.emit sym)) :
    exec (.decBits 1 data) s = .next { s with
      dout := s.dout ++ [sym], decNsyms := s.decNsyms + 1#32, decNbits := s.decNbits + 1#32, cur := s.root } := by
  rw [execDecBits_one ha, stepBit_eq, hb]
  rcases emitSymbol_cases sym s.countBit with ⟨-, he⟩ | ⟨hfull, -⟩
  · exact congrArg Flow.outcome he
  · exact absurd hroom (Nat.not_lt.2 hfull)

theorem execDecBits_one_of_move {nxt : NodeIdx} (hb : bitResult (data.getLsbD 15) s = .ok (.move nxt)) :
    exec (.decBits 1 data) s = .next { s with decNbits := s.decNbits + 1#32, cur := nxt } := by
  rw [execDecBits_one ha, stepBit_eq, hb]
  rfl

end

/-- Settles O33: what the bit leads to in each case, and what DEC_BITS of one bit makes of it. -/
theorem oneBitStepsTheWalk : Obligations.OneBitStepsTheWalk := by
  intro s data nxt ha hfree
  have hroom : s.dout.length < Config.doutDepth := by omega
  refine ⟨fun hv => execDecBits_without_root data le_rfl (by decide) ha hv,
    fun hv hr => execDecBits_one_of_error ha (bitResult_of_invalid_root _ hv hr),
    fun sym hv hr => execDecBits_one_of_emit ha hroom (bitResult_of_leaf_root _ hv hr),
    fun l r hv hr => ⟨fun hc => ?curInvalid, fun sym hc => ?curLeaf, fun left right hc h0 h1 => ?curInternal⟩⟩
  case curInvalid | curLeaf =>
    exact execDecBits_one_of_error ha (bitResult_of_cur_not_internal hv hr _ (by simp [hc]))
  case curInternal =>
    have hn : (if data.getLsbD 15 then right else left) = nxt := by
      split
      case isTrue hb => exact (h1 hb).symm
      case isFalse hb => exact (h0 (Bool.eq_false_of_not_eq_true hb)).symm
    exact ⟨fun hx => execDecBits_one_of_error ha (bitResult_of_invalid_child hv hr hc hn hx),
      fun sym hx => execDecBits_one_of_emit ha hroom (bitResult_of_leaf_child hv hr hc hn hx),
      fun l' r' hx => execDecBits_one_of_move ha (bitResult_of_internal_child hv hr hc hn hx)⟩

end Sys2Proof.Machine
end

section
/-! DEC_START and DEC_END (43_decoder.md R160, R163): the state each leaves in the order of its checks, and that a
single-leaf root keeps CUR at ROOT. -/

namespace Sys2Proof.Machine

/-! ### DEC_START -/

theorem execDecStart_of_invalid_root {s : State} (hv : s.rootValid = true) (hr : s.nodeAt s.root = none) :
    exec .decStart s = .next (s.clearDecoder.endDec.setErr .malformedTree) := by
  rcases openWalk_cases s with ⟨hf, -⟩ | ⟨-, -, he⟩ | ⟨n, -, hn, -⟩
  · exact absurd (hv.symm.trans hf) nofun
  · exact congrArg Flow.outcome he
  · exact absurd (hr.symm.trans hn) nofun

theorem execDecStart_of_valid_root {s : State} {n : Node} (hv : s.rootValid = true) (hr : s.nodeAt s.root = some n) :
    exec .decStart s = .next { s.clearDecoder with cur := s.root, decActive := true } := by
  rcases openWalk_cases s with ⟨hf, -⟩ | ⟨-, hn, -⟩ | ⟨m, -, -, he⟩
  · exact absurd (hv.symm.trans hf) nofun
  · exact absurd (hr.symm.trans hn) nofun
  · exact congrArg Flow.outcome he

/-- The error bits DEC_START leaves where it raises nothing: all but STATUS[13:10] (R160). -/
theorem State.hasErr_clearDecoder (s : State) (e : ErrCause) :
    s.clearDecoder.hasErr e = (s.hasErr e && !(decide (10 ≤ e.bitNo) && decide (e.bitNo ≤ 13))) := by
  have hbit : decErrs.getLsbD (e.bitNo - 8) = (decide (10 ≤ e.bitNo) && decide (e.bitNo ≤ 13)) := by
    cases e <;> decide
  exact (s.hasErr_clearErrs decErrs e).trans (by rw [hbit])

/-- The error bits DEC_START leaves where it raises a cause. -/
theorem State.hasErr_clearDecoder_setErr (s : State) (cause e : ErrCause) :
    (s.clearDecoder.endDec.setErr cause).hasErr e =
      (decide (e = cause) || s.hasErr e && !(decide (10 ≤ e.bitNo) && decide (e.bitNo ≤ 13))) := by
  rw [State.hasErr_setErr, Bool.or_comm, ← s.hasErr_clearDecoder]
  rfl

/-- Settles O32: DEC_START checks ROOT_VALID first and then the root's node. -/
theorem decStartOpensASession : Obligations.DecStartOpensASession := by
  refine ⟨rfl, fun s => ?_⟩
  rcases openWalk_cases s with ⟨hv, he⟩ | ⟨hv, hr, he⟩ | ⟨n, hv, hr, he⟩
  · exact ⟨_, congrArg Flow.outcome he, fun _ => ⟨rfl, s.hasErr_clearDecoder_setErr _⟩, by simp [hv], by simp [hv]⟩
  · have hn : s.nodeValid s.root = false := by rw [State.nodeValid, hr, Option.isSome_none]
    exact ⟨_, congrArg Flow.outcome he, by simp [hv], fun _ _ => ⟨rfl, s.hasErr_clearDecoder_setErr _⟩, by simp [hn]⟩
  · have hn : s.nodeValid s.root = true := by rw [State.nodeValid, hr, Option.isSome_some]
    exact ⟨_, congrArg Flow.outcome he, by simp [hv], by simp [hn], fun _ _ => ⟨rfl, s.hasErr_clearDecoder⟩⟩

/-! ### DEC_END -/

/-- A session whose tree is one leaf, with CUR at ROOT. -/
structure State.AtLeafRoot (s : State) (sym : Symbol) : Prop where
  rootValid : s.rootValid = true
  root_leaf : s.nodeAt s.root = some (.leaf sym)
  decActive : s.decActive = true
  cur_eq : s.cur = s.root

/-- Each bit emits the leaf's symbol and leaves CUR at ROOT (R161). -/
theorem State.AtLeafRoot.walkBits_keeps {bs : List Bool} {s t : State} {sym : Symbol} (h : s.AtLeafRoot sym)
    (hw : (walkBits bs s).outcome = .next t) : t.AtLeafRoot sym := by
  induction bs generalizing s with
  | nil =>
    cases hw
    exact h
  | cons b bs ih =>
    rw [walkBits, stepBit_eq, bitResult_of_leaf_root b h.rootValid h.root_leaf] at hw
    rcases emitSymbol_cases sym s.countBit with ⟨-, he⟩ | ⟨-, he⟩ <;> simp only [he] at hw
    · exact ih (s := { s with
          decNbits := s.decNbits + 1#32, dout := s.dout ++ [sym], decNsyms := s.decNsyms + 1#32, cur := s.root })
        ⟨h.rootValid, h.root_leaf, h.decActive, rfl⟩ hw
    · cases hw

theorem State.AtLeafRoot.decBits_keeps {n : Nat} {data : BitVec 16} {s t : State} {sym : Symbol}
    (h : s.AtLeafRoot sym) (he : exec (.decBits n data) s = .next t) : t.AtLeafRoot sym :=
  h.walkBits_keeps ((execDecBits_of_active n data h.decActive).symm.trans he)

theorem execDecEnd_at_root {s : State} (ha : s.decActive = true) (hc : s.cur = s.root) :
    exec .decEnd s = .next s.endDec := by
  rw [execDecEnd_of_active ha, if_pos hc]

theorem execDecEnd_away_from_root {s : State} (ha : s.decActive = true) (hc : s.cur ≠ s.root) :
    exec .decEnd s = .next (s.endDec.setErr .truncated) := by
  rw [execDecEnd_of_active ha, if_neg hc]

/-- A session without a bit pushes nothing and is not truncated. -/
theorem empty_decode_session {s : State} (hv : s.rootValid = true) (hn : s.nodeValid s.root = true) :
    ∃ u, execAll [.decStart, .decEnd] s = .next u ∧ u.dout = s.dout ∧ u.hasErr .truncated = false :=
  ⟨_, execAll_decStart_decEnd hv hn, rfl, (s.hasErr_clearDecoder .truncated).trans (Bool.and_false _)⟩

theorem execDecEnd_after_leaf_bits {s : State} (sym : Symbol) (n : Nat) (data : BitVec 16) (u : State)
    (hv : s.rootValid = true) (hr : s.nodeAt s.root = some (.leaf sym)) (ha : s.decActive = true) (hc : s.cur = s.root)
    (he : exec (.decBits n data) s = .next u) : exec .decEnd u = .next u.endDec := by
  have hu : u.AtLeafRoot sym := State.AtLeafRoot.decBits_keeps ⟨hv, hr, ha, hc⟩ he
  exact execDecEnd_at_root hu.decActive hu.cur_eq

/-- Settles O35: the three cases of the rule, and that CUR is ROOT after an empty session or under a single leaf. -/
theorem decEndReportsTruncation : Obligations.DecEndReportsTruncation := by
  refine ⟨rfl, fun s => ?_⟩
  by_cases ha : s.decActive = true
  · by_cases hc : s.cur = s.root
    · exact ⟨_, execDecEnd_at_root ha hc, by simp [ha], fun _ _ => rfl, fun _ h => absurd hc h,
        empty_decode_session, execDecEnd_after_leaf_bits⟩
    · exact ⟨_, execDecEnd_away_from_root ha hc, by simp [ha], fun _ h => absurd h hc,
        fun _ _ => ⟨rfl, s.endDec.hasErr_setErr _⟩, empty_decode_session, execDecEnd_after_leaf_bits⟩
  · obtain ⟨-, hend⟩ := exec_outside_decode_session (Bool.eq_false_of_not_eq_true ha)
    exact ⟨_, hend, fun _ => ⟨rfl, s.hasErr_setErr _⟩, fun h => absurd h ha, fun h => absurd h ha,
      empty_decode_session, execDecEnd_after_leaf_bits⟩

end Sys2Proof.Machine
end

section
/-! The decoder commands do not see the encoder (43_decoder.md, 60_exceptions.md R192). -/

namespace Sys2Proof.Machine

/-! ### The walk -/

/-- What a command has come to, with everything of the encoder taken from `u`. -/
def Flow.withEncoderOf (f : Flow) (u : State) : Flow :=
  match f with
  | .go s => .go (s.withEncoderOf u)
  | .ended s => .ended (s.withEncoderOf u)
  | .stop e => .stop e

theorem Flow.outcome_withEncoderOf {f : Flow} {t : State} (u : State) (h : f.outcome = .next t) :
    (f.withEncoderOf u).outcome = .next (t.withEncoderOf u) := by
  rcases (f.outcome_next_iff t).1 h with rfl | rfl <;> rfl

theorem Flow.andThen_withEncoderOf (f : Flow) {k : State → Flow} {u : State}
    (hk : ∀ s, k (s.withEncoderOf u) = (k s).withEncoderOf u) :
    (f.withEncoderOf u).andThen k = (f.andThen k).withEncoderOf u := by
  cases f with
  | go s => exact hk s
  | ended | stop => rfl

theorem emitSymbol_withEncoderOf (sym : Symbol) (s u : State) :
    emitSymbol sym (s.withEncoderOf u) = (emitSymbol sym s).withEncoderOf u := by
  have hpush : pushDout sym (s.withEncoderOf u) = (pushDout sym s).withEncoderOf u := by
    rw [pushDout, pushDout, apply_ite (Flow.withEncoderOf · u)]
    rfl
  rw [emitSymbol, hpush, Flow.andThen_withEncoderOf _ fun _ => rfl, ← emitSymbol]

theorem stepBit_withEncoderOf (b : Bool) (s u : State) :
    stepBit b (s.withEncoderOf u) = (stepBit b s).withEncoderOf u := by
  have hresult : bitResult b (s.withEncoderOf u) = bitResult b s := rfl
  rw [stepBit_eq, stepBit_eq, hresult]
  rcases bitResult b s with e | (sym | nxt)
  · rfl
  · exact emitSymbol_withEncoderOf sym s.countBit u
  · rfl

theorem walkBits_withEncoderOf (bs : List Bool) (s u : State) :
    walkBits bs (s.withEncoderOf u) = (walkBits bs s).withEncoderOf u := by
  induction bs generalizing s with
  | nil => rfl
  | cons b bs ih => rw [walkBits, stepBit_withEncoderOf, Flow.andThen_withEncoderOf _ ih, ← walkBits]

/-! ### The commands -/

section
variable {s t : State} (u : State)

theorem execDecStart_withEncoderOf (h : exec .decStart s = .next t) :
    exec .decStart (s.withEncoderOf u) = .next (t.withEncoderOf u) := by
  rcases execDecStart_next h with ⟨hv, rfl⟩ | ⟨hv, hr, rfl⟩ | ⟨n, hv, hr, rfl⟩
  · exact execDecStart_without_root (s := s.withEncoderOf u) hv
  · exact execDecStart_of_invalid_root (s := s.withEncoderOf u) hv hr
  · exact execDecStart_of_valid_root (s := s.withEncoderOf u) hv hr

theorem execDecBits_withEncoderOf {n : Nat} {data : BitVec 16} (h : exec (.decBits n data) s = .next t) :
    exec (.decBits n data) (s.withEncoderOf u) = .next (t.withEncoderOf u) := by
  by_cases ha : s.decActive = true
  · rw [execDecBits_of_active n data ha] at h
    rw [execDecBits_of_active (s := s.withEncoderOf u) n data ha, walkBits_withEncoderOf]
    exact Flow.outcome_withEncoderOf u h
  · have ha : s.decActive = false := Bool.eq_false_of_not_eq_true ha
    obtain ⟨hbits, -⟩ := exec_outside_decode_session ha
    obtain ⟨hbits', -⟩ := exec_outside_decode_session (s := s.withEncoderOf u) ha
    obtain rfl := Host.Outcome.next.inj ((hbits n data).symm.trans h)
    exact hbits' n data

theorem execDecEnd_withEncoderOf (h : exec .decEnd s = .next t) :
    exec .decEnd (s.withEncoderOf u) = .next (t.withEncoderOf u) := by
  rcases execDecEnd_next h with ⟨ha, rfl⟩ | ⟨ha, hc, rfl⟩ | ⟨ha, hc, rfl⟩
  · obtain ⟨-, hend⟩ := exec_outside_decode_session (s := s.withEncoderOf u) ha
    exact hend
  · exact execDecEnd_at_root (s := s.withEncoderOf u) ha hc
  · exact execDecEnd_away_from_root (s := s.withEncoderOf u) ha hc

end

/-- Settles O39: the second part is the first with `s` for the other state, since `s.withEncoderOf s` is `s`. -/
theorem decoderIgnoresTheEncoder : Obligations.DecoderIgnoresTheEncoder := by
  intro i s t u hi h
  have hsame (v : State) : exec i (s.withEncoderOf v) = .next (t.withEncoderOf v) := by
    rcases hi with rfl | ⟨n, data, rfl⟩ | rfl
    · exact execDecStart_withEncoderOf v h
    · exact execDecBits_withEncoderOf v h
    · exact execDecEnd_withEncoderOf v h
  have hown : exec i s = .next (t.withEncoderOf s) := hsame s
  exact ⟨hsame u, Host.Outcome.next.inj (h.symm.trans hown)⟩

end Sys2Proof.Machine
end

section
/-! The error bits (60_exceptions.md R180 to R186): what each command clears and may raise, whatever ERR holds, and then
what each step does to every bit. -/

namespace Sys2Proof.Machine

/-! ### What a command clears and may raise -/

/-- The error bits a command clears before its own checks: SRST all, DEC_START 10 to 13, ENC_START 14 and 15 (R182). -/
def clearsErr (i : Instr) (e : ErrCause) : Bool :=
  match i with
  | .srst => true
  | .decStart => decide (10 ≤ e.bitNo) && decide (e.bitNo ≤ 13)
  | .encStart => decide (14 ≤ e.bitNo)
  | _ => false

/-- R180, read by command: the condition in which a command may raise a cause. -/
def CommandRaises (i : Instr) (s : State) (c : ErrCause) : Prop :=
  match c with
  | .illegalCmd => False
  | .cmdOvf => False
  | .missingTree => (i = .decStart ∨ ∃ n data, i = .decBits n data) ∧ s.rootValid = false
  | .malformedTree =>
    (i = .decStart ∧ s.nodeValid s.root = false ∨ ∃ n data, i = .decBits n data) ∧ s.rootValid = true
  | .truncated => i = .decEnd ∧ s.cur ≠ s.root
  | .decSeq => ((∃ n data, i = .decBits n data) ∨ i = .decEnd) ∧ s.decActive = false
  | .unknownSymbol => ∃ sym, i = .encSym sym ∧ s.codeValid sym = false
  | .encSeq => ((∃ sym, i = .encSym sym) ∨ i = .encFlush) ∧ s.encActive = false

/-- What a command that leads from `s` to `t` does to ERR: from `s` with any other error bits it leaves `t` but for
ERR, where it has cleared its own bits and set at most one, the same for all. -/
def ErrEffect (i : Instr) (s t : State) : Prop :=
  ∃ raised : Option ErrCause, (∀ c, raised = some c → CommandRaises i s c) ∧
    ∀ x, ∃ t', exec i (s.withErr x) = .next t' ∧ t'.withErr t.err = t ∧
      ∀ e, t'.hasErr e = ((s.withErr x).hasErr e && !clearsErr i e || decide (raised = some e))

@[simp] theorem State.hasErr_endDec (s : State) (e : ErrCause) : s.endDec.hasErr e = s.hasErr e := rfl

/-! A command that clears nothing has its effect on ERR by what it leaves from each value of ERR. -/

section
variable {i : Instr} {s t : State} (hclears : ∀ e, clearsErr i e = false)
include hclears

theorem ErrEffect.of_keeps (h : ∀ x, exec i (s.withErr x) = .next (t.withErr x)) : ErrEffect i s t := by
  refine ⟨none, nofun, fun x => ⟨t.withErr x, h x, rfl, fun e => ?_⟩⟩
  have hkept : (t.withErr x).hasErr e = (s.withErr x).hasErr e := rfl
  simp [hkept, hclears]

theorem ErrEffect.of_raise {c : ErrCause} (hc : CommandRaises i s c)
    (h : ∀ x, exec i (s.withErr x) = .next ((t.withErr x).setErr c)) : ErrEffect i s (t.setErr c) := by
  refine ⟨some c, fun _ hc' => Option.some.inj hc' ▸ hc, fun x => ⟨(t.withErr x).setErr c, h x, rfl, fun e => ?_⟩⟩
  have hkept : (t.withErr x).hasErr e = (s.withErr x).hasErr e := rfl
  simp [hkept, hclears, eq_comm]

end

/-! ### The walk -/

/-- The two causes of a walk, each with its condition (R161). -/
def WalkRaises (s : State) (c : ErrCause) : Prop :=
  c = .missingTree ∧ s.rootValid = false ∨ c = .malformedTree ∧ s.rootValid = true

/-- A symbol emitted is emitted whatever ERR holds, and ROOT_VALID stays. -/
theorem emitSymbol_withErr {sym : Symbol} {s t : State} (h : emitSymbol sym s = .go t) :
    t.rootValid = s.rootValid ∧ ∀ x, emitSymbol sym (s.withErr x) = .go (t.withErr x) := by
  rcases emitSymbol_cases sym s with ⟨hroom, he⟩ | ⟨-, he⟩ <;> cases he.symm.trans h
  refine ⟨rfl, fun x => ?_⟩
  rcases emitSymbol_cases sym (s.withErr x) with ⟨-, he'⟩ | ⟨hfull, -⟩
  · exact he'
  · exact absurd hroom (Nat.not_lt.2 hfull)

/-- What a bit leads to does not turn on ERR. -/
theorem bitResult_withErr (b : Bool) (s : State) (x : BitVec 8) : bitResult b (s.withErr x) = bitResult b s := rfl

/-- A bit that raises nothing leads on from any error bits, and leaves them (R161). -/
theorem stepBit_go_withErr {b : Bool} {s t : State} (h : stepBit b s = .go t) :
    t.rootValid = s.rootValid ∧ ∀ x, stepBit b (s.withErr x) = .go (t.withErr x) := by
  simp only [stepBit_eq, bitResult_withErr] at h ⊢
  rcases hb : bitResult b s with c | (sym | nxt) <;> simp only [hb] at h ⊢
  · cases h
  · exact emitSymbol_withErr h
  · cases h
    exact ⟨rfl, fun _ => rfl⟩

/-- A bit that raises does so from any error bits (R161). -/
theorem stepBit_ended_withErr {b : Bool} {s t : State} (h : stepBit b s = .ended t) :
    ∃ c, WalkRaises s c ∧ t = s.endDec.setErr c ∧
      ∀ x, stepBit b (s.withErr x) = .ended ((s.endDec.withErr x).setErr c) := by
  simp only [stepBit_eq, bitResult_withErr] at h ⊢
  rcases hb : bitResult b s with c | (sym | nxt) <;> simp only [hb] at h ⊢
  · cases h
    exact ⟨c, bitResult_error hb, rfl, fun _ => rfl⟩
  · rcases emitSymbol_cases sym s.countBit with ⟨-, he⟩ | ⟨-, he⟩ <;> cases he.symm.trans h
  · cases h

/-- Error bits neither stop a walk nor turn it: it goes on or raises as it would with any other. -/
theorem walkBits_withErr {bs : List Bool} {s t : State} (h : (walkBits bs s).outcome = .next t) :
    (∀ x, (walkBits bs (s.withErr x)).outcome = .next (t.withErr x)) ∨
    ∃ (c : ErrCause) (u : State), WalkRaises s c ∧ t = u.setErr c ∧
      ∀ x, (walkBits bs (s.withErr x)).outcome = .next ((u.withErr x).setErr c) := by
  induction bs generalizing s with
  | nil =>
    cases h
    exact .inl fun _ => rfl
  | cons b bs ih =>
    simp only [walkBits] at h ⊢
    cases hb : stepBit b s with
    | go v =>
      obtain ⟨hroot, hgo⟩ := stepBit_go_withErr hb
      rw [hb] at h
      simp only [hgo, WalkRaises, ← hroot]
      exact ih h
    | ended v =>
      obtain ⟨c, hc, rfl, hended⟩ := stepBit_ended_withErr hb
      rw [hb] at h
      cases h
      exact .inr ⟨c, s.endDec, hc, rfl, fun x => by rw [hended, Flow.andThen_ended, Flow.outcome_ended]⟩
    | stop f =>
      rw [hb] at h
      cases h

/-! ### The packer -/

/-- What the packer does with a bit it does whatever ERR holds. -/
theorem appendBit_withErr {b : Bool} {s t : State} (x : BitVec 8) (h : appendBit b s = .go t) :
    appendBit b (s.withErr x) = .go (t.withErr x) := by
  rcases appendBit_cases b s with ⟨h7, he⟩ | ⟨h7, hroom, he⟩ | ⟨-, -, he⟩ <;> rw [he] at h <;> cases h
  · exact appendBit_within_byte (s := s.withErr x) h7
  · exact appendBit_full_byte (s := s.withErr x) h7 hroom

theorem appendBits_withErr {bs : List Bool} {s t : State} (x : BitVec 8) (h : appendBits bs s = .go t) :
    appendBits bs (s.withErr x) = .go (t.withErr x) := by
  induction bs generalizing s with
  | nil =>
    cases h
    rfl
  | cons b bs ih =>
    obtain ⟨v, hv, ht⟩ := Flow.andThen_eq_go.1 h
    exact Flow.andThen_eq_go.2 ⟨v.withErr x, appendBit_withErr x hv, ih ht⟩

/-! ### The commands -/

section
variable {s t : State}

theorem execDecStart_errEffect (h : exec .decStart s = .next t) : ErrEffect .decStart s t := by
  rcases execDecStart_next h with ⟨hv, rfl⟩ | ⟨hv, hr, rfl⟩ | ⟨n, hv, hr, rfl⟩
  · refine ⟨some .missingTree, ?_, fun x => ⟨_, execDecStart_without_root (s := s.withErr x) hv, rfl, fun e => ?_⟩⟩
    · rintro _ ⟨⟩
      exact ⟨.inl rfl, hv⟩
    · simp [State.hasErr_clearDecoder, clearsErr, eq_comm]
  · refine ⟨some .malformedTree, ?_,
      fun x => ⟨_, execDecStart_of_invalid_root (s := s.withErr x) hv hr, rfl, fun e => ?_⟩⟩
    · rintro _ ⟨⟩
      exact ⟨.inl ⟨rfl, by rw [State.nodeValid, hr, Option.isSome_none]⟩, hv⟩
    · simp [State.hasErr_clearDecoder, clearsErr, eq_comm]
  · refine ⟨none, nofun, fun x => ⟨_, execDecStart_of_valid_root (s := s.withErr x) hv hr, rfl, fun e => ?_⟩⟩
    exact ((s.withErr x).hasErr_clearDecoder e).trans (Bool.or_false _).symm

theorem execDecBits_errEffect {n : Nat} {data : BitVec 16} (h : exec (.decBits n data) s = .next t) :
    ErrEffect (.decBits n data) s t := by
  cases ha : s.decActive with
  | false =>
    obtain ⟨hbits, -⟩ := exec_outside_decode_session ha
    obtain rfl := Host.Outcome.next.inj ((hbits n data).symm.trans h)
    refine .of_raise (fun _ => rfl) ⟨.inl ⟨n, data, rfl⟩, ha⟩ fun x => ?_
    obtain ⟨hbits', -⟩ := exec_outside_decode_session (s := s.withErr x) ha
    exact hbits' n data
  | true =>
    have hwalk (x : BitVec 8) :
        exec (.decBits n data) (s.withErr x) = (walkBits (dataBits n data) (s.withErr x)).outcome :=
      execDecBits_of_active n data ha
    rw [execDecBits_of_active n data ha] at h
    rcases walkBits_withErr h with hgo | ⟨c, u, hc, rfl, hraise⟩
    · exact .of_keeps (fun _ => rfl) fun x => (hwalk x).trans (hgo x)
    · refine .of_raise (fun _ => rfl) ?_ fun x => (hwalk x).trans (hraise x)
      rcases hc with ⟨rfl, hv⟩ | ⟨rfl, hv⟩
      · exact ⟨.inr ⟨n, data, rfl⟩, hv⟩
      · exact ⟨.inr ⟨n, data, rfl⟩, hv⟩

theorem execDecEnd_errEffect (h : exec .decEnd s = .next t) : ErrEffect .decEnd s t := by
  rcases execDecEnd_next h with ⟨ha, rfl⟩ | ⟨ha, hc, rfl⟩ | ⟨ha, hc, rfl⟩
  · refine .of_raise (fun _ => rfl) ⟨.inr rfl, ha⟩ fun x => ?_
    obtain ⟨-, hend⟩ := exec_outside_decode_session (s := s.withErr x) ha
    exact hend
  · exact .of_keeps (fun _ => rfl) fun x => execDecEnd_at_root (s := s.withErr x) ha hc
  · exact .of_raise (fun _ => rfl) ⟨rfl, hc⟩ fun x => execDecEnd_away_from_root (s := s.withErr x) ha hc

/-- ENC_START clears its two bits and raises nothing (R141). -/
theorem execEncStart_hasErr (h : exec .encStart s = .next t) (e : ErrCause) :
    t.hasErr e = (s.hasErr e && !clearsErr .encStart e) := by
  cases h
  have hbit : encErrs.getLsbD (e.bitNo - 8) = clearsErr .encStart e := by cases e <;> decide
  exact hbit ▸ s.hasErr_clearErrs encErrs e

theorem execEncStart_errEffect (h : exec .encStart s = .next t) : ErrEffect .encStart s t := by
  cases h
  refine ⟨none, nofun, fun x => ⟨_, rfl, rfl, fun e => ?_⟩⟩
  exact (execEncStart_hasErr rfl e).trans (Bool.or_false _).symm

theorem execEncSym_errEffect {c : Symbol} (h : exec (.encSym c) s = .next t) : ErrEffect (.encSym c) s t := by
  rcases execEncSym_next_iff.1 h with ⟨ha, rfl⟩ | ⟨ha, hc, rfl⟩ | ⟨y, v, ha, hc, hv, rfl⟩
  · refine .of_raise (fun _ => rfl) ⟨.inl ⟨c, rfl⟩, ha⟩ fun x => ?_
    obtain ⟨hsym, -⟩ := exec_outside_encode_session (s := s.withErr x) ha
    exact hsym c
  · refine .of_raise (fun _ => rfl) ⟨c, rfl, ?_⟩ fun x => execEncSym_of_unknown (s := s.withErr x) ha hc
    rw [State.codeValid, hc, Option.isSome_none]
  · exact .of_keeps (fun _ => rfl)
      fun x => execEncSym_of_code (s := s.withErr x) ha hc (appendBits_withErr x hv)

theorem execEncFlush_errEffect (h : exec .encFlush s = .next t) : ErrEffect .encFlush s t := by
  rcases execEncFlush_next h with ⟨ha, rfl⟩ | ⟨ha, hp, rfl⟩ | ⟨ha, hp, hroom, rfl⟩
  · refine .of_raise (fun _ => rfl) ⟨.inr rfl, ha⟩ fun x => ?_
    obtain ⟨-, hflush⟩ := exec_outside_encode_session (s := s.withErr x) ha
    exact hflush
  · exact .of_keeps (fun _ => rfl) fun x => execEncFlush_of_empty (s := s.withErr x) ha hp
  · exact .of_keeps (fun _ => rfl) fun x => execEncFlush_of_partial (s := s.withErr x) ha hp hroom

/-- What every command does to ERR (R180 to R183). -/
theorem exec_errEffect {i : Instr} (h : exec i s = .next t) : ErrEffect i s t := by
  cases i with
  | srst =>
    cases h
    exact ⟨none, nofun, fun x => ⟨_, rfl, rfl, fun e => by simp [clearsErr]⟩⟩
  | codeLen c len =>
    rcases execCodeLen_next h with ⟨hl, rfl⟩ | ⟨hl, rfl⟩
    · exact .of_keeps (fun _ => rfl) fun x => if_pos hl
    · exact .of_keeps (fun _ => rfl) fun x => if_neg hl
  | codeBits c k data =>
    rcases execCodeBits_next h with ⟨hc, rfl⟩ | ⟨y, hc, rfl⟩
    · exact .of_keeps (fun _ => rfl) fun x => execCodeBits_of_none (s := t.withErr x) k data hc
    · exact .of_keeps (fun _ => rfl) fun x => execCodeBits_of_some (s := s.withErr x) k data hc
  | decStart => exact execDecStart_errEffect h
  | decBits n data => exact execDecBits_errEffect h
  | decEnd => exact execDecEnd_errEffect h
  | encStart => exact execEncStart_errEffect h
  | encSym c => exact execEncSym_errEffect h
  | encFlush => exact execEncFlush_errEffect h
  | nop | treeInt | treeLeaf | rootSet | rootClr =>
    cases h
    exact .of_keeps (fun _ => rfl) fun _ => rfl

/-- Every error bit after a command: it was 1 and the command does not clear it, or the command has raised it. -/
theorem exec_hasErr {i : Instr} (h : exec i s = .next t) :
    ∃ raised : Option ErrCause, (∀ c, raised = some c → CommandRaises i s c) ∧
      ∀ e, t.hasErr e = (s.hasErr e && !clearsErr i e || decide (raised = some e)) := by
  obtain ⟨raised, hcause, heffect⟩ := exec_errEffect h
  obtain ⟨t', hexec, -, hbits⟩ := heffect s.err
  obtain rfl : t' = t := Host.Outcome.next.inj (hexec.symm.trans h)
  exact ⟨raised, hcause, hbits⟩

end

/-- Settles O20: the bits cleared and the cause raised are the same for all error bits the command starts from. -/
theorem errorBitsStopNothing : Obligations.ErrorBitsStopNothing := by
  intro i s t x h
  obtain ⟨raised, -, heffect⟩ := exec_errEffect h
  obtain ⟨t', hexec, hsame, hbits'⟩ := heffect x
  obtain ⟨u, hexec_own, -, hbits⟩ := heffect s.err
  obtain rfl : u = t := Host.Outcome.next.inj (hexec_own.symm.trans h)
  refine ⟨held_congr i rfl rfl, t', hexec, hsame, fun e he => ?_⟩
  have he : (s.withErr s.err).hasErr e = (s.withErr x).hasErr e := he
  rw [hbits, hbits', he]

/-! ### The steps -/

/-- The error bits a step clears: those a write of STATUS names, all at the reset input, and its command's (R182). -/
def State.clears (s : State) (e : ErrCause) : Bool :=
  match s.turn with
  | .read _ => false
  | .write a v => decide (wordOffset a = 0x00) && v.getLsbD e.bitNo
  | .resetInput => true
  | .engine => s.executing.any fun i => clearsErr i e

/-- The condition in which a step may raise a cause: its command's, an ILLEGAL word, or a write of CMD while a command
is pending (R180). -/
def State.Raises (s : State) (c : ErrCause) : Prop :=
  (∃ i, s.executing = some i ∧ CommandRaises i s c) ∨
  (c = .illegalCmd ∧ s.enginesStep = true ∧ ∃ why, decode s.cmdr = .illegal why) ∨
  (c = .cmdOvf ∧ (∃ a v, s.turn = .write a v ∧ wordOffset a = 0x04) ∧ s.cmdPend = true)

theorem hostRead_hasErr (a : PortAddr) (s : State) (e : ErrCause) : (hostRead a s).hasErr e = s.hasErr e := by
  rcases hostRead_cases a s with ⟨-, h⟩ | ⟨-, h⟩ | ⟨-, -, h⟩ <;> rw [h] <;> rfl

/-- A write clears the bits it names at STATUS, and overflows at CMD while a command is pending (R46, R47). -/
theorem hostWrite_hasErr (a : PortAddr) (v : Word) (s : State) :
    ∃ raised : Option ErrCause, (∀ c, raised = some c → c = .cmdOvf ∧ wordOffset a = 0x04 ∧ s.cmdPend = true) ∧
      ∀ e, (hostWrite a v s).hasErr e =
        (s.hasErr e && !(decide (wordOffset a = 0x00) && v.getLsbD e.bitNo) || decide (raised = some e)) := by
  rcases hostWrite_cases a v s with ⟨h0, h⟩ | ⟨h4, hp, h⟩ | ⟨h4, -, h⟩ | ⟨h0, -, h⟩ <;> rw [h]
  · exact ⟨none, nofun, fun e => by rw [State.hasErr_clearErrs, statusField_bit]; simp [h0]⟩
  · refine ⟨some .cmdOvf, ?_, fun e => by simp [h4, eq_comm]⟩
    rintro _ ⟨⟩
    exact ⟨rfl, h4, hp⟩
  · refine ⟨none, nofun, fun e => ?_⟩
    have hkept : State.hasErr { s with cmdr := v, cmdPend := true } e = s.hasErr e := rfl
    simp [hkept, h4]
  · exact ⟨none, nofun, fun e => by simp [h0]⟩

/-- Every error bit after a step: it was 1 and the step does not clear it, or the step has raised it. -/
theorem step_hasErr {s t : State} (h : step s = .next t) :
    ∃ raised : Option ErrCause, (∀ c, raised = some c → s.Raises c) ∧
      ∀ e, t.hasErr e = (s.hasErr e && !s.clears e || decide (raised = some e)) := by
  rcases step_next h with ⟨a, ht, -, rfl⟩ | ⟨a, v, ht, -, rfl⟩ | ⟨ht, -, rfl⟩ | ⟨ht, hx, -, rfl⟩ |
    ⟨why, ht, hx, he, hd, rfl⟩ | ⟨i, ht, hx, -, -, hexec⟩
  · exact ⟨none, nofun, fun e => by simp [State.clears, ht, hostRead_hasErr]⟩
  · obtain ⟨raised, hcause, hbits⟩ := hostWrite_hasErr a v s.popTurn
    refine ⟨raised, fun c hc => ?_, fun e => by simp [State.clears, ht, hbits]⟩
    obtain ⟨rfl, h4, hp⟩ := hcause c hc
    exact .inr (.inr ⟨rfl, ⟨a, v, ht, h4⟩, hp⟩)
  · exact ⟨none, nofun, fun e => by simp [State.clears, ht]⟩
  · exact ⟨none, nofun, fun e => by simp [State.clears, ht, hx]⟩
  · refine ⟨some .illegalCmd, ?_, fun e => by simp [State.clears, ht, hx, eq_comm]⟩
    rintro _ ⟨⟩
    exact .inr (.inl ⟨rfl, by simp [State.enginesStep, ht, he], why, hd⟩)
  · obtain ⟨raised, hcause, hbits⟩ := exec_hasErr hexec
    exact ⟨raised, fun c hc => .inl ⟨i, hx, hcause c hc⟩, fun e => by simp [State.clears, ht, hx, hbits]⟩

/-- A step that sets an error bit has raised its cause, and no other. -/
theorem step_sets_err {s t : State} (h : step s = .next t) :
    ∃ raised : Option ErrCause, ∀ e, s.hasErr e = false → t.hasErr e = true → raised = some e ∧ s.Raises e := by
  obtain ⟨raised, hcause, hbits⟩ := step_hasErr h
  refine ⟨raised, fun e hs ht => ?_⟩
  have hraised : raised = some e := by simpa [hbits, hs] using ht
  exact ⟨hraised, hcause e hraised⟩

/-- Settles O18: the bit set is the cause raised, under its condition. -/
theorem errorBitsSetOnlyByTheirCause : Obligations.ErrorBitsSetOnlyByTheirCause := by
  intro s t e h hs ht
  obtain ⟨raised, hsets⟩ := step_sets_err h
  obtain ⟨-, ⟨i, hx, hc⟩ | ⟨rfl, hill⟩ | ⟨rfl, hovf⟩⟩ := hsets e hs ht
  · cases e with
    | illegalCmd | cmdOvf => exact False.elim hc
    | _ => simpa [hx, CommandRaises] using hc
  · exact hill
  · exact hovf

/-- Settles O19: each of the two bits is the one cause the step has raised. -/
theorem atMostOneErrorPerStep : Obligations.AtMostOneErrorPerStep := by
  intro s t e e' h hs ht hs' ht'
  obtain ⟨raised, hsets⟩ := step_sets_err h
  obtain ⟨he, -⟩ := hsets e hs ht
  obtain ⟨he', -⟩ := hsets e' hs' ht'
  exact Option.some.inj (he.symm.trans he')

/-! ### The four ways an error bit is cleared -/

theorem clearsErr_cases {i : Instr} {e : ErrCause} (h : clearsErr i e = true) :
    (i = .decStart ∧ 10 ≤ e.bitNo ∧ e.bitNo ≤ 13) ∨ (i = .encStart ∧ 14 ≤ e.bitNo) ∨ i = .srst := by
  cases i with
  | srst => exact .inr (.inr rfl)
  | decStart => exact .inl ⟨rfl, by simpa [clearsErr] using h⟩
  | encStart => exact .inr (.inl ⟨rfl, by simpa [clearsErr] using h⟩)
  | _ => cases h

/-- A step that clears a bit does so in one of the four ways of R182. -/
theorem State.clears_cases {s : State} {e : ErrCause} (h : s.clears e = true) :
    (∃ a v, s.turn = .write a v ∧ wordOffset a = 0x00 ∧ v.getLsbD e.bitNo = true) ∨
      (s.executing = some .decStart ∧ 10 ≤ e.bitNo ∧ e.bitNo ≤ 13) ∨
      (s.executing = some .encStart ∧ 14 ≤ e.bitNo) ∨ s.isReset = true := by
  unfold State.clears at h
  cases ht : s.turn with
  | read a => simp [ht] at h
  | write a v => exact .inl ⟨a, v, rfl, by simpa [ht] using h⟩
  | resetInput => exact .inr (.inr (.inr (by simp [State.isReset, ht])))
  | engine =>
    simp only [ht, Option.any_eq_true] at h
    obtain ⟨i, hx, hc⟩ := h
    rcases clearsErr_cases hc with ⟨rfl, hb⟩ | ⟨rfl, hb⟩ | rfl
    · exact .inr (.inl ⟨hx, hb⟩)
    · exact .inr (.inr (.inl ⟨hx, hb⟩))
    · exact .inr (.inr (.inr (by simp [State.isReset, hx])))

/-- A bit that a step leaves 0 is one of those it clears. -/
theorem step_clears_err {s t : State} (h : step s = .next t) {e : ErrCause} (hs : s.hasErr e = true)
    (ht : t.hasErr e = false) : s.clears e = true := by
  obtain ⟨raised, -, hbits⟩ := step_hasErr h
  have hcleared : s.clears e = true ∧ raised ≠ some e := by simpa [hbits, hs] using ht
  exact hcleared.1

/-- DEC_START leaves of its four bits only the one it has raised itself (R160). -/
theorem execDecStart_hasErr {s t : State} (h : exec .decStart s = .next t) :
    t.hasErr .truncated = false ∧ t.hasErr .decSeq = false ∧ t.hasErr .missingTree = !s.rootValid ∧
      t.hasErr .malformedTree = (s.rootValid && !s.nodeValid s.root) := by
  rcases execDecStart_next h with ⟨hv, rfl⟩ | ⟨hv, hr, rfl⟩ | ⟨n, hv, hr, ht⟩
  · simp [State.hasErr_clearDecoder, hv, ErrCause.bitNo]
  · simp [State.hasErr_clearDecoder, hv, State.nodeValid, hr, ErrCause.bitNo]
  · have hbits (e : ErrCause) : t.hasErr e = s.clearDecoder.hasErr e := by rw [ht]; rfl
    simp [hbits, State.hasErr_clearDecoder, hv, State.nodeValid, hr, ErrCause.bitNo]

/-- A reset leaves no error bit, by SRST or by the reset input (R200). -/
theorem step_isReset_hasErr {s t : State} (h : step s = .next t) (hr : s.isReset = true) (e : ErrCause) :
    t.hasErr e = false := by
  simp only [State.isReset, Bool.or_eq_true, decide_eq_true_eq] at hr
  rcases hr with ht | hx
  · obtain rfl := Host.Outcome.next.inj ((step_resetInput ht).symm.trans h)
    simp
  · cases exec_of_step h hx
    simp

/-- Settles O17: the step's bits are cleared in one of the four ways, and each way leaves its bits 0, but for the one
that DEC_START's own checks have raised. -/
theorem errorBitsClearOnlyByTheRule : Obligations.ErrorBitsClearOnlyByTheRule := by
  refine fun s t h => ⟨fun e hs ht => State.clears_cases (step_clears_err h hs ht), fun a v e ht ha hv => ?write,
    fun hx => ?decStart, fun hx => ?encStart, step_isReset_hasErr h⟩
  case write =>
    obtain rfl := Host.Outcome.next.inj ((step_write_status ht ha).symm.trans h)
    rw [State.hasErr_clearErrs, statusField_bit, hv, Bool.not_true, Bool.and_false]
  case decStart =>
    exact execDecStart_hasErr (s := s.popTurn.takeCommand) (exec_of_step h hx)
  case encStart =>
    have hbits := execEncStart_hasErr (exec_of_step h hx)
    exact ⟨(hbits .unknownSymbol).trans (Bool.and_false _), (hbits .encSeq).trans (Bool.and_false _)⟩

end Sys2Proof.Machine
end

section
/-! HOST's duties (70_reset_and_hazards.md R203, R205): no overflow of CMD under polling, and the tables of an open
session kept. -/

namespace Sys2Proof.Machine

/-- A host that polls writes no command over a pending one. -/
theorem State.pollsFirst.cmdPend_of_write {s : State} (hp : s.pollsFirst) {a : PortAddr} {v : Word}
    (ht : s.turn = .write a v) (ha : wordOffset a = 0x04) : s.cmdPend = false := by
  simp only [State.pollsFirst, ht] at hp
  exact hp ha

theorem step_keeps_cmdOvf_clear {s t : State} (h : step s = .next t) (hp : s.pollsFirst)
    (hs : s.hasErr .cmdOvf = false) : t.hasErr .cmdOvf = false := by
  by_contra ht
  obtain ⟨⟨a, v, hturn, ha⟩, hpend⟩ := errorBitsSetOnlyByTheirCause s t .cmdOvf h hs (Bool.eq_true_of_not_eq_false ht)
  exact Bool.noConfusion ((hp.cmdPend_of_write hturn ha).symm.trans hpend)

/-! ### The tables of an open session -/

section
variable {s t : State} (h : step s = .next t) (hk : s.keepsTables) (hr : s.isReset = false)
include h hk hr

/-- Every command that writes TREE is one that R205 rules out while a decode session is open. -/
theorem step_keeps_tree_in_session (ha : s.decActive = true) : t.tree = s.tree := by
  by_contra hne
  rcases step_writes_tree h hr hne with ⟨idx, l, r, hx⟩ | ⟨idx, sym, hx⟩ <;> simp [State.keepsTables, hx, ha] at hk

theorem step_keeps_root_in_session (ha : s.decActive = true) : t.root = s.root := by
  by_contra hne
  obtain ⟨idx, hx, -⟩ := step_writes_root h hr hne
  simp [State.keepsTables, hx, ha] at hk

theorem step_keeps_rootValid_in_session (ha : s.decActive = true) : t.rootValid = s.rootValid := by
  by_contra hne
  rcases step_writes_rootValid h hr hne with ⟨idx, hx, -⟩ | ⟨hx, -⟩ <;> simp [State.keepsTables, hx, ha] at hk

/-- Both commands that write CODE are ruled out by R205 while an encode session is open. -/
theorem step_keeps_code_in_session (ha : s.encActive = true) : t.code = s.code := by
  by_contra hne
  rcases step_writes_code h hr hne with ⟨c, len, hx⟩ | ⟨c, k, data, hx⟩ <;> simp [State.keepsTables, hx, ha] at hk

end

/-- Settles O45: an overflow needs a write of CMD over a pending command, and each table is written only by the commands
that R205 keeps out of its session. -/
theorem hostDutiesKeepTheTables : Obligations.HostDutiesKeepTheTables :=
  fun _ _ h => ⟨step_keeps_cmdOvf_clear h,
    fun hk hr ha => ⟨step_keeps_tree_in_session h hk hr ha, step_keeps_root_in_session h hk hr ha,
      step_keeps_rootValid_in_session h hk hr ha⟩,
    step_keeps_code_in_session h⟩

end Sys2Proof.Machine
end
